-- ==== Sys2Proof/Word.lean ====
section
/-! DEFINITION. The widths of the engine's words (10_state R21, R36 to R43; 30_encoding R90). -/

namespace Sys2Proof

/-- One sample, symbol or code length: 8 bits (10_state R36, R39). -/
abbrev Byte := BitVec 8

/-- The word a host writes to `CMD` (30_encoding R90). -/
abbrev CommandWord := BitVec 32

/-- The home of a bit pattern of the format `FLT`: 64 bits, the slot that holds `Q`, and the width of
the default format binary64 (10_state R21, R26; 30_encoding R102). A pattern of a narrower format
stands in the low bits (`FltFormat`, log 6). -/
abbrev Flt := BitVec 64

/-- One 64-bit register slot (10_state R21). -/
abbrev Slot := BitVec 64

/-- The widest element of a data space, and so the width of the host's data port (20_memory R60). -/
abbrev Wide := BitVec 256

/-- A bit sequence, first bit first (00_scope R12). -/
abbrev Code := List Bool

end Sys2Proof
end

