-- ==== Sys2Proof/Config.lean ====
section
/-! DEFINITION. The parameters of the hardware (00_scope R8, 10_state R50) and the free values. -/

namespace Sys2Proof

/-- The parameter `FLT`: a floating-point format, as far as the rules use one (00_scope R8, R16). A
value is the pattern in the low `width` bits of an `Flt`; `width` is at most the 64 bits of the slot
that holds `Q` (10_state R21, R26). A finite pattern stands for the number `scaled / unit`. The laws
are R16's, and `exact_byte` is what 70_reset_and_hazards R306 requires, so a format that R306 has a
model refuse cannot be built. -/
structure FltFormat where
  /-- The number of bits of a pattern; on a bus, where it is no multiple of 8, it takes whole bytes (log
  26). -/
  width : Nat
  width_range : 8 ≤ width ∧ width ≤ 64
  isNaN : Flt → Bool
  isInf : Flt → Bool
  /-- The sign, which tells the infinities apart. -/
  isNegative : Flt → Bool
  /-- `+0.0`. -/
  zero : Flt
  /-- `flt(n)` of a sample. -/
  ofByte : Byte → Flt
  /-- `fabs(x)`. -/
  abs : Flt → Flt
  /-- `x < y`, the ordered comparison. -/
  lt : Flt → Flt → Bool
  /-- How many steps of `scaled` make 1. -/
  unit : Nat
  /-- The number a finite pattern stands for, times `unit`. -/
  scaled : Flt → Int
  unit_pos : 0 < unit
  zero_fits : zero.toNat < 2 ^ width
  zero_value : isNaN zero = false ∧ isInf zero = false ∧ scaled zero = 0
  /-- `flt` is exact on `0..255`. -/
  exact_byte : ∀ b : Byte, isNaN (ofByte b) = false ∧ isInf (ofByte b) = false ∧
    scaled (ofByte b) = b.toNat * unit
  byte_fits : ∀ b : Byte, (ofByte b).toNat < 2 ^ width
  /-- The comparison is false when either operand is NaN. -/
  lt_nan : ∀ x y, isNaN x = true ∨ isNaN y = true → lt x y = false
  /-- On finite values the comparison is that of the numbers. -/
  lt_finite : ∀ x y, isNaN x = false → isInf x = false → isNaN y = false → isInf y = false →
    (lt x y = true ↔ scaled x < scaled y)
  /-- Every finite value lies between the infinities. -/
  lt_inf : ∀ x y, isNaN x = false → isInf x = false → isInf y = true → lt x y = !isNegative y
  inf_lt : ∀ x y, isInf x = true → isNaN y = false → isInf y = false → lt x y = isNegative x
  inf_lt_inf : ∀ x y, isInf x = true → isInf y = true → lt x y = (isNegative x && !isNegative y)
  /-- The magnitude of a finite value, of an infinity and of NaN. -/
  abs_finite : ∀ x, isNaN x = false → isInf x = false →
    isNaN (abs x) = false ∧ isInf (abs x) = false ∧ scaled (abs x) = |scaled x|
  abs_inf : ∀ x, isInf x = true → isInf (abs x) = true ∧ isNegative (abs x) = false
  abs_nan : ∀ x, isNaN (abs x) = isNaN x

/-- The pattern a word holds: its low `width` bits, the others zero (10_state R21, 30_encoding R102). -/
def FltFormat.pattern (f : FltFormat) (v : Flt) : Flt := (v.setWidth f.width).setWidth 64

/-- A value that is neither NaN nor an infinity. -/
def FltFormat.isFinite (f : FltFormat) (x : Flt) : Bool := !f.isNaN x && !f.isInf x

/-- The parameters of the step relation (00_scope R8, 10_state R50). The ranges of R8 and the laws of
`round8` (43_block_transform R211) are proof fields, so a configuration that 70_reset_and_hazards
R306 has a model refuse cannot be built. The kernels are functions of their arguments alone (`K_FUN`,
43_block_transform R203; `H_FUN`, 44_wavelet_transform R232) and answer patterns of the format: a
block is the row-major list of its `n * n` values, and a block kernel answers the coefficient (or
sample) at a row and a column. `TOL` is an argument of the properties that speak of it
(`BlockRoundTrip`, `CellRoundTrip`); `busmap` is open (log 18). -/
structure Config where
  /-- `MAXLEN`: the largest number of samples. -/
  maxLen : Nat
  /-- `MAXBITS`: the number of bits `BITS` holds. -/
  maxBits : Nat
  /-- `BLKMAX`: the largest legal block edge. -/
  blkMax : Nat
  maxLen_range : 1 ≤ maxLen ∧ maxLen ≤ 2 ^ 32 - 1
  maxBits_range : 1 ≤ maxBits ∧ maxBits ≤ 2 ^ 40 - 1
  blkMax_range : 8 ≤ blkMax ∧ blkMax ≤ 255
  /-- `FLT`. -/
  flt : FltFormat
  /-- `dct_fwd(n, block)`, at `(u, v)`. -/
  dctFwd : Nat → List Flt → Nat → Nat → Flt
  /-- `dct_inv(n, block)`, at `(x, y)`. -/
  dctInv : Nat → List Flt → Nat → Nat → Flt
  /-- `haar_fwd(a, b, c, d)`, the four coefficients `(A, Hd, V, D)`. -/
  haarFwd : Flt → Flt → Flt → Flt → Flt × Flt × Flt × Flt
  /-- `haar_inv(A, Hd, V, D)`, the four samples `(a, b, c, d)`. -/
  haarInv : Flt → Flt → Flt → Flt → Flt × Flt × Flt × Flt
  /-- The coefficients are patterns of the format. -/
  dctFwd_pattern : ∀ n block u v, flt.pattern (dctFwd n block u v) = dctFwd n block u v
  haarFwd_pattern : ∀ a b c d, (flt.pattern (haarFwd a b c d).1, flt.pattern (haarFwd a b c d).2.1,
    flt.pattern (haarFwd a b c d).2.2.1, flt.pattern (haarFwd a b c d).2.2.2) = haarFwd a b c d
  /-- `round8`, the rounding of a finite `FLT` value to an integer (43_block_transform R211). -/
  round8 : Flt → Int
  /-- `round8` is monotone. -/
  round8_monotone : ∀ x y, flt.isFinite x = true → flt.isFinite y = true →
    flt.scaled x ≤ flt.scaled y → round8 x ≤ round8 y
  /-- `round8` leaves integers unchanged. -/
  round8_integer : ∀ x (n : Int), flt.isFinite x = true → flt.scaled x = n * flt.unit → round8 x = n

/-- A free value: what an `unspecified` value is (00_scope R15, 70_reset_and_hazards R304).
`draw` says which event made the value unspecified, `index` which element it is. Log 3. -/
opaque Config.freeBits (width draw index : Nat) : BitVec width

/-- The block kernels of the machine, which the source does not fix (43_block_transform R203, log 7). -/
opaque Config.openDctFwd : Nat → List Flt → Nat → Nat → Flt

/-- See `Config.openDctFwd`. -/
opaque Config.openDctInv : Nat → List Flt → Nat → Nat → Flt

/-- The subband kernels of the machine, which the source does not fix (44_wavelet_transform R232,
log 7). -/
opaque Config.openHaarFwd : Flt → Flt → Flt → Flt → Flt × Flt × Flt × Flt

/-- See `Config.openHaarFwd`. -/
opaque Config.openHaarInv : Flt → Flt → Flt → Flt → Flt × Flt × Flt × Flt

end Sys2Proof
end

