-- ==== Sys2Proof/Machine/State.lean ====
section
/-! DEFINITION. The architectural state of one engine instance (10_state R20), the moves that can
happen to it (00_scope R9, 70_reset_and_hazards R296, R297), and its value after reset (10_state
R48). -/

namespace Sys2Proof.Machine

/-- The twelve data spaces (20_memory R60). -/
inductive SpaceId where
  | pix | runs | freq | tree | clen | cval | bits | coef | suba | subh | subv | subd
  deriving DecidableEq, Repr

/-- What a bus access falls in: the register block or one data space. Their bases are the open
parameter `busmap` (20_memory R69, log 18). -/
inductive BusTarget where
  | registers
  | space (sp : SpaceId)
  deriving DecidableEq, Repr

/-- What the host can do at its port (30_encoding R104, 70_reset_and_hazards R297). -/
inductive HostAction where
  /-- `RD`: read the register of this index. -/
  | readReg (index : Nat)
  /-- `WR`: write the register of this index; index 0, `CMD`, issues a command. -/
  | writeReg (index : Nat) (value : Slot)
  /-- `LD`: `HostRead(space, index)`. -/
  | readSpace (sp : SpaceId) (index : Nat)
  /-- `ST`: `HostWrite(space, index, value)`; bits above the element's width are ignored (log 15). -/
  | writeSpace (sp : SpaceId) (index : Nat) (value : Wide)
  /-- A bus read of `size` bytes at a byte offset from the target's base (20_memory R65, R69). -/
  | busRead (target : BusTarget) (offset size : Nat)
  /-- A bus write of these bytes, lowest address first (20_memory R63, R65, R69). -/
  | busWrite (target : BusTarget) (offset : Nat) (bytes : List Byte)
  deriving DecidableEq, Repr

/-- What can happen next to the machine (70_reset_and_hazards R296: a run interleaves host actions
with the engine's steps). -/
inductive Move where
  /-- The engine takes its step, if it can (30_encoding R96). -/
  | engine
  /-- The host acts. -/
  | host (action : HostAction)
  /-- A host write to `STATUS` in the same instant as the engine's step (60_exceptions R263). -/
  | engineWithStatusWrite (value : Slot)
  /-- The reset input becomes asserted (70_reset_and_hazards R290, R291). -/
  | assertReset
  /-- The reset input is released (70_reset_and_hazards R290). -/
  | releaseReset
  deriving DecidableEq, Repr

/-- The register `STATUS` (10_state R32). -/
structure Status where
  busy : Bool
  done : Bool
  err : Bool
  haz : Bool
  deriving DecidableEq, Repr

/-- One data space: an array of elements indexed from 0 (10_state section 6). `cells` lists the
elements that hold a value, indices strictly rising; every other element is unspecified and reads
as the free value that `epoch` selects (log 3). With `width = 8` a cell is a `Host.Cell`. -/
structure Space (width : Nat) where
  epoch : Nat
  cells : List (Nat × BitVec width)
  deriving DecidableEq, Repr

/-- The whole architectural state (10_state R20), the level of the reset input, and four fields of
the model's own, named in their comments. -/
structure State where
  /-- `STATUS`, 10_state R32. -/
  status : Status
  /-- `ERRCODE`, 10_state R33. -/
  errcode : BitVec 3
  /-- `CTRL` bit 0, `IE`, 10_state R34. -/
  ie : Bool
  /-- `W`, 10_state R23. -/
  w : BitVec 32
  /-- `H`, 10_state R24. -/
  h : BitVec 32
  /-- `BLK`, 10_state R25. -/
  blk : BitVec 8
  /-- `Q`, 10_state R26. -/
  q : Flt
  /-- `NRUNS`, 10_state R27. -/
  nruns : BitVec 32
  /-- `BITLEN`, 10_state R28. -/
  bitlen : BitVec 40
  /-- `NNODES`, 10_state R29. -/
  nnodes : BitVec 10
  /-- `ROOT`, 10_state R30. -/
  root : BitVec 9
  /-- `LCMD`, the latched command word, 10_state R45. -/
  lcmd : CommandWord
  /-- `PIX`, 10_state R36. -/
  pix : Space 8
  /-- `RUNS`, 10_state R41, elements of 30_encoding R98. -/
  runs : Space 40
  /-- `FREQ`, 10_state R37. -/
  freq : Space 32
  /-- `TREE`, 10_state R38, elements of 30_encoding R99. -/
  tree : Space 67
  /-- `CLEN`, 10_state R39. -/
  clen : Space 8
  /-- `CVAL`, 10_state R39. -/
  cval : Space 256
  /-- `BITS`, 10_state R40. -/
  bits : Space 1
  /-- `COEF`, 10_state R42. -/
  coef : Space 64
  /-- `SUBA`, 10_state R43. -/
  suba : Space 64
  /-- `SUBH`, 10_state R43. -/
  subh : Space 64
  /-- `SUBV`, 10_state R43. -/
  subv : Space 64
  /-- `SUBD`, 10_state R43. -/
  subd : Space 64
  /-- The reset input is asserted, 70_reset_and_hazards R290. -/
  inReset : Bool
  /-- The model's own: what the last host read returned (log 13). -/
  busData : Wide
  /-- The model's own: how many free values have been drawn (log 3). -/
  draws : Nat
  /-- The model's own: what happens next, first first (log 1). -/
  moves : List Move
  deriving DecidableEq, Repr

/-- Why the machine stops with a fault: never. "Nothing in this hardware is stuck"
(93_implementation_defined, section 1); a failing command is a next state (60_exceptions R257).
There is no constructor, so no meaning can answer a fault (log 20). -/
inductive Fault where
  deriving DecidableEq, Repr

/-- Why the machine declines to answer. -/
inductive Refusal where
  /-- Raised by an arm of `exec` for a command that has no meaning yet. Safe. No arm does. -/
  | notModelled (mnemonic : String)
  /-- Raised by the host port for a bus access that is not one whole aligned element or register
  slot (93_implementation_defined U9, 70_reset_and_hazards R306: "refuse"). Safe. -/
  | partialBusAccess
  deriving DecidableEq, Repr

/-- A data space every element of which is unspecified since draw `epoch` (00_scope R15). -/
def Space.fresh {width : Nat} (epoch : Nat) : Space width := ⟨epoch, []⟩

/-- The state when reset is released (10_state R48, 70_reset_and_hazards R290), every data space
unspecified by a draw of its own; `draws` free values were drawn before. `LCMD` is 0 (DESIGN
CHOICE, log 4: the spec leaves it unspecified). -/
def State.afterReset (draws : Nat) (busData : Wide) (moves : List Move) : State where
  status := ⟨false, false, false, false⟩
  errcode := 0
  ie := false
  w := 0
  h := 0
  blk := 8
  q := 0
  nruns := 0
  bitlen := 0
  nnodes := 0
  root := 0
  lcmd := 0
  pix := Space.fresh draws
  runs := Space.fresh (draws + 1)
  freq := Space.fresh (draws + 2)
  tree := Space.fresh (draws + 3)
  clen := Space.fresh (draws + 4)
  cval := Space.fresh (draws + 5)
  bits := Space.fresh (draws + 6)
  coef := Space.fresh (draws + 7)
  suba := Space.fresh (draws + 8)
  subh := Space.fresh (draws + 9)
  subv := Space.fresh (draws + 10)
  subd := Space.fresh (draws + 11)
  inReset := false
  busData := busData
  draws := draws + 12
  moves := moves

/-- The machine right after reset (10_state R48), with nothing placed for the host to do. -/
def State.reset : State := State.afterReset 0 0 []

end Sys2Proof.Machine
end

