-- ==== Sys2Proof/Machine/Flags.lean ====
section
/-! DEFINITION. The `STATUS` flags, `ERRCODE` and the interrupt: what sets and clears each
(10_state R31 to R34, 60_exceptions R250, R257, R262). -/

namespace Sys2Proof.Machine

/-- The kinds of failure (60_exceptions R250). -/
inductive FailureKind where
  | emptyInput
  | shapeMismatch
  | invalidBitstream
  | unsupportedBlockShape
  | capacityExceeded
  | illegalCommand
  deriving DecidableEq, Repr

/-- The code of a kind in `ERRCODE` (60_exceptions R250). -/
def FailureKind.code : FailureKind → BitVec 3
  | .emptyInput => 1
  | .shapeMismatch => 2
  | .invalidBitstream => 3
  | .unsupportedBlockShape => 4
  | .capacityExceeded => 5
  | .illegalCommand => 6

/-- `STATUS` as the host reads it: `BUSY` bit 0, `DONE` bit 1, `ERR` bit 2, `HAZ` bit 3
(10_state R32). -/
def Status.toBits (t : Status) : BitVec 4 :=
  BitVec.ofBool t.haz ++ (BitVec.ofBool t.err ++ (BitVec.ofBool t.done ++ BitVec.ofBool t.busy))

/-- A host write to `STATUS`: a 1 in bit 1 clears `DONE`, a 1 in bit 3 clears `HAZ`, nothing else
has an effect (10_state R32). -/
def Status.writeOneToClear (t : Status) (v : Slot) : Status :=
  { t with done := t.done && !v.getLsbD 1, haz := t.haz && !v.getLsbD 3 }

/-- The issue of a command word (10_state R31). -/
def State.issue (word : CommandWord) (s : State) : State :=
  { s with
    lcmd := word
    status := { s.status with busy := true, done := false, err := false }
    errcode := 0 }

/-- A successful completion: `BUSY <- 0; DONE <- 1` (30_encoding R96). -/
def State.complete (s : State) : State :=
  { s with status := { s.status with busy := false, done := true } }

/-- The last line of a failing completion: `ERRCODE <- code(K); ERR <- 1; BUSY <- 0; DONE <- 1`
(60_exceptions R257). -/
def State.fail (kind : FailureKind) (s : State) : State :=
  { s with
    status := { s.status with busy := false, done := true, err := true }
    errcode := kind.code }

/-- A refused host access: `HAZ <- 1` (70_reset_and_hazards R300). -/
def State.setHaz (s : State) : State := { s with status := { s.status with haz := true } }

/-- A host write to `STATUS` (10_state R32). -/
def State.writeStatus (v : Slot) (s : State) : State :=
  { s with status := s.status.writeOneToClear v }

/-- The interrupt output: `STATUS.DONE and CTRL.IE`, and 0 while reset is asserted
(60_exceptions R262, 70_reset_and_hazards R290). -/
def State.irq (s : State) : Bool := s.status.done && s.ie && !s.inReset

end Sys2Proof.Machine
end

