-- ==== Sys2Proof/Machine/Operands.lean ====
section
/-! DEFINITION. The forms of operand: elements of a data space, runs, tree nodes, bit sequences,
and the indices the commands form from `W` and `H` (20_memory R61, R64, R77; 30_encoding R98 to
R100; 00_scope R12, R17). -/

namespace Sys2Proof.Machine

/-- The value listed for an index, if one is. -/
def findCell {width : Nat} (i : Nat) : List (Nat × BitVec width) → Option (BitVec width)
  | [] => none
  | (j, v) :: rest => if i = j then some v else findCell i rest

/-- `MemRead(space, i)`: the value last written, else the free value of the unspecified element
(20_memory R61, 70_reset_and_hazards R304, log 3). -/
def Space.read {width : Nat} (sp : Space width) (i : Nat) : BitVec width :=
  (findCell i sp.cells).getD (Config.freeBits width sp.epoch i)

/-- The `FLT` pattern an element holds (30_encoding R102). -/
def Space.readFlt (f : FltFormat) (sp : Space 64) (i : Nat) : Flt := f.pattern (sp.read i)

/-- Puts a value at its index, keeping indices strictly rising. -/
def putCell {width : Nat} (i : Nat) (v : BitVec width) :
    List (Nat × BitVec width) → List (Nat × BitVec width)
  | [] => [(i, v)]
  | (j, x) :: rest =>
    if i < j then (i, v) :: (j, x) :: rest
    else if i = j then (i, v) :: rest
    else (j, x) :: putCell i v rest

/-- `MemWrite(space, i, v)`: sets one element and changes nothing else (20_memory R61). -/
def Space.write {width : Nat} (sp : Space width) (i : Nat) (v : BitVec width) : Space width :=
  { sp with cells := putCell i v sp.cells }

/-- Writes consecutive elements from index `i` on. -/
def Space.writeFrom {width : Nat} (sp : Space width) (i : Nat) :
    List (BitVec width) → Space width
  | [] => sp
  | v :: rest => (sp.write i v).writeFrom (i + 1) rest

/-- The elements `0 .. n-1` (20_memory R77, linear scan). -/
def Space.readUpTo {width : Nat} (sp : Space width) (n : Nat) : List (BitVec width) :=
  (List.range n).map sp.read

/-- Indices strictly rising and all at least `least`. -/
def risingFrom {width : Nat} (least : Nat) : List (Nat × BitVec width) → Bool
  | [] => true
  | (j, _) :: rest => decide (least ≤ j) && risingFrom (j + 1) rest

/-- The canonical form of a data space: indices strictly rising (log 3). -/
def Space.wf {width : Nat} (sp : Space width) : Bool := risingFrom 0 sp.cells

/-- Every listed element lies in a space of `size` elements (20_memory R66). -/
def Space.within {width : Nat} (sp : Space width) (size : Nat) : Bool :=
  sp.cells.all fun cell => decide (cell.1 < size)

/-- `LEN = W * H`, exact (00_scope R17). -/
def State.len (s : State) : Nat := s.w.toNat * s.h.toNat

/-- `PIX[0..LEN-1]`: the samples in scan order (20_memory R77). -/
def State.samples (s : State) : List Byte := s.pix.readUpTo s.len

/-- One pair of the RunList (00_scope R18). -/
structure Run where
  value : Byte
  count : BitVec 32
  deriving DecidableEq, Repr

/-- The 40-bit element of a run: `value` in 39:32, `count` in 31:0 (30_encoding R98). -/
def Run.pack (r : Run) : BitVec 40 := r.value ++ r.count

/-- The run of a 40-bit element (30_encoding R98). -/
def Run.unpack (v : BitVec 40) : Run := ⟨v.extractLsb' 32 8, v.extractLsb' 0 32⟩

/-- One node of the HuffmanTree (10_state R38). -/
structure Node where
  leaf : Bool
  sym : Byte
  freq : BitVec 40
  left : BitVec 9
  right : BitVec 9
  deriving DecidableEq, Repr

/-- `NIL`, no child (10_state R38). -/
def nilIndex : BitVec 9 := 0x1FF

/-- A node of no tree, for a total lookup. -/
def blankNode : Node := ⟨false, 0, 0, nilIndex, nilIndex⟩

/-- The 67-bit element of a node (30_encoding R99). -/
def Node.pack (n : Node) : BitVec 67 :=
  BitVec.ofBool n.leaf ++ (n.right ++ (n.left ++ (n.sym ++ n.freq)))

/-- The node of a 67-bit element (30_encoding R99). -/
def Node.unpack (v : BitVec 67) : Node :=
  ⟨v.getLsbD 66, v.extractLsb' 40 8, v.extractLsb' 0 40, v.extractLsb' 48 9, v.extractLsb' 57 9⟩

/-- `TREE[k]` as a node (10_state R38). -/
def State.node (s : State) (k : Nat) : Node := Node.unpack (s.tree.read k)

/-- `FREQ[sym]` as a count (10_state R37). -/
def State.count (s : State) (sym : Nat) : Nat := (s.freq.read sym).toNat

/-- The number a bit sequence spells, first bit most significant (00_scope R12). -/
def codeValue (c : Code) : Nat := c.foldl (fun acc b => 2 * acc + b.toNat) 0

/-- `bitsOf(len, val)`: the `len` bits whose `k`-th is `val[len-1-k]` (00_scope R12). -/
def bitsOf (len val : Nat) : Code := (List.range len).map fun k => val.testBit (len - 1 - k)

/-- The 256 symbol values, ascending (00_scope R8). Irreducible, so that no proof unrolls it. -/
@[irreducible] def symbols : List Nat := List.range 256

/-- A CodeTable: the length and the value of the code of each symbol 0 to 255, length 0 for no
entry (30_encoding R100). -/
abbrev CodeTable := List (Nat × Nat)

/-- The length and value a table gives a symbol (30_encoding R100). -/
def entryOf (table : CodeTable) (sym : Nat) : Nat × Nat := table.getD sym (0, 0)

/-- The code a table gives a symbol (10_state R39). -/
def codeOf (table : CodeTable) (sym : Nat) : Code :=
  bitsOf (entryOf table sym).1 (entryOf table sym).2

/-- The CodeTable held in `CLEN` and `CVAL`, bits of `CVAL` above the length ignored (10_state
R39, 42_huffman_decoder R182). -/
def State.codeTable (s : State) : CodeTable :=
  symbols.map fun sym =>
    ((s.clen.read sym).toNat, (s.cval.read sym).toNat % 2 ^ (s.clen.read sym).toNat)

/-- `BITS[0..n-1]` as a bit sequence (10_state R40). -/
def State.stream (s : State) (n : Nat) : Code := (s.bits.readUpTo n).map fun b => b.getLsbD 0

/-- The bits of a sequence as elements of `BITS` (10_state R40). -/
def bitElements (c : Code) : List (BitVec 1) := c.map BitVec.ofBool

end Sys2Proof.Machine
end

