-- ==== Sys2Proof/Machine/Float.lean ====
section
/-! DEFINITION. The format `FLT` at its default, IEEE 754 binary64, as far as the rules use it
(00_scope R16, 30_encoding R102, 43_block_transform R201, R206, R211). -/

namespace Sys2Proof.Machine

/-- Bit 63, the sign (30_encoding R102). -/
def fltNegative (x : Flt) : Bool := x.getLsbD 63

/-- Bits 62:52, the biased exponent (30_encoding R102). -/
def fltExponent (x : Flt) : Nat := (x.extractLsb' 52 11).toNat

/-- Bits 51:0, the fraction (30_encoding R102). -/
def fltFraction (x : Flt) : Nat := (x.extractLsb' 0 52).toNat

/-- Bits 62:0 as a number, which orders the magnitudes of two values that are not NaN. -/
def fltMagnitude (x : Flt) : Nat := (x.extractLsb' 0 63).toNat

/-- Not a number: all exponent bits set and a fraction that is not zero. -/
def fltIsNaN (x : Flt) : Bool := fltExponent x == 2047 && fltFraction x != 0

/-- An infinity: all exponent bits set and a zero fraction. -/
def fltIsInf (x : Flt) : Bool := fltExponent x == 2047 && fltFraction x == 0

/-- A number that is neither infinite nor NaN. -/
def fltIsFinite (x : Flt) : Bool := fltExponent x != 2047

/-- The place of a value that is not NaN in the format's order; both zeros are at 0. -/
def fltKey (x : Flt) : Int :=
  if fltNegative x then -(fltMagnitude x : Int) else (fltMagnitude x : Int)

/-- `x < y`, the ordered comparison, false when either is NaN (00_scope R16). -/
def fltLt (x y : Flt) : Bool :=
  !fltIsNaN x && !fltIsNaN y && decide (fltKey x < fltKey y)

/-- `fabs(x)`, the magnitude (00_scope R16): the sign bit cleared. -/
def fltAbs (x : Flt) : Flt := x &&& 0x7FFFFFFFFFFFFFFF

/-- `+0.0` (30_encoding R102). -/
def fltZero : Flt := 0

/-- `flt(n)` of an integer below `2^53`, exactly (00_scope R16). -/
def fltOfNat (n : Nat) : Flt :=
  if n = 0 then fltZero
  else BitVec.ofNat 64 ((1023 + n.log2) * 2 ^ 52 + (n - 2 ^ n.log2) * 2 ^ (52 - n.log2))

/-- `flt` of a sample (43_block_transform R201). -/
def fltOfByte (b : Byte) : Flt := fltOfNat b.toNat

/-- The significand of a finite value: the fraction, with the hidden bit of a normal number. -/
def fltSignificand (x : Flt) : Nat :=
  if fltExponent x = 0 then fltFraction x else 2 ^ 52 + fltFraction x

/-- A finite value exactly, as a multiple of `2^-1074`, the smallest positive one. -/
def fltFixed (x : Flt) : Int :=
  let m := fltSignificand x * 2 ^ (fltExponent x - 1)
  if fltNegative x then -(m : Int) else (m : Int)

/-- `m / d` rounded to the nearest natural, ties to even (43_block_transform R211). -/
def roundNearestEven (m d : Nat) : Nat :=
  let quotient := m / d
  let rest := m % d
  if 2 * rest > d ∨ (2 * rest = d ∧ quotient % 2 = 1) then quotient + 1 else quotient

/-- The default of `round8`: round a finite value to the nearest integer, ties to even
(43_block_transform R211, log 9). -/
def fltRoundNearestEven (x : Flt) : Int :=
  let n := roundNearestEven (fltFixed x).natAbs (2 ^ 1074)
  if fltNegative x then -(n : Int) else (n : Int)

end Sys2Proof.Machine
end

