-- ==== Sys2Proof/Machine/Format.lean ====
section
/-! DEFINITION. IEEE 754 binary64, the default of the parameter `FLT` (00_scope R8), with the laws that
make it a format, and those that make its rounding a `round8` (43_block_transform R211). -/

namespace Sys2Proof.Machine

/-- The exponent and the fraction are the high and the low part of the magnitude's bits. -/
theorem fltExponent_eq (x : Flt) : fltExponent x = fltMagnitude x / 2 ^ 52 := by
  have := x.isLt
  simp only [fltExponent, fltMagnitude, BitVec.extractLsb'_toNat, Nat.shiftRight_eq_div_pow]
  omega

theorem fltFraction_eq (x : Flt) : fltFraction x = fltMagnitude x % 2 ^ 52 := by
  have := x.isLt
  simp only [fltFraction, fltMagnitude, BitVec.extractLsb'_toNat, Nat.shiftRight_eq_div_pow]
  omega

theorem fltMagnitude_lt (x : Flt) : fltMagnitude x < 2 ^ 63 := by
  simp only [fltMagnitude]; exact BitVec.isLt _

/-- The magnitude of a finite value, as a multiple of `2^-1074`, from the magnitude's bits. -/
def fixedMagnitude (m : Nat) : Nat :=
  (if m / 2 ^ 52 = 0 then m % 2 ^ 52 else 2 ^ 52 + m % 2 ^ 52) * 2 ^ (m / 2 ^ 52 - 1)

theorem fltFixed_eq (x : Flt) : fltFixed x =
    if fltNegative x then -(fixedMagnitude (fltMagnitude x) : Int)
    else (fixedMagnitude (fltMagnitude x) : Int) := by
  simp only [fltFixed, fltSignificand, fixedMagnitude, fltExponent_eq, fltFraction_eq]

/-- The order of the bits is the order of the magnitudes. -/
theorem fixedMagnitude_lt {m n : Nat} (h : m < n) : fixedMagnitude m < fixedMagnitude n := by
  have hr := Nat.mod_lt m (show 0 < 2 ^ 52 by decide)
  have hs := Nat.mod_lt n (show 0 < 2 ^ 52 by decide)
  have hm := Nat.div_add_mod m (2 ^ 52)
  have hn := Nat.div_add_mod n (2 ^ 52)
  unfold fixedMagnitude
  generalize m / 2 ^ 52 = e, m % 2 ^ 52 = r, n / 2 ^ 52 = f, n % 2 ^ 52 = s at *
  rcases Nat.lt_trichotomy e f with hef | rfl | hef
  · have hf : f ≠ 0 := by omega
    rw [if_neg hf]
    have hp : 2 ^ (f - 1) = 2 ^ (f - 1 - (e - 1)) * 2 ^ (e - 1) := by
      rw [← Nat.pow_add]; congr 1; omega
    have h1 : 1 ≤ 2 ^ (f - 1 - (e - 1)) := Nat.one_le_two_pow
    have h0 : 0 < 2 ^ (e - 1) := Nat.two_pow_pos _
    rw [hp, ← Nat.mul_assoc]
    apply Nat.mul_lt_mul_of_pos_right _ h0
    by_cases he : e = 0
    · rw [if_pos he]
      calc r < 2 ^ 52 + s := by omega
        _ = (2 ^ 52 + s) * 1 := by omega
        _ ≤ _ := Nat.mul_le_mul_left _ h1
    · rw [if_neg he]
      have h2 : 2 ≤ 2 ^ (f - 1 - (e - 1)) := by
        calc 2 = 2 ^ 1 := rfl
          _ ≤ _ := Nat.pow_le_pow_right (by decide) (by omega)
      calc 2 ^ 52 + r < (2 ^ 52 + s) * 2 := by omega
        _ ≤ _ := Nat.mul_le_mul_left _ h2
  · have : r < s := by omega
    apply Nat.mul_lt_mul_of_pos_right _ (Nat.two_pow_pos _)
    split <;> omega
  · omega

theorem fixedMagnitude_lt_iff {m n : Nat} : fixedMagnitude m < fixedMagnitude n ↔ m < n := by
  constructor
  · intro h
    by_contra hc
    rcases Nat.lt_or_eq_of_le (Nat.not_lt.mp hc) with h1 | h1
    · exact absurd (fixedMagnitude_lt h1) (by omega)
    · subst h1; omega
  · exact fixedMagnitude_lt

/-- The order of the keys is the order of the values. -/
theorem fltFixed_lt_iff (x y : Flt) : fltFixed x < fltFixed y ↔ fltKey x < fltKey y := by
  have h1 := @fixedMagnitude_lt_iff (fltMagnitude x) (fltMagnitude y)
  have h2 := @fixedMagnitude_lt_iff (fltMagnitude y) (fltMagnitude x)
  have h3 := @fixedMagnitude_lt_iff 0 (fltMagnitude x)
  have h4 := @fixedMagnitude_lt_iff 0 (fltMagnitude y)
  have h0 : fixedMagnitude 0 = 0 := by decide
  rw [fltFixed_eq, fltFixed_eq]
  unfold fltKey
  split <;> split <;> omega

theorem fltMagnitude_abs (x : Flt) : fltMagnitude (fltAbs x) = fltMagnitude x := by
  unfold fltMagnitude fltAbs
  congr 1
  apply BitVec.eq_of_getLsbD_eq
  intro i hi
  have hc : (0x7FFFFFFFFFFFFFFF : BitVec 64).getLsbD i = true := by
    have : (0x7FFFFFFFFFFFFFFF : BitVec 64) = BitVec.ofNat 64 (2 ^ 63 - 1) := rfl
    rw [this, BitVec.getLsbD_ofNat, Nat.testBit_two_pow_sub_one]
    simp; omega
  simp only [BitVec.getLsbD_extractLsb', BitVec.getLsbD_and, Nat.zero_add, hc, Bool.and_true]

theorem fltNegative_abs (x : Flt) : fltNegative (fltAbs x) = false := by
  unfold fltNegative fltAbs
  rw [BitVec.getLsbD_and]
  have : (0x7FFFFFFFFFFFFFFF : BitVec 64).getLsbD 63 = false := by decide
  rw [this, Bool.and_false]

theorem fltIsNaN_abs (x : Flt) : fltIsNaN (fltAbs x) = fltIsNaN x := by
  simp only [fltIsNaN, fltExponent_eq, fltFraction_eq, fltMagnitude_abs]

theorem fltIsInf_abs (x : Flt) : fltIsInf (fltAbs x) = fltIsInf x := by
  simp only [fltIsInf, fltExponent_eq, fltFraction_eq, fltMagnitude_abs]

theorem fltFixed_abs (x : Flt) : fltFixed (fltAbs x) = |fltFixed x| := by
  rw [fltFixed_eq, fltFixed_eq, fltNegative_abs, fltMagnitude_abs]
  rw [if_neg Bool.false_ne_true]
  split
  · rw [abs_neg, Nat.abs_cast]
  · rw [Nat.abs_cast]

/-- The bits of an infinity. -/
theorem fltMagnitude_of_isInf {x : Flt} (h : fltIsInf x = true) : fltMagnitude x = 2047 * 2 ^ 52 := by
  have hd := Nat.div_add_mod (fltMagnitude x) (2 ^ 52)
  simp only [fltIsInf, fltExponent_eq, fltFraction_eq, Bool.and_eq_true, beq_iff_eq] at h
  omega

/-- The bits of a finite value are below those of an infinity. -/
theorem fltMagnitude_of_finite {x : Flt} (hn : fltIsNaN x = false) (hi : fltIsInf x = false) :
    fltMagnitude x < 2047 * 2 ^ 52 := by
  have hl := fltMagnitude_lt x
  have hd := Nat.div_add_mod (fltMagnitude x) (2 ^ 52)
  simp only [fltIsNaN, fltIsInf, fltExponent_eq, fltFraction_eq, Bool.and_eq_false_iff,
    beq_eq_false_iff_ne, bne_eq_false_iff_eq] at hn hi
  omega

theorem fltIsNaN_of_isInf {x : Flt} (h : fltIsInf x = true) : fltIsNaN x = false := by
  simp only [fltIsInf, Bool.and_eq_true, beq_iff_eq] at h
  simp [fltIsNaN, h.2]

theorem fltLt_of_ordered {x y : Flt} (hx : fltIsNaN x = false) (hy : fltIsNaN y = false) :
    fltLt x y = decide (fltKey x < fltKey y) := by
  simp [fltLt, hx, hy]

/-- IEEE 754 binary64 as a format (00_scope R8, R16; 30_encoding R102; log 6). -/
def binary64 : FltFormat where
  width := 64
  width_range := by decide
  isNaN := fltIsNaN
  isInf := fltIsInf
  isNegative := fltNegative
  zero := fltZero
  ofByte := fltOfByte
  abs := fltAbs
  lt := fltLt
  unit := 2 ^ 1074
  scaled := fltFixed
  unit_pos := Nat.two_pow_pos _
  zero_fits := BitVec.isLt _
  zero_value := by decide
  byte_fits := fun _ => BitVec.isLt _
  exact_byte := by decide +kernel
  lt_nan := fun x y h => by rcases h with h | h <;> simp [fltLt, h]
  lt_finite := fun x y hx _ hy _ => by
    rw [fltLt_of_ordered hx hy, fltFixed_lt_iff, decide_eq_true_iff]
  lt_inf := fun x y hx hi hy => by
    have h1 := fltMagnitude_of_finite hx hi
    have h2 := fltMagnitude_of_isInf hy
    rw [fltLt_of_ordered hx (fltIsNaN_of_isInf hy)]
    unfold fltKey
    cases fltNegative x <;> cases fltNegative y <;> simp <;> omega
  inf_lt := fun x y hx hy hi => by
    have h1 := fltMagnitude_of_finite hy hi
    have h2 := fltMagnitude_of_isInf hx
    rw [fltLt_of_ordered (fltIsNaN_of_isInf hx) hy]
    unfold fltKey
    cases fltNegative x <;> cases fltNegative y <;> simp <;> omega
  inf_lt_inf := fun x y hx hy => by
    have h1 := fltMagnitude_of_isInf hx
    have h2 := fltMagnitude_of_isInf hy
    rw [fltLt_of_ordered (fltIsNaN_of_isInf hx) (fltIsNaN_of_isInf hy)]
    unfold fltKey
    cases fltNegative x <;> cases fltNegative y <;> simp [h1, h2]
  abs_finite := fun x hx hi => ⟨by rw [fltIsNaN_abs, hx], by rw [fltIsInf_abs, hi], fltFixed_abs x⟩
  abs_inf := fun x hx => ⟨by rw [fltIsInf_abs, hx], fltNegative_abs x⟩
  abs_nan := fltIsNaN_abs

/-- Every word is a pattern of binary64. -/
theorem binary64_pattern (v : Flt) : binary64.pattern v = v := by
  show (v.setWidth 64).setWidth 64 = v
  simp

/-- Rounding to nearest is monotone. -/
theorem roundNearestEven_mono {m n : Nat} (d : Nat) (h : m ≤ n) :
    roundNearestEven m d ≤ roundNearestEven n d := by
  have hm := Nat.div_add_mod m d
  have hn := Nat.div_add_mod n d
  have hq : m / d ≤ n / d := Nat.div_le_div_right h
  unfold roundNearestEven
  dsimp only
  rcases Nat.lt_or_eq_of_le hq with hlt | heq
  · split <;> split <;> omega
  · rw [heq] at hm ⊢
    have hr : m % d ≤ n % d := by omega
    split <;> split <;> omega

/-- Rounding leaves whole multiples unchanged. -/
theorem roundNearestEven_mul {d : Nat} (hd : 0 < d) (n : Nat) : roundNearestEven (n * d) d = n := by
  simp only [roundNearestEven, Nat.mul_mod_left, Nat.mul_div_cancel n hd]
  rw [if_neg (by omega)]

theorem fltRoundNearestEven_mono (x y : Flt) (h : fltFixed x ≤ fltFixed y) :
    fltRoundNearestEven x ≤ fltRoundNearestEven y := by
  have hx := fltFixed_eq x
  have hy := fltFixed_eq y
  have h0 : roundNearestEven 0 (2 ^ 1074) = 0 := by
    simpa using roundNearestEven_mul (Nat.two_pow_pos 1074) 0
  unfold fltRoundNearestEven
  dsimp only
  cases hnx : fltNegative x <;> cases hny : fltNegative y <;>
    simp only [hnx, hny, if_true, if_false, Bool.false_eq_true] at hx hy ⊢
  · have := roundNearestEven_mono (2 ^ 1074)
      (show (fltFixed x).natAbs ≤ (fltFixed y).natAbs by omega)
    omega
  · have h1 : (fltFixed x).natAbs = 0 := by omega
    have h2 : (fltFixed y).natAbs = 0 := by omega
    rw [h1, h2, h0]; decide
  · omega
  · have := roundNearestEven_mono (2 ^ 1074)
      (show (fltFixed y).natAbs ≤ (fltFixed x).natAbs by omega)
    omega

theorem fltRoundNearestEven_integer (x : Flt) (n : Int) (h : fltFixed x = n * (2 ^ 1074 : Nat)) :
    fltRoundNearestEven x = n := by
  have hx := fltFixed_eq x
  have ha : (fltFixed x).natAbs = n.natAbs * 2 ^ 1074 := by rw [h, Int.natAbs_mul, Int.natAbs_natCast]
  unfold fltRoundNearestEven
  dsimp only
  rw [ha, roundNearestEven_mul (Nat.two_pow_pos 1074)]
  have hp : (0 : Int) < (2 ^ 1074 : Nat) := Int.natCast_pos.mpr (Nat.two_pow_pos _)
  generalize ((2 ^ 1074 : Nat) : Int) = u at h hp
  cases hnx : fltNegative x <;> simp only [hnx, if_true, if_false, Bool.false_eq_true] at hx ⊢
  · have : 0 ≤ n := by
      by_contra hc
      have : n * u < 0 := Int.mul_neg_of_neg_of_pos (by omega) hp
      omega
    omega
  · have : n ≤ 0 := by
      by_contra hc
      have : 0 < n * u := Int.mul_pos (by omega) hp
      omega
    omega

end Sys2Proof.Machine
end

