-- ==== Sys2Proof/Machine/Reference.lean ====
section
/-! DEFINITION. The reference kernels in binary64, to which the spec's vectors are computed: the
subband pair of 44_wavelet_transform R232, and the block pair of 43_block_transform R203 for every
edge. They are general knowledge, not rules of the machine: `exec` uses none of them (logs 7, 8). The
block pair over the reals is in RealReference.lean. -/

namespace Sys2Proof.Machine

/-- The value nearest to `z * 2^-1074`, ties to even; a magnitude beyond the largest finite value
gives an infinity. -/
def fltOfFixed (z : Int) : Flt :=
  let n := z.natAbs
  let shift := n.log2 - 52
  let pattern := min (shift * 2 ^ 52 + roundNearestEven n (2 ^ shift)) (2047 * 2 ^ 52)
  BitVec.ofNat 64 (if z < 0 then 2 ^ 63 + pattern else pattern)

/-- A NaN, the result of an operation on NaN or of infinities that cancel. -/
def fltNaN : Flt := 0x7FF8000000000000

/-- The sum of two values, rounded to nearest even. -/
def fltAdd (x y : Flt) : Flt :=
  if fltIsNaN x || fltIsNaN y then fltNaN
  else if fltIsInf x then (if fltIsInf y && fltNegative x != fltNegative y then fltNaN else x)
  else if fltIsInf y then y
  else if fltMagnitude x = 0 ∧ fltMagnitude y = 0 then x &&& y
  else fltOfFixed (fltFixed x + fltFixed y)

/-- The value with its sign turned. -/
def fltNeg (x : Flt) : Flt := x ^^^ 0x8000000000000000

/-- The difference of two values. -/
def fltSub (x y : Flt) : Flt := fltAdd x (fltNeg y)

/-- Half of a value, rounded to nearest even. -/
def fltHalf (x : Flt) : Flt :=
  if fltIsFinite x = false ∨ fltMagnitude x = 0 then x
  else
    let n := roundNearestEven (fltFixed x).natAbs 2
    if fltNegative x then fltNeg (fltOfFixed n) else fltOfFixed n

/-- The reference `haar_fwd`; the reference `haar_inv` has the same formulas
(44_wavelet_transform R232). Sums are formed from left to right. -/
def referenceHaar (a b c d : Flt) : Flt × Flt × Flt × Flt :=
  (fltHalf (fltAdd (fltAdd (fltAdd a b) c) d),
   fltHalf (fltSub (fltSub (fltAdd a b) c) d),
   fltHalf (fltSub (fltAdd (fltSub a b) c) d),
   fltHalf (fltAdd (fltSub (fltSub a b) c) d))

/-- The fixed point the block kernels are evaluated in: 1 is `2^128` (log 8). -/
def fixedOne : Nat := 2 ^ 128

/-- Pi in fixed point, to its last bit. -/
def fixedPi : Nat := 0x3243F6A8885A308D313198A2E03707344

/-- The square root of 2 in fixed point. -/
def fixedRootTwo : Nat := Nat.sqrt (2 * fixedOne * fixedOne)

/-- The cosine series from its `m`-th term on, given that term and the square of the angle. -/
def cosineSeries (square : Int) : (terms : Nat) → (m : Nat) → (term : Int) → Int
  | 0, _, _ => 0
  | terms + 1, m, term =>
    term + cosineSeries square terms (m + 1)
      (-(term * square / (fixedOne * ((2 * m + 1) * (2 * m + 2)) : Nat)))

/-- `cos(k pi / (2n))` for `k` up to `n`, the first quadrant. -/
def quadrantCosine (n k : Nat) : Int :=
  if k = n then 0
  else
    let angle := fixedPi * k / (2 * n)
    cosineSeries ((angle * angle / fixedOne : Nat) : Int) 40 0 fixedOne

/-- `cos(k pi / (2n))` for every `k`, by the symmetries of the cosine. -/
def fixedCosine (n k : Nat) : Int :=
  let r := k % (4 * n)
  let folded := if r ≤ 2 * n then r else 4 * n - r
  if folded ≤ n then quadrantCosine n folded else -quadrantCosine n (2 * n - folded)

/-- `a(k) sqrt(n) cos((2j+1) k pi / (2n))`, with 1 at `2^256` (43_block_transform R203). -/
def fixedBasis (n k j : Nat) : Int :=
  ((if k = 0 then fixedOne else fixedRootTwo : Nat) : Int) * fixedCosine n ((2 * j + 1) * k)

/-- The sum of the products of two lists. -/
def dotProduct : List Int → List Int → Int
  | x :: xs, y :: ys => x * y + dotProduct xs ys
  | _, _ => 0

/-- `(1/n) * sum over i, j of left[i] * right[j] * block[i*n + j]`, rounded to a value; of a block that
holds an infinity or a NaN the result is NaN. -/
def blockSum (n : Nat) (block : List Flt) (left right : List Int) : Flt :=
  if block.all fltIsFinite then
    let rows := (List.range n).map fun i =>
      dotProduct ((block.drop (i * n)).map fltFixed) right
    let sum := dotProduct left rows
    let magnitude := roundNearestEven sum.natAbs (n * fixedOne ^ 4)
    fltOfFixed (if sum < 0 then -(magnitude : Int) else (magnitude : Int))
  else fltNaN

/-- The reference `dct_fwd` (43_block_transform R203): `DCT_N` of the block, evaluated in fixed point
and rounded once. For edge 1 it is the identity (R214). -/
def referenceDctFwd (n : Nat) (block : List Flt) (u v : Nat) : Flt :=
  if n = 1 then block.getD 0 fltZero
  else blockSum n block ((List.range n).map fun x => fixedBasis n u x)
    ((List.range n).map fun y => fixedBasis n v y)

/-- The reference `dct_inv` (43_block_transform R203): `IDCT_N` of the block. -/
def referenceDctInv (n : Nat) (block : List Flt) (x y : Nat) : Flt :=
  if n = 1 then block.getD 0 fltZero
  else blockSum n block ((List.range n).map fun u => fixedBasis n u x)
    ((List.range n).map fun v => fixedBasis n v y)

end Sys2Proof.Machine
end

