-- ==== Sys2Proof/Machine/Params.lean ====
section
/-! DEFINITION. The parameters at their defaults (00_scope R8). -/

namespace Sys2Proof.Machine

/-- The configuration `exec` and `step` run at: every parameter that has a default at its default, the
kernels open (00_scope R8, logs 5, 7, 9). -/
def machineConfig : Config where
  maxLen := 2 ^ 32 - 1
  maxBits := 2 ^ 40 - 1
  blkMax := 64
  maxLen_range := by decide
  maxBits_range := by decide
  blkMax_range := by decide
  flt := binary64
  dctFwd := Config.openDctFwd
  dctInv := Config.openDctInv
  haarFwd := Config.openHaarFwd
  haarInv := Config.openHaarInv
  dctFwd_pattern := fun _ _ _ _ => binary64_pattern _
  haarFwd_pattern := fun _ _ _ _ => by simp only [binary64_pattern]
  round8 := fltRoundNearestEven
  round8_monotone := fun x y _ _ h => fltRoundNearestEven_mono x y h
  round8_integer := fun x n _ h => fltRoundNearestEven_integer x n h

/-- The same parameters with the reference kernels, for the spec's vectors (95_test_vectors, log 8). -/
def referenceConfig : Config :=
  { machineConfig with
    dctFwd := referenceDctFwd
    dctInv := referenceDctInv
    haarFwd := referenceHaar
    haarInv := referenceHaar
    dctFwd_pattern := fun _ _ _ _ => binary64_pattern _
    haarFwd_pattern := fun _ _ _ _ => by
      show (binary64.pattern _, binary64.pattern _, binary64.pattern _, binary64.pattern _) = _
      simp only [binary64_pattern] }

end Sys2Proof.Machine
end

