-- ==== Sys2Proof/Syntax.lean ====
section
/-! DEFINITION. The eleven commands (30_encoding R93), one constructor per row of the opcode table. -/

namespace Sys2Proof

/-- A command. No command carries an operand field (30_encoding R90, R92). -/
inductive Instr where
  /-- `RLEENC`, 40_rle R121. -/
  | rleenc
  /-- `RLEDEC`, 40_rle R126. -/
  | rledec
  /-- `HFREQ`, 41_huffman_encoder R141. -/
  | hfreq
  /-- `HTREE`, 41_huffman_encoder R145. -/
  | htree
  /-- `HCODES`, 41_huffman_encoder R154. -/
  | hcodes
  /-- `HENC`, 41_huffman_encoder R161. -/
  | henc
  /-- `HDEC`, 42_huffman_decoder R181. -/
  | hdec
  /-- `XFWD.DCT`, 43_block_transform R205. -/
  | xfwdDct
  /-- `XINV.DCT`, 43_block_transform R210. -/
  | xinvDct
  /-- `XFWD.HAAR`, 44_wavelet_transform R234. -/
  | xfwdHaar
  /-- `XINV.HAAR`, 44_wavelet_transform R236. -/
  | xinvHaar
  deriving DecidableEq, Repr

end Sys2Proof
end

