-- ==== Sys2Proof/Machine/Ops.lean ====
section
/-! DEFINITION. The named operations over the state: the writes of each command's outputs (10_state
R49), the draws of free values (70_reset_and_hazards R304), the failure entry (60_exceptions R257)
and the return from it (R259), and the end of a command (30_encoding R96). -/

namespace Sys2Proof.Machine

/-- `n div 8`, rounded up: how many bytes hold `n` bits (20_memory R64). -/
def bytesOfBits (n : Nat) : Nat := (n + 7) / 8

/-- The number of elements of each space as the host counts them: `BITS` in bytes (20_memory R60). -/
def spaceSize (c : Config) : SpaceId → Nat
  | .pix => c.maxLen
  | .runs => c.maxLen
  | .freq => 256
  | .tree => 511
  | .clen => 256
  | .cval => 256
  | .bits => bytesOfBits c.maxBits
  | .coef => c.maxLen
  | .suba => c.maxLen / 4
  | .subh => c.maxLen / 4
  | .subv => c.maxLen / 4
  | .subd => c.maxLen / 4

/-- The canonical form of all data spaces (log 3). -/
def Memory.wf (s : State) : Bool :=
  s.pix.wf && s.runs.wf && s.freq.wf && s.tree.wf && s.clen.wf && s.cval.wf && s.bits.wf &&
    s.coef.wf && s.suba.wf && s.subh.wf && s.subv.wf && s.subd.wf

/-- No data space lists an element it does not have (20_memory R66). The last byte of `BITS`
counts whole (log 16). -/
def Memory.inBounds (c : Config) (s : State) : Bool :=
  s.pix.within (spaceSize c .pix) && s.runs.within (spaceSize c .runs) &&
    s.freq.within (spaceSize c .freq) && s.tree.within (spaceSize c .tree) &&
    s.clen.within (spaceSize c .clen) && s.cval.within (spaceSize c .cval) &&
    s.bits.within (8 * spaceSize c .bits) && s.coef.within (spaceSize c .coef) &&
    s.suba.within (spaceSize c .suba) && s.subh.within (spaceSize c .subh) &&
    s.subv.within (spaceSize c .subv) && s.subd.within (spaceSize c .subd)

/-- `PIX[0..] <- samples` (10_state R36). -/
def State.putPix (samples : List Byte) (s : State) : State :=
  { s with pix := s.pix.writeFrom 0 samples }

/-- `RUNS[0..NRUNS-1]` and `NRUNS` (10_state R27, R41). -/
def State.putRuns (runs : List Run) (s : State) : State :=
  { s with
    nruns := BitVec.ofNat 32 runs.length
    runs := s.runs.writeFrom 0 (runs.map Run.pack) }

/-- `FREQ[0..255]` (10_state R37). -/
def State.putFreq (count : Nat → Nat) (s : State) : State :=
  { s with freq := s.freq.writeFrom 0 (symbols.map fun sym => BitVec.ofNat 32 (count sym)) }

/-- `TREE[0..NNODES-1]`, `NNODES` and `ROOT`, the root being the last node made (10_state R29, R30,
R38; 41_huffman_encoder R149, R150). -/
def State.putTree (nodes : List Node) (s : State) : State :=
  { s with
    nnodes := BitVec.ofNat 10 nodes.length
    root := BitVec.ofNat 9 (nodes.length - 1)
    tree := s.tree.writeFrom 0 (nodes.map Node.pack) }

/-- `NNODES <- 0; ROOT <- 0`: no tree (10_state R29, R30). -/
def State.dropTree (s : State) : State := { s with nnodes := 0, root := 0 }

/-- `CLEN[0..255]` and `CVAL[0..255]` (10_state R39). -/
def State.putCodes (table : CodeTable) (s : State) : State :=
  { s with
    clen := s.clen.writeFrom 0 (symbols.map fun sym => BitVec.ofNat 8 (entryOf table sym).1)
    cval := s.cval.writeFrom 0 (symbols.map fun sym => BitVec.ofNat 256 (entryOf table sym).2) }

/-- The bitstream, zero up to the end of its last byte, and `BITLEN` (10_state R28, R40;
41_huffman_encoder R163, R164). -/
def State.putBits (stream : Code) (s : State) : State :=
  { s with
    bitlen := BitVec.ofNat 40 stream.length
    bits := s.bits.writeFrom 0 (bitElements
      (stream ++ List.replicate (8 * bytesOfBits stream.length - stream.length) false)) }

/-- `COEF[0..] <- coefficients` (10_state R42). -/
def State.putCoef (coefficients : List Flt) (s : State) : State :=
  { s with coef := s.coef.writeFrom 0 coefficients }

/-- `SUBA`, `SUBH`, `SUBV`, `SUBD` from index 0 on, one quadruple an index (10_state R43). -/
def State.putSubbands (cells : List (Flt × Flt × Flt × Flt)) (s : State) : State :=
  { s with
    suba := s.suba.writeFrom 0 (cells.map fun t => t.1)
    subh := s.subh.writeFrom 0 (cells.map fun t => t.2.1)
    subv := s.subv.writeFrom 0 (cells.map fun t => t.2.2.1)
    subd := s.subd.writeFrom 0 (cells.map fun t => t.2.2.2) }

/-- The next draw is another free value (log 3). -/
def State.tick (s : State) : State := { s with draws := s.draws + 1 }

/-- Every element of `PIX` becomes unspecified (00_scope R15). -/
def State.drawPix (s : State) : State := { s with pix := Space.fresh s.draws, draws := s.draws + 1 }

/-- Every element of `RUNS` becomes unspecified (00_scope R15). -/
def State.drawRuns (s : State) : State :=
  { s with runs := Space.fresh s.draws, draws := s.draws + 1 }

/-- Every element of `FREQ` becomes unspecified (00_scope R15). -/
def State.drawFreq (s : State) : State :=
  { s with freq := Space.fresh s.draws, draws := s.draws + 1 }

/-- Every element of `TREE` becomes unspecified (00_scope R15). -/
def State.drawTree (s : State) : State :=
  { s with tree := Space.fresh s.draws, draws := s.draws + 1 }

/-- Every element of `CLEN` and of `CVAL` becomes unspecified (00_scope R15). -/
def State.drawCodes (s : State) : State :=
  { s with clen := Space.fresh s.draws, cval := Space.fresh (s.draws + 1), draws := s.draws + 2 }

/-- Every element of `BITS` becomes unspecified (00_scope R15). -/
def State.drawBits (s : State) : State :=
  { s with bits := Space.fresh s.draws, draws := s.draws + 1 }

/-- Every element of `COEF` becomes unspecified (00_scope R15). -/
def State.drawCoef (s : State) : State :=
  { s with coef := Space.fresh s.draws, draws := s.draws + 1 }

/-- Every element of the four subband spaces becomes unspecified (00_scope R15). -/
def State.drawSubbands (s : State) : State :=
  { s with
    suba := Space.fresh s.draws
    subh := Space.fresh (s.draws + 1)
    subv := Space.fresh (s.draws + 2)
    subd := Space.fresh (s.draws + 3)
    draws := s.draws + 4 }

/-- What a failure does to the outputs of a command: the registers of its "registers written"
column become 0, the spaces of its "spaces written" column unspecified (60_exceptions R257,
10_state R49). An illegal word has no row. -/
def failureOutputs (command : Option Instr) (s : State) : State :=
  match command with
  | none => s
  | some .rleenc => { s.drawRuns with nruns := 0 }
  | some .rledec => s.drawPix
  | some .hfreq => s.drawFreq
  | some .htree => s.drawTree.dropTree
  | some .hcodes => s.drawCodes
  | some .henc => { s.drawCodes.drawBits.drawFreq.drawTree.dropTree with bitlen := 0 }
  | some .hdec => s.drawPix
  | some .xfwdDct => s.drawCoef
  | some .xinvDct => s.drawPix
  | some .xfwdHaar => s.drawSubbands
  | some .xinvHaar => s.drawPix

/-- `FailureEntry(c, K)`, the engine's one exception entry (60_exceptions R257): the outputs as
`failureOutputs`, the kind in `ERRCODE`, `ERR`, `BUSY` and `DONE`; nothing else changes. -/
def failureEntry (command : Option Instr) (kind : FailureKind) (s : State) : State :=
  (failureOutputs command s).fail kind

/-- The return from a failure: there is no command for it; the host acknowledges by writing 1 to
`DONE` (60_exceptions R259, the `ACK` line of 30_encoding R104). `ERR` and `ERRCODE` stay. -/
def State.acknowledge (s : State) : State := s.writeStatus 2

/-- The end of a command's step: the writes of a success and the completion, or the failure entry
on the state at issue (30_encoding R96, R97). -/
def conclude (command : Instr) (s : State) (result : Except FailureKind State) :
    Host.Outcome State Fault Refusal :=
  .next (match result with
    | .ok t => t.complete
    | .error kind => failureEntry (some command) kind s)

/-- The step of an illegal word: the failure `IllegalCommand` with no outputs (60_exceptions R254). -/
def illegalCommand (s : State) : State := failureEntry none .illegalCommand s

end Sys2Proof.Machine
end

