-- ==== Sys2Proof/Machine/BlockTransform.lean ====
section
/-! DEFINITION. The block transform commands (43_block_transform) and the conversion of a value to a
sample that both transforms share (R211). -/

namespace Sys2Proof.Machine

/-- `sat8(x)`: round with `round8`, clamp to `0..255`; infinities saturate; of a NaN the sample is
the free value given (43_block_transform R211, log 10). -/
def sat8 (c : Config) (unspecified : Byte) (x : Flt) : Byte :=
  if c.flt.isNaN x then unspecified
  else if c.flt.isInf x then (if c.flt.isNegative x then 0 else 255)
  else BitVec.ofNat 8 (min 255 (max 0 (c.round8 x))).toNat

/-- The free value of the sample at an index that is the `sat8` of a NaN (70_reset_and_hazards R304). -/
def State.nanSample (s : State) (i : Nat) : Byte := Config.freeBits 8 s.draws i

/-- `quant(c, q)`: `+0.0` when the magnitude is below the threshold, else unchanged
(43_block_transform R206). -/
def quant (f : FltFormat) (coefficient threshold : Flt) : Flt :=
  if f.lt (f.abs coefficient) threshold then f.zero else coefficient

/-- `ShapeCheckDCT` fails (43_block_transform R204). -/
def badBlockShape (c : Config) (s : State) : Bool :=
  decide (s.blk.toNat = 0) || decide (c.blkMax < s.blk.toNat) ||
    decide (s.w.toNat < s.blk.toNat) || decide (s.h.toNat < s.blk.toNat)

/-- The sample at an index lies in a full block (43_block_transform R202). -/
def State.inFullBlock (s : State) (i : Nat) : Bool :=
  let n := s.blk.toNat
  decide (i / s.w.toNat < s.h.toNat / n * n) && decide (i % s.w.toNat < s.w.toNat / n * n)

/-- The index of sample `(x, y)` of block `(bi, bj)` (20_memory R77, block sample). -/
def State.blockIndex (s : State) (bi bj x y : Nat) : Nat :=
  (bi * s.blk.toNat + x) * s.w.toNat + (bj * s.blk.toNat + y)

/-- Block `(bi, bj)` of a buffer, row-major (43_block_transform R205, R210). -/
def State.block (s : State) (value : Nat → Flt) (bi bj : Nat) : List Flt :=
  let n := s.blk.toNat
  (List.range (n * n)).map fun k => value (s.blockIndex bi bj (k / n) (k % n))

/-- The kernel's value for the sample at an index of a full block: the block it lies in and its
place in it (43_block_transform R202). -/
def State.blockValue (s : State) (kernel : Nat → List Flt → Nat → Nat → Flt) (value : Nat → Flt)
    (i : Nat) : Flt :=
  let n := s.blk.toNat
  let r := i / s.w.toNat
  let col := i % s.w.toNat
  kernel n (s.block value (r / n) (col / n)) (r % n) (col % n)

/-- `COEF[i]` after `XFWD.DCT` (43_block_transform R205, R206, R208). -/
def State.forwardDct (c : Config) (s : State) (i : Nat) : Flt :=
  let value := fun k => c.flt.ofByte (s.pix.read k)
  if s.inFullBlock i then quant c.flt (s.blockValue c.dctFwd value i) (c.flt.pattern s.q)
  else value i

/-- `PIX[i]` after `XINV.DCT` (43_block_transform R210, R211). -/
def State.inverseDct (c : Config) (s : State) (i : Nat) : Byte :=
  let value := s.coef.readFlt c.flt
  sat8 c (s.nanSample i) (if s.inFullBlock i then s.blockValue c.dctInv value i else value i)

/-- `XFWD.DCT`'s checks and writes (43_block_transform R205). -/
def xfwdDct (c : Config) (s : State) : Except FailureKind State :=
  if s.len > c.maxLen then .error .capacityExceeded
  else if badBlockShape c s then .error .unsupportedBlockShape
  else .ok (s.putCoef ((List.range s.len).map (s.forwardDct c)))

/-- `XFWD.DCT` (43_block_transform R205). -/
def execXfwdDct (s : State) : Host.Outcome State Fault Refusal :=
  conclude .xfwdDct s (xfwdDct machineConfig s)

/-- `XINV.DCT`'s checks and writes (43_block_transform R210). -/
def xinvDct (c : Config) (s : State) : Except FailureKind State :=
  if s.len > c.maxLen then .error .capacityExceeded
  else if badBlockShape c s then .error .unsupportedBlockShape
  else .ok (s.putPix ((List.range s.len).map (s.inverseDct c))).tick

/-- `XINV.DCT` (43_block_transform R210). -/
def execXinvDct (s : State) : Host.Outcome State Fault Refusal :=
  conclude .xinvDct s (xinvDct machineConfig s)

end Sys2Proof.Machine
end

