-- ==== Sys2Proof/Machine/HuffmanDecoder.lean ====
section
/-! DEFINITION. The Huffman decoder command (42_huffman_decoder). -/

namespace Sys2Proof.Machine

/-- `match(acc)`: the smallest symbol whose known code equals the candidate (42_huffman_decoder
R182, R184). -/
def matchSymbol (table : CodeTable) (acc : Code) : Option Nat :=
  symbols.find? fun sym =>
    decide (1 ≤ (entryOf table sym).1) && (entryOf table sym).1 == acc.length &&
      (entryOf table sym).2 == codeValue acc

/-- The scan, bit by bit: the symbols emitted and the candidate still pending at the end, given the
candidate so far (42_huffman_decoder R181, R183). -/
def scanBits (table : CodeTable) : (acc : Code) → Code → List Byte × Code
  | acc, [] => ([], acc)
  | acc, b :: rest =>
    match matchSymbol table (acc ++ [b]) with
    | some sym =>
      let r := scanBits table [] rest
      (BitVec.ofNat 8 sym :: r.1, r.2)
    | none => scanBits table (acc ++ [b]) rest

/-- `HDEC`'s checks and writes (42_huffman_decoder R181, R185). -/
def hdec (c : Config) (s : State) : Except FailureKind State :=
  if s.len > c.maxLen ∨ s.bitlen.toNat > c.maxBits then .error .capacityExceeded
  else
    let out := scanBits s.codeTable [] (s.stream s.bitlen.toNat)
    if out.2 ≠ [] then .error .invalidBitstream
    else if out.1.length ≠ s.len then .error .invalidBitstream
    else .ok (s.putPix out.1)

/-- `HDEC` (42_huffman_decoder R181). -/
def execHdec (s : State) : Host.Outcome State Fault Refusal :=
  conclude .hdec s (hdec machineConfig s)

end Sys2Proof.Machine
end

