-- ==== Sys2Proof/Machine/HuffmanEncoder.lean ====
section
/-! DEFINITION. The Huffman encoder commands (41_huffman_encoder): frequency analysis, tree
construction, code assignment, bitstream write. -/

namespace Sys2Proof.Machine

/-- How often a symbol occurs among the samples (41_huffman_encoder R141). -/
def occurrences (samples : List Byte) (sym : Nat) : Nat :=
  samples.countP fun x => x.toNat == sym

/-- `HFREQ`'s check and writes (41_huffman_encoder R141). -/
def hfreq (c : Config) (s : State) : Except FailureKind State :=
  if s.len > c.maxLen then .error .capacityExceeded
  else .ok (s.putFreq (occurrences s.samples))

/-- `HFREQ` (41_huffman_encoder R141). -/
def execHfreq (s : State) : Host.Outcome State Fault Refusal :=
  conclude .hfreq s (hfreq machineConfig s)

/-- The present symbols, ascending (41_huffman_encoder R146). -/
def presentSymbols (count : Nat → Nat) : List Nat :=
  symbols.filter fun sym => decide (0 < count sym)

/-- The leaf of a symbol (41_huffman_encoder R147). -/
def leafNode (count : Nat → Nat) (sym : Nat) : Node :=
  ⟨true, BitVec.ofNat 8 sym, BitVec.ofNat 40 (count sym), nilIndex, nilIndex⟩

/-- The frequency of the node at an index. -/
def freqAt (nodes : List Node) (k : Nat) : Nat := (nodes.getD k blankNode).freq.toNat

/-- `a` comes before `b`: the smaller frequency, then the earlier insertion (41_huffman_encoder
R151). -/
def comesBefore (nodes : List Node) (a b : Nat) : Bool :=
  decide (freqAt nodes a < freqAt nodes b) || (freqAt nodes a == freqAt nodes b && decide (a < b))

/-- `least(pool)`, given the best index so far (41_huffman_encoder R151). -/
def leastFrom (nodes : List Node) (best : Nat) : List Nat → Nat
  | [] => best
  | k :: rest => leastFrom nodes (if comesBefore nodes k best then k else best) rest

/-- `least(pool)` (41_huffman_encoder R151). -/
def least (nodes : List Node) : List Nat → Nat
  | [] => 0
  | k :: rest => leastFrom nodes k rest

/-- The node that merges `a`, removed first, and `b`, removed second (41_huffman_encoder R148). -/
def mergedNode (nodes : List Node) (a b : Nat) : Node :=
  ⟨false, 0, BitVec.ofNat 40 (freqAt nodes a + freqAt nodes b), BitVec.ofNat 9 a, BitVec.ofNat 9 b⟩

/-- The merge loop: `passes` times, remove the two least of the pool and insert their merged node
at the next free index (41_huffman_encoder R145, R148). -/
def mergeLoop : (passes : Nat) → List Node → (pool : List Nat) → List Node
  | 0, nodes, _ => nodes
  | passes + 1, nodes, pool =>
    let a := least nodes pool
    let pool₁ := pool.erase a
    let b := least nodes pool₁
    let pool₂ := pool₁.erase b
    mergeLoop passes (nodes ++ [mergedNode nodes a b]) (pool₂ ++ [nodes.length])

/-- The root of the one-symbol tree: its left child is node 0 (41_huffman_encoder R150). -/
def oneSymbolRoot (leaf : Node) : Node := ⟨false, 0, leaf.freq, 0, nilIndex⟩

/-- The nodes of the tree in index order, the root last (41_huffman_encoder R145 to R150); none for
the empty table. -/
def buildTree (count : Nat → Nat) : List Node :=
  let leaves := (presentSymbols count).map (leafNode count)
  match leaves with
  | [] => []
  | [leaf] => [leaf, oneSymbolRoot leaf]
  | _ => mergeLoop (leaves.length - 1) leaves (List.range leaves.length)

/-- `HTREE`'s check and writes (41_huffman_encoder R145, R146). -/
def htree (s : State) : Except FailureKind State :=
  if presentSymbols s.count = [] then .error .emptyInput
  else .ok (s.putTree (buildTree s.count))

/-- `HTREE` (41_huffman_encoder R145). -/
def execHtree (s : State) : Host.Outcome State Fault Refusal := conclude .htree s (htree s)

/-- The leaves below node `k`, each with its path: left appends 0, right 1 (41_huffman_encoder
R154, R155). `depth` bounds the descent; a tree of `n` nodes needs at most `n` (log 19). -/
def leafCodes (node : Nat → Node) : (depth : Nat) → (k : Nat) → (path : Code) → List (Nat × Code)
  | 0, _, _ => []
  | depth + 1, k, path =>
    let n := node k
    if n.leaf then [(n.sym.toNat, path)]
    else
      (if n.left = nilIndex then [] else leafCodes node depth n.left.toNat (path ++ [false])) ++
      (if n.right = nilIndex then [] else leafCodes node depth n.right.toNat (path ++ [true]))

/-- The CodeTable of a list of symbols with their codes; no code is length 0, value 0
(41_huffman_encoder R154, R159). -/
def tableOf (codes : List (Nat × Code)) : CodeTable :=
  symbols.map fun sym =>
    match codes.find? fun e => e.1 == sym with
    | some e => (e.2.length, codeValue e.2)
    | none => (0, 0)

/-- The CodeTable of a tree of `size` nodes with this root (41_huffman_encoder R154). -/
def treeTable (node : Nat → Node) (size root : Nat) : CodeTable :=
  tableOf (leafCodes node size root [])

/-- `HCODES`'s check and writes (41_huffman_encoder R154, R159). -/
def hcodes (s : State) : Except FailureKind State :=
  if s.nnodes = 0 then .error .emptyInput
  else .ok (s.putCodes (treeTable s.node s.nnodes.toNat s.root.toNat))

/-- `HCODES` (41_huffman_encoder R154). -/
def execHcodes (s : State) : Host.Outcome State Fault Refusal := conclude .hcodes s (hcodes s)

/-- The CodeTable `HENC` derives from the samples: the three stages in turn (41_huffman_encoder
R161). -/
def sampleTable (samples : List Byte) : CodeTable :=
  let nodes := buildTree (occurrences samples)
  treeTable (fun k => nodes.getD k blankNode) nodes.length (nodes.length - 1)

/-- The codes of the samples, concatenated in buffer order (41_huffman_encoder R163). -/
def bitstream (table : CodeTable) (samples : List Byte) : Code :=
  samples.flatMap fun x => codeOf table x.toNat

/-- The length of the bitstream, from the table alone (41_huffman_encoder R161, R165). -/
def streamLength (table : CodeTable) (samples : List Byte) : Nat :=
  (samples.map fun x => (entryOf table x.toNat).1).sum

/-- `HENC`'s checks and writes; `FREQ` and `TREE` are unspecified after it (41_huffman_encoder R161,
R166). -/
def henc (c : Config) (s : State) : Except FailureKind State :=
  if s.len > c.maxLen then .error .capacityExceeded
  else if presentSymbols (occurrences s.samples) = [] then .error .emptyInput
  else
    let table := sampleTable s.samples
    if streamLength table s.samples > c.maxBits then .error .capacityExceeded
    else .ok ((s.putCodes table).putBits (bitstream table s.samples)).dropTree.drawFreq.drawTree

/-- `HENC` (41_huffman_encoder R161). -/
def execHenc (s : State) : Host.Outcome State Fault Refusal :=
  conclude .henc s (henc machineConfig s)

end Sys2Proof.Machine
end

