-- ==== Sys2Proof/Machine/Rle.lean ====
section
/-! DEFINITION. The run-length commands (40_rle). -/

namespace Sys2Proof.Machine

/-- The runs of a scan that stands in a run of `cur`, `cnt` samples long so far (40_rle R121). -/
def runsFrom (cur : Byte) (cnt : Nat) : List Byte → List Run
  | [] => [⟨cur, BitVec.ofNat 32 cnt⟩]
  | x :: rest =>
    if x = cur then runsFrom cur (cnt + 1) rest
    else ⟨cur, BitVec.ofNat 32 cnt⟩ :: runsFrom x 1 rest

/-- The RunList of a buffer, the first sample seeding the first run (40_rle R121). -/
def runsOf : List Byte → List Run
  | [] => []
  | x :: rest => runsFrom x 1 rest

/-- `RLEENC`'s checks and writes (40_rle R121). -/
def rleenc (c : Config) (s : State) : Except FailureKind State :=
  if s.len > c.maxLen then .error .capacityExceeded
  else if s.len = 0 then .error .emptyInput
  else .ok (s.putRuns (runsOf s.samples))

/-- `RLEENC` (40_rle R121). -/
def execRleenc (s : State) : Host.Outcome State Fault Refusal :=
  conclude .rleenc s (rleenc machineConfig s)

/-- `RUNS[0..NRUNS-1]` (10_state R41). -/
def State.runList (s : State) : List Run := (s.runs.readUpTo s.nruns.toNat).map Run.unpack

/-- The sum of the counts, exact (40_rle R126). -/
def totalCount (runs : List Run) : Nat := (runs.map fun r => r.count.toNat).sum

/-- Each run's value, `count` times, in order (40_rle R126). -/
def expand (runs : List Run) : List Byte :=
  runs.flatMap fun r => List.replicate r.count.toNat r.value

/-- `RLEDEC`'s checks and writes (40_rle R126). -/
def rledec (c : Config) (s : State) : Except FailureKind State :=
  if s.len > c.maxLen ∨ s.nruns.toNat > c.maxLen then .error .capacityExceeded
  else if totalCount s.runList ≠ s.len then .error .shapeMismatch
  else .ok (s.putPix (expand s.runList))

/-- `RLEDEC` (40_rle R126). -/
def execRledec (s : State) : Host.Outcome State Fault Refusal :=
  conclude .rledec s (rledec machineConfig s)

end Sys2Proof.Machine
end

