-- ==== Sys2Proof/Machine/Wavelet.lean ====
section
/-! DEFINITION. The wavelet transform commands (44_wavelet_transform). -/

namespace Sys2Proof.Machine

/-- `ShapeCheckHAAR` fails (44_wavelet_transform R233). -/
def badCellShape (s : State) : Bool :=
  decide (s.w.toNat < 2) || decide (s.h.toNat < 2) ||
    decide (s.w.toNat % 2 = 1) || decide (s.h.toNat % 2 = 1)

/-- The index of sample `(2i + x, 2j + y)` of the cell whose subband element is `k`
(44_wavelet_transform R231). -/
def State.cellIndex (s : State) (k x y : Nat) : Nat :=
  let half := s.w.toNat / 2
  (2 * (k / half) + x) * s.w.toNat + (2 * (k % half) + y)

/-- The four coefficients of the cell at subband element `k` (44_wavelet_transform R234). -/
def State.forwardCell (c : Config) (s : State) (k : Nat) : Flt × Flt × Flt × Flt :=
  let value := fun x y => c.flt.ofByte (s.pix.read (s.cellIndex k x y))
  c.haarFwd (value 0 0) (value 0 1) (value 1 0) (value 1 1)

/-- The subband element of the cell a sample lies in (44_wavelet_transform R231). -/
def State.cellOf (s : State) (i : Nat) : Nat :=
  (i / s.w.toNat / 2) * (s.w.toNat / 2) + i % s.w.toNat / 2

/-- The four reconstructed values of the cell at subband element `k` (44_wavelet_transform R236). -/
def State.inverseCell (c : Config) (s : State) (k : Nat) : Flt × Flt × Flt × Flt :=
  c.haarInv (s.suba.readFlt c.flt k) (s.subh.readFlt c.flt k) (s.subv.readFlt c.flt k)
    (s.subd.readFlt c.flt k)

/-- The component of a cell for a sample in its row `x` and column `y` (44_wavelet_transform
R231). -/
def cellComponent (t : Flt × Flt × Flt × Flt) (x y : Nat) : Flt :=
  if x = 0 then (if y = 0 then t.1 else t.2.1) else (if y = 0 then t.2.2.1 else t.2.2.2)

/-- `PIX[i]` after `XINV.HAAR` (44_wavelet_transform R236). -/
def State.inverseHaar (c : Config) (s : State) (i : Nat) : Byte :=
  sat8 c (s.nanSample i)
    (cellComponent (s.inverseCell c (s.cellOf i)) (i / s.w.toNat % 2) (i % s.w.toNat % 2))

/-- `XFWD.HAAR`'s checks and writes (44_wavelet_transform R234). -/
def xfwdHaar (c : Config) (s : State) : Except FailureKind State :=
  if s.len > c.maxLen then .error .capacityExceeded
  else if badCellShape s then .error .unsupportedBlockShape
  else .ok (s.putSubbands ((List.range (s.len / 4)).map (s.forwardCell c)))

/-- `XFWD.HAAR` (44_wavelet_transform R234). -/
def execXfwdHaar (s : State) : Host.Outcome State Fault Refusal :=
  conclude .xfwdHaar s (xfwdHaar machineConfig s)

/-- `XINV.HAAR`'s checks and writes (44_wavelet_transform R236). -/
def xinvHaar (c : Config) (s : State) : Except FailureKind State :=
  if s.len > c.maxLen then .error .capacityExceeded
  else if badCellShape s then .error .unsupportedBlockShape
  else .ok (s.putPix ((List.range s.len).map (s.inverseHaar c))).tick

/-- `XINV.HAAR` (44_wavelet_transform R236). -/
def execXinvHaar (s : State) : Host.Outcome State Fault Refusal :=
  conclude .xinvHaar s (xinvHaar machineConfig s)

end Sys2Proof.Machine
end

