-- ==== Sys2Proof/Machine/Dispatch.lean ====
section
/-! DEFINITION. `Exec(c)` and the end of the step, for each command (30_encoding R96). -/

namespace Sys2Proof.Machine

def exec (i : Instr) (s : State) : Host.Outcome State Fault Refusal :=
  match i with
  | .rleenc => Sys2Proof.Machine.execRleenc s
  | .rledec => Sys2Proof.Machine.execRledec s
  | .hfreq => Sys2Proof.Machine.execHfreq s
  | .htree => Sys2Proof.Machine.execHtree s
  | .hcodes => Sys2Proof.Machine.execHcodes s
  | .henc => Sys2Proof.Machine.execHenc s
  | .hdec => Sys2Proof.Machine.execHdec s
  | .xfwdDct => Sys2Proof.Machine.execXfwdDct s
  | .xinvDct => Sys2Proof.Machine.execXinvDct s
  | .xfwdHaar => Sys2Proof.Machine.execXfwdHaar s
  | .xinvHaar => Sys2Proof.Machine.execXinvHaar s

end Sys2Proof.Machine
end

