-- ==== Sys2Proof/WellFormed.lean ====
section
/-! DEFINITION. The fields of a command word and what makes them a command (30_encoding R91, R94).
A term of `Instr` carries no operand, so every one is well formed; what can be ill formed is the
field triple a word is cut into. -/

namespace Sys2Proof

/-- Format `C`: bits 31:9, bit 8, bits 7:0 (30_encoding R91). -/
structure Fields where
  rsv : BitVec 23
  kind : Bool
  op : Byte
  deriving DecidableEq, Repr

/-- `rsv` must be 0 (30_encoding R91). -/
def Fields.reservedClear (f : Fields) : Bool := f.rsv == 0

/-- The `op` values of the opcode map (30_encoding R93). -/
def listedOps : List Byte := [0x01, 0x02, 0x10, 0x11, 0x12, 0x13, 0x14, 0x20, 0x21]

/-- `op` is one the opcode map lists (30_encoding R94). -/
def Fields.opListed (f : Fields) : Bool := listedOps.contains f.op

/-- `kind` is 0 unless the opcode is `XFWD` or `XINV` (30_encoding R91, R94). -/
def Fields.kindAllowed (f : Fields) : Bool := !f.kind || f.op == 0x20 || f.op == 0x21

/-- The three checks of 30_encoding R94 together. -/
def Fields.wellFormed (f : Fields) : Bool := f.reservedClear && f.opListed && f.kindAllowed

/-- The `op` field of each command (30_encoding R93). -/
def Instr.op : Instr → Byte
  | .rleenc => 0x01
  | .rledec => 0x02
  | .hfreq => 0x10
  | .htree => 0x11
  | .hcodes => 0x12
  | .henc => 0x13
  | .hdec => 0x14
  | .xfwdDct => 0x20
  | .xinvDct => 0x21
  | .xfwdHaar => 0x20
  | .xinvHaar => 0x21

/-- The `kind` field of each command: 1 for the wavelet strategy (30_encoding R91, R93). -/
def Instr.kind : Instr → Bool
  | .rleenc => false
  | .rledec => false
  | .hfreq => false
  | .htree => false
  | .hcodes => false
  | .henc => false
  | .hdec => false
  | .xfwdDct => false
  | .xinvDct => false
  | .xfwdHaar => true
  | .xinvHaar => true

/-- The fields of a command's word: `rsv` is 0 (30_encoding R91). -/
def Instr.fields (i : Instr) : Fields := ⟨0, i.kind, i.op⟩

/-- A command is well formed when its fields are; every one is (30_encoding R92: no operands). -/
def Instr.wellFormed (i : Instr) : Bool := i.fields.wellFormed

end Sys2Proof
end

