-- ==== Sys2Proof/Decode.lean ====
section
/-! DEFINITION. The decoder, total on 32-bit words, and after it the encoder (30_encoding R91 to
R95). -/

namespace Sys2Proof

/-- Why a word is no command (30_encoding R94). Each is executed as the failure `IllegalCommand`
(60_exceptions R254), a next state; safe, since the spec gives it that effect. -/
inductive Illegal where
  /-- Some bit of `rsv` is set. -/
  | reservedBits
  /-- `op` is not in the opcode map. -/
  | unlistedOp
  /-- `kind = 1` with an `op` that is no transform. -/
  | kindNotAllowed
  deriving DecidableEq, Repr

/-- Cuts a command word into its fields (30_encoding R91). -/
def Fields.split (w : CommandWord) : Fields :=
  ⟨w.extractLsb' 9 23, w.getLsbD 8, w.extractLsb' 0 8⟩

/-- Puts the fields back at their places (30_encoding R91). -/
def Fields.join (f : Fields) : CommandWord := f.rsv ++ (BitVec.ofBool f.kind ++ f.op)

/-- The command of a well-formed triple (the opcode map, 30_encoding R93), or why there is none. -/
def decodeFields (f : Fields) : Except Illegal Instr :=
  if f.reservedClear = false then .error .reservedBits
  else if f.opListed = false then .error .unlistedOp
  else if f.kindAllowed = false then .error .kindNotAllowed
  else if f.op = 0x01 then .ok .rleenc
  else if f.op = 0x02 then .ok .rledec
  else if f.op = 0x10 then .ok .hfreq
  else if f.op = 0x11 then .ok .htree
  else if f.op = 0x12 then .ok .hcodes
  else if f.op = 0x13 then .ok .henc
  else if f.op = 0x14 then .ok .hdec
  else if f.op = 0x20 then .ok (if f.kind then .xfwdHaar else .xfwdDct)
  else .ok (if f.kind then .xinvHaar else .xinvDct)

/-- `decode(w)` of the engine's step (30_encoding R94, R96): every word is one of the eleven
commands or illegal. -/
def decode (w : CommandWord) : Except Illegal Instr := decodeFields (Fields.split w)

/-- The word of a command (30_encoding R93). -/
def encode (i : Instr) : CommandWord := i.fields.join

/-- What the decoder reads from an instruction of `nbits` bits numbered as the opcode table numbers
them. A command is one 32-bit word (30_encoding R90), written whole to `CMD`; a value that does not
fit the bits it is said to have is none. -/
def decodeTableWord (nbits w : Nat) : Option Instr :=
  if nbits ≤ 32 ∧ w < 2 ^ nbits then
    match decode (BitVec.ofNat 32 w) with
    | .ok i => some i
    | .error _ => none
  else none

end Sys2Proof
end

