-- ==== Sys2Proof/Machine/HostPort.lean ====
section
/-! DEFINITION. The host port: register and element accesses, their busy and out-of-range rules, and
their form on a byte-addressed bus (10_state R21 to R34; 20_memory R61 to R69; 70_reset_and_hazards
R297 to R300). -/

namespace Sys2Proof.Machine

/-- The width of a register (10_state R21); an index above 11 has none. -/
def registerWidth (c : Config) : Nat → Nat
  | 0 => 32
  | 1 => 4
  | 2 => 3
  | 3 => 1
  | 4 => 32
  | 5 => 32
  | 6 => 8
  | 7 => c.flt.width
  | 8 => 32
  | 9 => 40
  | 10 => 10
  | 11 => 9
  | _ => 0

/-- An operand register, which the running command owns: index 4 to 11 (70_reset_and_hazards R299). -/
def isOperandRegister (index : Nat) : Bool := decide (4 ≤ index) && decide (index ≤ 11)

/-- What a slot reads as while the host may read it: `CMD` and indices above 11 read zero, upper
bits read zero (10_state R21). -/
def State.slot (c : Config) (s : State) : Nat → Slot
  | 1 => s.status.toBits.setWidth 64
  | 2 => s.errcode.setWidth 64
  | 3 => (BitVec.ofBool s.ie).setWidth 64
  | 4 => s.w.setWidth 64
  | 5 => s.h.setWidth 64
  | 6 => s.blk.setWidth 64
  | 7 => c.flt.pattern s.q
  | 8 => s.nruns.setWidth 64
  | 9 => s.bitlen.setWidth 64
  | 10 => s.nnodes.setWidth 64
  | 11 => s.root.setWidth 64
  | _ => 0

/-- A write the engine accepts: bits above the register's width are ignored, and so is a write to a
read-only register or above index 11 (10_state R21, R31 to R34). -/
def State.writeSlot (c : Config) (s : State) (v : Slot) : Nat → State
  | 0 => s.issue (v.setWidth 32)
  | 1 => s.writeStatus v
  | 3 => { s with ie := v.getLsbD 0 }
  | 4 => { s with w := v.setWidth 32 }
  | 5 => { s with h := v.setWidth 32 }
  | 6 => { s with blk := v.setWidth 8 }
  | 7 => { s with q := c.flt.pattern v }
  | 8 => { s with nruns := v.setWidth 32 }
  | 9 => { s with bitlen := v.setWidth 40 }
  | _ => s

/-- What the host reads next becomes this value (log 13). -/
def State.answer (s : State) (v : Wide) : State := { s with busData := v }

/-- A read whose value is unspecified: a draw of this width (70_reset_and_hazards R299, R304). -/
def State.answerUnspecified (s : State) (width : Nat) : State :=
  (s.answer ((Config.freeBits width s.draws 0).setWidth 256)).tick

/-- A host read of a register (10_state R21, 70_reset_and_hazards R299). -/
def hostReadReg (c : Config) (s : State) (index : Nat) : State :=
  if isOperandRegister index && s.status.busy then
    (s.answerUnspecified (registerWidth c index)).setHaz
  else s.answer ((s.slot c index).setWidth 256)

/-- A host write to a register (10_state R21, 70_reset_and_hazards R298, R299). -/
def hostWriteReg (c : Config) (s : State) (index : Nat) (v : Slot) : State :=
  if s.status.busy && (index == 0 || isOperandRegister index) then s.setHaz
  else s.writeSlot c v index

/-- The width of the element the host moves (20_memory R60, R64). -/
def elementWidth (c : Config) : SpaceId → Nat
  | .pix => 8
  | .runs => 40
  | .freq => 32
  | .tree => 67
  | .clen => 8
  | .cval => 256
  | .bits => 8
  | .coef => c.flt.width
  | .suba => c.flt.width
  | .subh => c.flt.width
  | .subv => c.flt.width
  | .subd => c.flt.width

/-- Byte `j` of `BITS`: stream bit `8j` in bit 7 down to stream bit `8j + 7` in bit 0 (20_memory
R64). -/
def State.bitsByte (s : State) (j : Nat) : Byte :=
  BitVec.ofNat 8 (codeValue ((List.range 8).map fun k => (s.bits.read (8 * j + k)).getLsbD 0))

/-- The eight stream bits of a byte, earlier bit first (20_memory R64). -/
def byteBits (v : Byte) : List (BitVec 1) :=
  bitElements ((List.range 8).map fun k => v.getLsbD (7 - k))

/-- `HostRead(space, i)` of an element inside the space (20_memory R61, R64). -/
def State.peek (c : Config) (s : State) (sp : SpaceId) (i : Nat) : Wide :=
  match sp with
  | .pix => (s.pix.read i).setWidth 256
  | .runs => (s.runs.read i).setWidth 256
  | .freq => (s.freq.read i).setWidth 256
  | .tree => (s.tree.read i).setWidth 256
  | .clen => (s.clen.read i).setWidth 256
  | .cval => s.cval.read i
  | .bits => (s.bitsByte i).setWidth 256
  | .coef => (s.coef.readFlt c.flt i).setWidth 256
  | .suba => (s.suba.readFlt c.flt i).setWidth 256
  | .subh => (s.subh.readFlt c.flt i).setWidth 256
  | .subv => (s.subv.readFlt c.flt i).setWidth 256
  | .subd => (s.subd.readFlt c.flt i).setWidth 256

/-- `HostWrite(space, i, v)` of an element inside the space; a write to `TREE` is ignored and sets
`HAZ` (20_memory R61, R62, R64). -/
def State.poke (c : Config) (s : State) (sp : SpaceId) (i : Nat) (v : Wide) : State :=
  match sp with
  | .pix => { s with pix := s.pix.write i (v.setWidth 8) }
  | .runs => { s with runs := s.runs.write i (v.setWidth 40) }
  | .freq => { s with freq := s.freq.write i (v.setWidth 32) }
  | .tree => s.setHaz
  | .clen => { s with clen := s.clen.write i (v.setWidth 8) }
  | .cval => { s with cval := s.cval.write i v }
  | .bits => { s with bits := s.bits.writeFrom (8 * i) (byteBits (v.setWidth 8)) }
  | .coef => { s with coef := s.coef.write i (c.flt.pattern (v.setWidth 64)) }
  | .suba => { s with suba := s.suba.write i (c.flt.pattern (v.setWidth 64)) }
  | .subh => { s with subh := s.subh.write i (c.flt.pattern (v.setWidth 64)) }
  | .subv => { s with subv := s.subv.write i (c.flt.pattern (v.setWidth 64)) }
  | .subd => { s with subd := s.subd.write i (c.flt.pattern (v.setWidth 64)) }

/-- A host read of a data space: zero and `HAZ` outside the space, unspecified and `HAZ` while busy
(20_memory R66; 70_reset_and_hazards R299, R300; log 14). -/
def hostReadSpace (c : Config) (s : State) (sp : SpaceId) (i : Nat) : State :=
  if spaceSize c sp ≤ i then (s.answer 0).setHaz
  else if s.status.busy then (s.answerUnspecified (elementWidth c sp)).setHaz
  else s.answer (s.peek c sp i)

/-- A host write to a data space: ignored, with `HAZ`, outside the space or while busy (20_memory
R62, R66; 70_reset_and_hazards R299, R300). -/
def hostWriteSpace (c : Config) (s : State) (sp : SpaceId) (i : Nat) (v : Wide) : State :=
  if spaceSize c sp ≤ i || s.status.busy then s.setHaz
  else s.poke c sp i v

/-- The bytes a slot or an element occupies on a byte-addressed bus (10_state R21, 20_memory R63,
R65). An `FLT` element occupies its own width; DESIGN CHOICE: where that is no multiple of 8, which the
spec leaves open, it is rounded up to whole bytes, and the element is aligned to that size (log 26). -/
def paddedSize (c : Config) : BusTarget → Nat
  | .registers => 8
  | .space .pix => 1
  | .space .runs => 8
  | .space .freq => 4
  | .space .tree => 16
  | .space .clen => 1
  | .space .cval => 32
  | .space .bits => 1
  | .space _ => (c.flt.width + 7) / 8

/-- The slot or element a bus access covers, if it is exactly one, whole and aligned: index `i` is at
offset `i` times the padded size (20_memory R65, R69). -/
def busIndex (c : Config) (target : BusTarget) (offset size : Nat) : Option Nat :=
  if size = paddedSize c target ∧ offset % paddedSize c target = 0 then
    some (offset / paddedSize c target)
  else none

/-- The number little-endian bytes spell, lowest address first (20_memory R63). -/
def littleEndian (bytes : List Byte) : Nat := bytes.foldr (fun b acc => b.toNat + 256 * acc) 0

/-- The bytes of a value as a bus carries them, lowest address first (20_memory R63). -/
def busBytes (size : Nat) (v : Wide) : List Byte :=
  (List.range size).map fun k => v.extractLsb' (8 * k) 8

/-- A host read of the slot or element at an index. -/
def hostRead (c : Config) (s : State) (target : BusTarget) (i : Nat) : State :=
  match target with
  | .registers => hostReadReg c s i
  | .space sp => hostReadSpace c s sp i

/-- A host write to the slot or element at an index. -/
def hostWrite (c : Config) (s : State) (target : BusTarget) (i : Nat) (v : Wide) : State :=
  match target with
  | .registers => hostWriteReg c s i (v.setWidth 64)
  | .space sp => hostWriteSpace c s sp i v

/-- One host action while the engine is out of reset (70_reset_and_hazards R297); a bus access that
is not one whole aligned element is refused (93_implementation_defined U9). -/
def hostAction (c : Config) (s : State) (action : HostAction) : Host.Outcome State Fault Refusal :=
  match action with
  | .readReg i => .next (hostReadReg c s i)
  | .writeReg i v => .next (hostWriteReg c s i v)
  | .readSpace sp i => .next (hostReadSpace c s sp i)
  | .writeSpace sp i v => .next (hostWriteSpace c s sp i v)
  | .busRead target offset size =>
    match busIndex c target offset size with
    | some i => .next (hostRead c s target i)
    | none => .refused .partialBusAccess
  | .busWrite target offset bytes =>
    match busIndex c target offset bytes.length with
    | some i => .next (hostWrite c s target i (BitVec.ofNat 256 (littleEndian bytes)))
    | none => .refused .partialBusAccess

/-- One host action while reset is asserted: the engine does nothing, so a write has no effect and
a read returns no value it vouches for (70_reset_and_hazards R290, log 17). A bus access that is not one
whole aligned element is refused as at any other time (R306, 93_implementation_defined U9). -/
def hostActionInReset (c : Config) (s : State) (action : HostAction) :
    Host.Outcome State Fault Refusal :=
  match action with
  | .readReg _ => .next (s.answerUnspecified 64)
  | .readSpace sp _ => .next (s.answerUnspecified (elementWidth c sp))
  | .writeReg _ _ => .next s
  | .writeSpace _ _ _ => .next s
  | .busRead target offset size =>
    match busIndex c target offset size with
    | some _ => .next (s.answerUnspecified (8 * size))
    | none => .refused .partialBusAccess
  | .busWrite target offset bytes =>
    match busIndex c target offset bytes.length with
    | some _ => .next s
    | none => .refused .partialBusAccess

/-- The host issues a command: it writes the command's word to `CMD` (30_encoding R104). -/
def commandMove (i : Instr) : Move := .host (.writeReg 0 ((encode i).setWidth 64))

/-- The `ACK` line: the host writes 1 to `DONE` (30_encoding R104). -/
def ackMove : Move := .host (.writeReg 1 2)

end Sys2Proof.Machine
end

