-- ==== Sys2Proof/Machine/Parametric.lean ====
section
/-! DEFINITION. `Exec(c)` and the end of the step at any parameters (00_scope R8, 10_state R50).
`exec` is this at `machineConfig` (`execWith_machineConfig`). -/

namespace Sys2Proof.Machine

/-- `Exec(c)` and the end of the step, with the parameters of the step relation as an argument
(30_encoding R96, 10_state R50). -/
def execWith (c : Config) (i : Instr) (s : State) : Host.Outcome State Fault Refusal :=
  match i with
  | .rleenc => conclude .rleenc s (rleenc c s)
  | .rledec => conclude .rledec s (rledec c s)
  | .hfreq => conclude .hfreq s (hfreq c s)
  | .htree => conclude .htree s (htree s)
  | .hcodes => conclude .hcodes s (hcodes s)
  | .henc => conclude .henc s (henc c s)
  | .hdec => conclude .hdec s (hdec c s)
  | .xfwdDct => conclude .xfwdDct s (xfwdDct c s)
  | .xinvDct => conclude .xinvDct s (xinvDct c s)
  | .xfwdHaar => conclude .xfwdHaar s (xfwdHaar c s)
  | .xinvHaar => conclude .xinvHaar s (xinvHaar c s)

end Sys2Proof.Machine
end

