-- ==== Sys2Proof/Machine/Moves.lean ====
section
/-! DEFINITION. What each move does to the machine: the engine's step (30_encoding R96), a host
action (70_reset_and_hazards R297), the reset input (R290, R291). -/

namespace Sys2Proof.Machine

/-- The engine can step exactly when `BUSY` is 1 and reset is not asserted (30_encoding R96,
70_reset_and_hazards R290). -/
def State.canStep (s : State) : Bool := s.status.busy && !s.inReset

/-- What runs a command: `exec`, or `execWith` at some parameters. -/
abbrev Runner := Instr → State → Host.Outcome State Fault Refusal

/-- `EngineStep`: decode the latched word and run it to its end; an illegal word fails with
`IllegalCommand`; an engine that cannot step keeps its state (30_encoding R96, 60_exceptions R254,
R270). -/
def engineStep (run : Runner) (s : State) : Host.Outcome State Fault Refusal :=
  if s.canStep then
    match decode s.lcmd with
    | .ok i => run i s
    | .error _ => .next (illegalCommand s)
  else .next s

/-- A host action, in or out of reset. -/
def hostMove (c : Config) (s : State) (action : HostAction) : Host.Outcome State Fault Refusal :=
  if s.inReset then hostActionInReset c s action
  else hostAction c s action

/-- Reset is released: the state of 10_state R48 (70_reset_and_hazards R290). Without an asserted
reset nothing is released. -/
def State.release (s : State) : State :=
  if s.inReset then State.afterReset s.draws s.busData s.moves else s

/-- One move of a run (70_reset_and_hazards R296). A `STATUS` write in the same instant as the
engine's step comes first, so that the completion wins (60_exceptions R263). -/
def runMove (c : Config) (run : Runner) (s : State) (m : Move) : Host.Outcome State Fault Refusal :=
  match m with
  | .engine => engineStep run s
  | .host action => hostMove c s action
  | .engineWithStatusWrite v => engineStep run (if s.inReset then s else s.writeStatus v)
  | .assertReset => .next { s with inReset := true }
  | .releaseReset => .next s.release

/-- The next thing that happens: the first of the moves, and with none left the engine's own step
(log 1). -/
def nextEvent (c : Config) (run : Runner) (s : State) : Host.Outcome State Fault Refusal :=
  match s.moves with
  | [] => engineStep run s
  | m :: rest => runMove c run { s with moves := rest } m

/-- The step relation with its parameters as an argument (00_scope R8, 10_state R50). They do not
change while the engine runs. -/
def stepWith (c : Config) (s : State) : Host.Outcome State Fault Refusal :=
  nextEvent c (execWith c) s

/-- The state in which this word has been issued and the engine's step comes next (log 2). -/
def State.issued (s : State) (word : CommandWord) : State :=
  { s.issue word with inReset := false, moves := [] }

end Sys2Proof.Machine
end

