-- ==== Sys2Proof/Machine/Step.lean ====
section
/-! DEFINITION. One step of the machine (30_encoding R96, 70_reset_and_hazards R296). -/

namespace Sys2Proof.Machine

/-- One step at the default parameters: the next event of the run. It is `stepWith machineConfig`
(`stepWith_machineConfig`). -/
def step (s : State) : Host.Outcome State Fault Refusal := nextEvent machineConfig exec s

/-- The state with this command word where the engine takes its next command from: latched, issued,
nothing else coming first (10_state R22, R31, log 2). -/
def State.withFetchWord (s : State) (nbits w : Nat) : State :=
  s.issued (BitVec.ofNat 32 (w % 2 ^ nbits))

end Sys2Proof.Machine
end

