-- ==== Sys2Proof/Safety.lean ====
section
/-! DEFINITION. What the statements speak of: the laws a state keeps (10_state R32, R33, R44; log 3),
the laws of a tree and its paths (41_huffman_encoder R152, R155), and the properties assumed of the
kernels (43_block_transform R203; 44_wavelet_transform R232). What is assumed of `FLT` and of `round8`
(00_scope R16, 43_block_transform R211) are laws of `FltFormat` and `Config`. -/

namespace Sys2Proof.Machine

/-- The laws of `STATUS` and `ERRCODE` (10_state R32, R33; 60_exceptions R250): `BUSY` and `DONE`
are never both 1, `ERR` is 1 exactly while `ERRCODE` holds a code, code 7 is never produced, and a
busy engine has reported no failure. -/
abbrev State.statusLaws (s : State) : Prop :=
  ¬(s.status.busy = true ∧ s.status.done = true) ∧ (s.status.err = true ↔ s.errcode ≠ 0) ∧
    s.errcode ≠ 7 ∧ (s.status.busy = true → s.status.err = false)

/-- Every data space is in canonical form and lists nothing outside its bounds (20_memory R66, log 3). -/
abbrev State.memoryLaws (s : State) : Prop :=
  Memory.wf s = true ∧ Memory.inBounds machineConfig s = true

/-- The draw that made each data space's unlisted elements unspecified. -/
def State.epochs (s : State) : List Nat :=
  [s.pix.epoch, s.runs.epoch, s.freq.epoch, s.tree.epoch, s.clen.epoch, s.cval.epoch,
    s.bits.epoch, s.coef.epoch, s.suba.epoch, s.subh.epoch, s.subv.epoch, s.subd.epoch]

/-- No two data spaces share a draw, and the next draw is new (log 3). -/
abbrev State.drawLaws (s : State) : Prop := s.epochs.Nodup ∧ ∀ e ∈ s.epochs, e < s.draws

/-- The number of leaves of a tree of `size` nodes (41_huffman_encoder R149, R150). -/
def leafCount (size : Nat) : Nat := (size + 1) / 2

/-- The children of a node (10_state R38). -/
def childrenOf (n : Node) : List Nat :=
  if n.leaf then []
  else (if n.left = nilIndex then [] else [n.left.toNat]) ++
    (if n.right = nilIndex then [] else [n.right.toNat])

/-- The laws of a HuffmanTree in nodes `0 .. size-1` (41_huffman_encoder R152). -/
structure TreeLaws (node : Nat → Node) (size root : Nat) : Prop where
  /-- `NNODES` is 2 or an odd number from 3 to 511 (10_state R29). -/
  size_legal : size = 2 ∨ 3 ≤ size ∧ size ≤ 511 ∧ size % 2 = 1
  /-- `ROOT = NNODES - 1` (10_state R30). -/
  root_last : root + 1 = size
  /-- (a) The leaves come first. -/
  leaves_first : ∀ k < size, (node k).leaf = decide (k < leafCount size)
  /-- (a) A leaf has no child and a symbol that occurs. -/
  leaf_fields : ∀ k < leafCount size,
    (node k).left = nilIndex ∧ (node k).right = nilIndex ∧ 0 < (node k).freq.toNat
  /-- (a) Leaves are in ascending order of symbol. -/
  symbols_ascend : ∀ j k, j < k → k < leafCount size → (node j).sym.toNat < (node k).sym.toNat
  /-- (a) An internal node carries no symbol. -/
  internal_sym : ∀ k, leafCount size ≤ k → k < size → (node k).sym = 0
  /-- (b) An internal node's frequency is the sum of its children's. -/
  freq_sum : ∀ k, leafCount size ≤ k → k < size →
    (node k).freq.toNat = ((childrenOf (node k)).map fun c => (node c).freq.toNat).sum
  /-- (c) Every node but the root is a child exactly once. -/
  one_parent : ((List.range size).flatMap fun k => childrenOf (node k)).Perm (List.range root)
  /-- (d) A child's index is smaller than its parent's. -/
  child_smaller : ∀ k < size, ∀ c ∈ childrenOf (node k), c < k
  /-- (f) Two children, but for the root of a one-symbol tree, which has a left child only. -/
  child_count : ∀ k, leafCount size ≤ k → k < size →
    (node k).left ≠ nilIndex ∧ ((node k).right = nilIndex ↔ size = 2)

/-- The tree invariant (10_state R44): no tree and `ROOT = 0`, or a lawful tree. -/
def State.treeLaws (s : State) : Prop :=
  (s.nnodes = 0 → s.root = 0) ∧
    (s.nnodes ≠ 0 → TreeLaws s.node s.nnodes.toNat s.root.toNat)

/-- `path(k)`: a node with the steps from the root to it (41_huffman_encoder R155). -/
inductive Path (node : Nat → Node) (root : Nat) : Nat → Code → Prop where
  /-- `path(ROOT) = ""`. -/
  | here : Path node root root []
  /-- Descending left appends 0. -/
  | left {p : Nat} {code : Code} (h : Path node root p code) (internal : (node p).leaf = false)
      (child : (node p).left ≠ nilIndex) : Path node root (node p).left.toNat (code ++ [false])
  /-- Descending right appends 1. -/
  | right {p : Nat} {code : Code} (h : Path node root p code) (internal : (node p).leaf = false)
      (child : (node p).right ≠ nilIndex) : Path node root (node p).right.toNat (code ++ [true])

/-- No known code of a table is a prefix of another's (41_huffman_encoder R157). -/
def PrefixFree (table : CodeTable) : Prop :=
  ∀ a < 256, ∀ b < 256, a ≠ b → 1 ≤ (entryOf table a).1 → 1 ≤ (entryOf table b).1 →
    ¬ codeOf table a <+: codeOf table b

/-- The mean absolute difference of the pairs is at most `num / den`. -/
def meanDifferenceAtMost (num den : Nat) (pairs : List (Byte × Byte)) : Prop :=
  den * (pairs.map fun p => ((p.1.toNat : Int) - p.2.toNat).natAbs).sum ≤ num * pairs.length

/-- The samples of a block after the forward and the inverse kernel; `free` gives the sample of a
NaN (43_block_transform R203). -/
def blockThroughKernels (c : Config) (n : Nat) (block : List Byte) (free : Nat → Byte) : List Byte :=
  let coefficients := (List.range (n * n)).map fun k =>
    c.dctFwd n (block.map c.flt.ofByte) (k / n) (k % n)
  (List.range (n * n)).map fun k => sat8 c (free k) (c.dctInv n coefficients (k / n) (k % n))

/-- `K_RT(TOL)` with `TOL = num / den` (43_block_transform R203). -/
def BlockRoundTrip (c : Config) (num den : Nat) : Prop :=
  ∀ n, 1 ≤ n → n ≤ c.blkMax → ∀ block : List Byte, block.length = n * n → ∀ free : Nat → Byte,
    meanDifferenceAtMost num den (block.zip (blockThroughKernels c n block free))

/-- `H_RT(TOL)` with `TOL = num / den` (44_wavelet_transform R232). -/
def CellRoundTrip (c : Config) (num den : Nat) : Prop :=
  ∀ a b d e : Byte, ∀ free : Nat → Byte,
    let f := c.haarFwd (c.flt.ofByte a) (c.flt.ofByte b) (c.flt.ofByte d) (c.flt.ofByte e)
    let r := c.haarInv f.1 f.2.1 f.2.2.1 f.2.2.2
    meanDifferenceAtMost num den
      [(a, sat8 c (free 0) r.1), (b, sat8 c (free 1) r.2.1), (d, sat8 c (free 2) r.2.2.1),
        (e, sat8 c (free 3) r.2.2.2)]

end Sys2Proof.Machine
end

