-- ==== Sys2Proof/Certificates/Slice0/Obligations.lean ====
section
/-! DEFINITION. The statements about the machine, from the rules of spec/. -/

open Sys2Proof Sys2Proof.Machine

/-! ### Encoding and the step -/

/-- The eleven words of 30_encoding R93. -/
def Obligations.CommandWordsDecode : Prop :=
  decode 0x00000001 = .ok .rleenc ∧ decode 0x00000002 = .ok .rledec ∧
  decode 0x00000010 = .ok .hfreq ∧ decode 0x00000011 = .ok .htree ∧
  decode 0x00000012 = .ok .hcodes ∧ decode 0x00000013 = .ok .henc ∧
  decode 0x00000014 = .ok .hdec ∧ decode 0x00000020 = .ok .xfwdDct ∧
  decode 0x00000021 = .ok .xinvDct ∧ decode 0x00000120 = .ok .xfwdHaar ∧
  decode 0x00000121 = .ok .xinvHaar

/-- 30_encoding R93: these eleven words, matched whole, are the only commands; and the encoder gives
each command its own word. -/
def Obligations.DecodeAgreesWithEncode : Prop :=
  ∀ (w : CommandWord) (i : Instr),
    (decode w = .ok i ↔ (w, i) ∈ ([(0x00000001, .rleenc), (0x00000002, .rledec),
      (0x00000010, .hfreq), (0x00000011, .htree), (0x00000012, .hcodes), (0x00000013, .henc),
      (0x00000014, .hdec), (0x00000020, .xfwdDct), (0x00000021, .xinvDct),
      (0x00000120, .xfwdHaar), (0x00000121, .xinvHaar)] : List (CommandWord × Instr))) ∧
    (decode w = .ok i ↔ w = encode i)

/-- 30_encoding R96, 60_exceptions R270: a busy engine out of reset runs the latched command, when its
step is next, and an engine with `BUSY` 0 does nothing. At any parameters the step relation runs the
parametric execution (10_state R50), and `exec` is that at the defaults. -/
def Obligations.StepRunsTheDecodedCommand : Prop :=
  (∀ (s : State) (i : Instr), s.status.busy = true → s.inReset = false → decode s.lcmd = .ok i →
    (s.moves = [] → step s = exec i s ∧ ∀ c, stepWith c s = execWith c i s) ∧
    (∀ rest, s.moves = .engine :: rest → step s = exec i { s with moves := rest } ∧
      ∀ c, stepWith c s = execWith c i { s with moves := rest })) ∧
  (∀ s : State, s.status.busy = false → s.inReset = false →
    (s.moves = [] → step s = .next s) ∧
    (∀ rest, s.moves = .engine :: rest → step s = .next { s with moves := rest })) ∧
  (∀ (i : Instr) (s : State), execWith machineConfig i s = exec i s)

/-- 60_exceptions R254: a word that is no command's fails with `IllegalCommand` and changes nothing
else. -/
def Obligations.IllegalWordFails : Prop :=
  ∀ s : State, s.status.busy = true → s.inReset = false → s.moves = [] →
    (∀ i, s.lcmd ≠ encode i) →
    step s = .next { s with
      status := ⟨false, true, true, s.status.haz⟩
      errcode := 6 }

/-! ### Reset -/

/-- 10_state R48: the registers after reset, and no data space element holds a value. `LCMD` is left
out: the spec does not specify it (log 4). -/
def Obligations.ResetState : Prop :=
  State.reset.status = ⟨false, false, false, false⟩ ∧ State.reset.errcode = 0 ∧
  State.reset.ie = false ∧ State.reset.w = 0 ∧ State.reset.h = 0 ∧ State.reset.blk = 8 ∧
  State.reset.q = 0 ∧ State.reset.nruns = 0 ∧ State.reset.bitlen = 0 ∧
  State.reset.nnodes = 0 ∧ State.reset.root = 0 ∧ State.reset.irq = false ∧
  State.reset.pix.cells = [] ∧ State.reset.runs.cells = [] ∧ State.reset.freq.cells = [] ∧
  State.reset.tree.cells = [] ∧ State.reset.clen.cells = [] ∧ State.reset.cval.cells = [] ∧
  State.reset.bits.cells = [] ∧ State.reset.coef.cells = [] ∧ State.reset.suba.cells = [] ∧
  State.reset.subh.cells = [] ∧ State.reset.subv.cells = [] ∧ State.reset.subd.cells = []

/-- 70_reset_and_hazards R290, R291: when reset is released, whatever was going on, the machine is
idle, every register has its reset value and every data space is unspecified. -/
def Obligations.ReleaseGivesTheResetState : Prop :=
  ∀ (s : State) (rest : List Move), s.inReset = true → s.moves = .releaseReset :: rest →
    ∃ t, step s = .next t ∧ t.inReset = false ∧ t.moves = rest ∧
      t.status = ⟨false, false, false, false⟩ ∧ t.errcode = 0 ∧ t.ie = false ∧
      t.w = 0 ∧ t.h = 0 ∧ t.blk = 8 ∧ t.q = 0 ∧ t.nruns = 0 ∧ t.bitlen = 0 ∧ t.nnodes = 0 ∧
      t.root = 0 ∧ t.irq = false ∧
      t.pix.cells = [] ∧ t.runs.cells = [] ∧ t.freq.cells = [] ∧ t.tree.cells = [] ∧
      t.clen.cells = [] ∧ t.cval.cells = [] ∧ t.bits.cells = [] ∧ t.coef.cells = [] ∧
      t.suba.cells = [] ∧ t.subh.cells = [] ∧ t.subv.cells = [] ∧ t.subd.cells = []

/-- 70_reset_and_hazards R290, R291: asserting reset, at any time, changes nothing else. While it is
asserted the engine does nothing and `irq` is 0, and a partial bus access is refused as ever (R306,
93_implementation_defined U9). That any other host access has no effect either, but for what a read
returns, is the model's reading (log 17). -/
def Obligations.AssertedResetStopsTheMachine : Prop :=
  (∀ (s : State) (rest : List Move), s.moves = .assertReset :: rest →
    step s = .next { s with moves := rest, inReset := true }) ∧
  (∀ s : State, s.inReset = true →
    s.irq = false ∧ (s.moves = [] → step s = .next s) ∧
    ∀ (m : Move) (rest : List Move), s.moves = m :: rest → m ≠ .releaseReset →
      let partialAccess := (∃ target offset size, m = .host (.busRead target offset size) ∧
          (size ≠ paddedSize machineConfig target ∨
            offset % paddedSize machineConfig target ≠ 0)) ∨
        ∃ target offset bytes, m = .host (.busWrite target offset bytes) ∧
          (bytes.length ≠ paddedSize machineConfig target ∨
            offset % paddedSize machineConfig target ≠ 0)
      (partialAccess → step s = .refused .partialBusAccess) ∧
      (¬ partialAccess → ∃ (answer : Wide) (drawn : Nat),
        step s = .next { s with moves := rest, busData := answer, draws := drawn }))

/-! ### The host port -/

/-- 10_state R31, 70_reset_and_hazards R298: a write to `CMD` issues the command when the engine is
idle, and is dropped with `HAZ` when it is busy. -/
def Obligations.CommandWriteIssuesOrIsDropped : Prop :=
  ∀ (s : State) (v : Slot) (rest : List Move), s.inReset = false →
    s.moves = .host (.writeReg 0 v) :: rest →
    (s.status.busy = false → step s = .next { s with
      moves := rest
      lcmd := v.setWidth 32
      status := ⟨true, false, false, s.status.haz⟩
      errcode := 0 }) ∧
    (s.status.busy = true → step s = .next { s with
      moves := rest
      status := { s.status with haz := true } })

/-- 70_reset_and_hazards R299: while the engine is busy an access to an operand register or a data
space writes nothing, sets `HAZ`, and a read returns some value of the element's width; `STATUS`,
`ERRCODE` and `CTRL` are read, and `CTRL` is written, as ever. -/
def Obligations.OperandAccessWhileBusy : Prop :=
  ∀ (s : State) (rest : List Move), s.inReset = false → s.status.busy = true →
    (∀ index v, 4 ≤ index → index ≤ 11 → s.moves = .host (.writeReg index v) :: rest →
      step s = .next { s with moves := rest, status := { s.status with haz := true } }) ∧
    (∀ sp index v, s.moves = .host (.writeSpace sp index v) :: rest →
      step s = .next { s with moves := rest, status := { s.status with haz := true } }) ∧
    (∀ index, 4 ≤ index → index ≤ 11 → s.moves = .host (.readReg index) :: rest →
      ∃ (answer : Wide) (drawn : Nat), answer.toNat < 2 ^ registerWidth machineConfig index ∧
        step s = .next { s with
          moves := rest, status := { s.status with haz := true }, busData := answer
          draws := drawn }) ∧
    (∀ sp index, s.moves = .host (.readSpace sp index) :: rest →
      ∃ (answer : Wide) (drawn : Nat), answer.toNat < 2 ^ elementWidth machineConfig sp ∧
        step s = .next { s with
          moves := rest, status := { s.status with haz := true }, busData := answer
          draws := drawn }) ∧
    (∀ index, 1 ≤ index → index ≤ 3 → s.moves = .host (.readReg index) :: rest →
      step s = .next { s with moves := rest, busData := (s.slot machineConfig index).setWidth 256 }) ∧
    (∀ v, s.moves = .host (.writeReg 3 v) :: rest →
      step s = .next { s with moves := rest, ie := v.getLsbD 0 })

/-- 10_state R32: a write to `STATUS` clears `DONE` and `HAZ` where it has a 1 in their bit, and does
nothing else, busy or not. -/
def Obligations.StatusWriteOneToClear : Prop :=
  ∀ (s : State) (v : Slot) (rest : List Move), s.inReset = false →
    s.moves = .host (.writeReg 1 v) :: rest →
    step s = .next { s with
      moves := rest
      status := ⟨s.status.busy, s.status.done && !v.getLsbD 1, s.status.err,
        s.status.haz && !v.getLsbD 3⟩ }

/-- 60_exceptions R262: the interrupt line. -/
def Obligations.InterruptLevel : Prop :=
  ∀ s : State, s.inReset = false → s.irq = (s.status.done && s.ie)

/-- 10_state R21, R29, R30, R32, R33: what the host's register accesses do. An idle engine's read/write
registers keep the low bits of what was written and nothing else changes; upper bits read zero; a
write to a read-only register or above index 11 is ignored; `CMD` and indices above 11 read zero;
`STATUS` reads as `BUSY`, `DONE`, `ERR`, `HAZ` in bits 0 to 3, and with `ERRCODE` and `CTRL` at any time. The
step of a register move out of reset is that access. -/
def Obligations.RegisterWriteThenRead : Prop :=
  ∀ (s : State) (v : Slot),
    (s.status.busy = false →
      (∀ index, 3 ≤ index → index ≤ 9 →
        (hostReadReg machineConfig (hostWriteReg machineConfig s index v) index).busData.toNat
          = v.toNat % 2 ^ registerWidth machineConfig index) ∧
      hostWriteReg machineConfig s 4 v = { s with w := v.setWidth 32 } ∧
      hostWriteReg machineConfig s 5 v = { s with h := v.setWidth 32 } ∧
      hostWriteReg machineConfig s 6 v = { s with blk := v.setWidth 8 } ∧
      hostWriteReg machineConfig s 7 v = { s with q := v } ∧
      hostWriteReg machineConfig s 8 v = { s with nruns := v.setWidth 32 } ∧
      hostWriteReg machineConfig s 9 v = { s with bitlen := v.setWidth 40 } ∧
      (∀ index value, (index = 4 ∧ value = s.w.toNat) ∨ (index = 5 ∧ value = s.h.toNat) ∨
          (index = 6 ∧ value = s.blk.toNat) ∨ (index = 7 ∧ value = s.q.toNat) ∨
          (index = 8 ∧ value = s.nruns.toNat) ∨ (index = 9 ∧ value = s.bitlen.toNat) ∨
          (index = 10 ∧ value = s.nnodes.toNat) ∨ (index = 11 ∧ value = s.root.toNat) →
        hostReadReg machineConfig s index = { s with busData := BitVec.ofNat 256 value })) ∧
    hostReadReg machineConfig s 1 = { s with
      busData := BitVec.ofNat 256 (s.status.busy.toNat + 2 * s.status.done.toNat +
        4 * s.status.err.toNat + 8 * s.status.haz.toNat) } ∧
    hostReadReg machineConfig s 2 = { s with busData := BitVec.ofNat 256 s.errcode.toNat } ∧
    hostReadReg machineConfig s 3 = { s with busData := BitVec.ofNat 256 s.ie.toNat } ∧
    hostWriteReg machineConfig s 3 v = { s with ie := v.getLsbD 0 } ∧
    (∀ index, index = 0 ∨ 12 ≤ index →
      hostReadReg machineConfig s index = { s with busData := 0 }) ∧
    (∀ index, index = 2 ∨ 12 ≤ index → hostWriteReg machineConfig s index v = s) ∧
    (s.status.busy = false → hostWriteReg machineConfig s 10 v = s ∧
      hostWriteReg machineConfig s 11 v = s) ∧
    (s.inReset = false → ∀ (index : Nat) (rest : List Move),
      (s.moves = .host (.readReg index) :: rest →
        step s = .next (hostReadReg machineConfig { s with moves := rest } index)) ∧
      (s.moves = .host (.writeReg index v) :: rest →
        step s = .next (hostWriteReg machineConfig { s with moves := rest } index v)))

/-- 70_reset_and_hazards R300, 20_memory R60, R62, R66: the sizes of the data spaces at the default
parameters; a write to `TREE`, and any access outside a data space, writes nothing, reads zero and sets
`HAZ`, at any time. That a read outside a space while the engine is busy returns zero, as R300 says, and
not the unspecified value of R299, is the model's reading (log 14); so is a last byte of `BITS` that
counts whole (log 16). -/
def Obligations.RefusedSpaceAccess : Prop :=
  ([SpaceId.pix, .runs, .freq, .tree, .clen, .cval, .bits, .coef, .suba, .subh, .subv, .subd].map
      (spaceSize machineConfig) =
    [4294967295, 4294967295, 256, 511, 256, 256, 137438953472, 4294967295, 1073741823, 1073741823,
      1073741823, 1073741823]) ∧
  ∀ (s : State) (rest : List Move), s.inReset = false →
    (∀ index v, s.moves = .host (.writeSpace .tree index v) :: rest →
      step s = .next { s with moves := rest, status := { s.status with haz := true } }) ∧
    (∀ sp index v, spaceSize machineConfig sp ≤ index →
      s.moves = .host (.writeSpace sp index v) :: rest →
      step s = .next { s with moves := rest, status := { s.status with haz := true } }) ∧
    (∀ sp index, spaceSize machineConfig sp ≤ index →
      s.moves = .host (.readSpace sp index) :: rest →
      step s = .next { s with
        moves := rest, status := { s.status with haz := true }, busData := 0 })

/-- 20_memory R60, R61, R62, R64: an idle engine's host read inside a space, `TREE` included, answers the
element (for `BITS` the byte of R64) and changes nothing else. A host write inside a space other than
`TREE` is read back, every other element of every space reads as before, and nothing but data spaces
changes. The step of such a move out of reset is that access. That a value wider than its element is
truncated (log 15), and that the last byte of `BITS` counts whole (log 16), are the model's readings. -/
def Obligations.SpaceWriteThenRead : Prop :=
  ∀ s : State, s.status.busy = false →
    (∀ sp index, index < spaceSize machineConfig sp →
      hostReadSpace machineConfig s sp index = { s with
        busData := BitVec.ofNat 256 (match sp with
          | .pix => (s.pix.read index).toNat
          | .runs => (s.runs.read index).toNat
          | .freq => (s.freq.read index).toNat
          | .tree => (s.tree.read index).toNat
          | .clen => (s.clen.read index).toNat
          | .cval => (s.cval.read index).toNat
          | .bits => codeValue ((List.range 8).map fun k => (s.bits.read (8 * index + k)).getLsbD 0)
          | .coef => (s.coef.read index).toNat
          | .suba => (s.suba.read index).toNat
          | .subh => (s.subh.read index).toNat
          | .subv => (s.subv.read index).toNat
          | .subd => (s.subd.read index).toNat) }) ∧
    (∀ (sp : SpaceId) (index : Nat) (v : Wide), sp ≠ .tree → index < spaceSize machineConfig sp →
      let t := hostWriteSpace machineConfig s sp index v
      (hostReadSpace machineConfig t sp index).busData.toNat
        = v.toNat % 2 ^ elementWidth machineConfig sp ∧
      (∀ sp' index', (sp', index') ≠ (sp, index) →
        t.peek machineConfig sp' index' = s.peek machineConfig sp' index' ∧
        (hostReadSpace machineConfig t sp' index').busData =
          (hostReadSpace machineConfig s sp' index').busData) ∧
      t = { s with
        pix := t.pix, runs := t.runs, freq := t.freq, clen := t.clen, cval := t.cval, bits := t.bits
        coef := t.coef, suba := t.suba, subh := t.subh, subv := t.subv, subd := t.subd }) ∧
    (s.inReset = false → ∀ (sp : SpaceId) (index : Nat) (v : Wide) (rest : List Move),
      (s.moves = .host (.readSpace sp index) :: rest →
        step s = .next (hostReadSpace machineConfig { s with moves := rest } sp index)) ∧
      (s.moves = .host (.writeSpace sp index v) :: rest →
        step s = .next (hostWriteSpace machineConfig { s with moves := rest } sp index v)))

/-- 20_memory R64: stream bit `k` is bit `7 - (k mod 8)` of byte `k div 8`, read and written. -/
def Obligations.BitsBytePacking : Prop :=
  ∀ (s : State) (k : Nat),
    (s.bitsByte (k / 8)).getLsbD (7 - k % 8) = (s.bits.read k).getLsbD 0 ∧
    ∀ (j : Nat) (v : Wide), ((s.poke machineConfig .bits j v).bits.read k).getLsbD 0 =
      if k / 8 = j then v.getLsbD (7 - k % 8) else (s.bits.read k).getLsbD 0

/-- 20_memory R63, R65, R69 and 93_implementation_defined U9: the padded sizes of a register slot and of
the elements; a bus access is that of the slot or element it covers whole and aligned; any other is
refused. -/
def Obligations.BusAccessIsWholeElementOrRefused : Prop :=
  ([BusTarget.registers, .space .pix, .space .runs, .space .freq, .space .tree, .space .clen,
      .space .cval, .space .bits, .space .coef, .space .suba, .space .subh, .space .subv,
      .space .subd].map (paddedSize machineConfig) = [8, 1, 8, 4, 16, 1, 32, 1, 8, 8, 8, 8, 8]) ∧
  ∀ (s : State) (target : BusTarget) (rest : List Move), s.inReset = false →
    (∀ offset size, s.moves = .host (.busRead target offset size) :: rest →
      (size ≠ paddedSize machineConfig target ∨ offset % paddedSize machineConfig target ≠ 0 →
        step s = .refused .partialBusAccess) ∧
      (∀ index, size = paddedSize machineConfig target →
        offset = index * paddedSize machineConfig target →
        step s = .next (hostRead machineConfig { s with moves := rest } target index))) ∧
    (∀ offset bytes, s.moves = .host (.busWrite target offset bytes) :: rest →
      (bytes.length ≠ paddedSize machineConfig target ∨
          offset % paddedSize machineConfig target ≠ 0 →
        step s = .refused .partialBusAccess) ∧
      (∀ index, bytes.length = paddedSize machineConfig target →
        offset = index * paddedSize machineConfig target →
        step s = .next (hostWrite machineConfig { s with moves := rest } target index
          (BitVec.ofNat 256 (littleEndian bytes)))))

/-- 20_memory R63: the bytes of a value on a bus spell it little-endian. -/
def Obligations.BusIsLittleEndian : Prop :=
  ∀ (n : Nat) (v : Wide), (busBytes n v).length = n ∧
    littleEndian (busBytes n v) = v.toNat % 2 ^ (8 * n) ∧
    (∀ k < n, (busBytes n v)[k]? = some (BitVec.ofNat 8 (v.toNat / 2 ^ (8 * k))))

/-- 60_exceptions R263: a `STATUS` write that clears `DONE` in the same instant as a completion does
not hide it. -/
def Obligations.CompletionWinsOverClear : Prop :=
  ∀ (s : State) (v : Slot) (rest : List Move), s.status.busy = true → s.inReset = false →
    s.moves = .engineWithStatusWrite v :: rest →
    ∃ t, step s = .next t ∧ t.status.done = true ∧ t.status.busy = false ∧
      t.status.haz = (s.status.haz && !v.getLsbD 3) ∧ t.moves = rest

/-! ### Every step -/

/-- 30_encoding R96, 70_reset_and_hazards R303: whatever word is latched, a busy engine's step ends
the command, sets `DONE`, clears `BUSY`, leaves `HAZ`, and writes no input register. -/
def Obligations.EveryBusyStepCompletes : Prop :=
  ∀ s : State, s.status.busy = true → s.inReset = false → s.moves = [] →
    ∃ t, step s = .next t ∧ t.status.busy = false ∧ t.status.done = true ∧
      t.status.haz = s.status.haz ∧
      ((t.status.err = s.status.err ∧ t.errcode = s.errcode) ∨
        (t.status.err = true ∧ 1 ≤ t.errcode.toNat ∧ t.errcode.toNat ≤ 6)) ∧
      t.w = s.w ∧ t.h = s.h ∧ t.blk = s.blk ∧ t.q = s.q ∧ t.ie = s.ie ∧ t.lcmd = s.lcmd ∧
      t.inReset = false ∧ t.busData = s.busData ∧ t.moves = []

/-- The invariants below hold after reset. -/
def Obligations.InvariantsAtReset : Prop :=
  State.reset.statusLaws ∧ State.reset.memoryLaws ∧ State.reset.drawLaws ∧ State.reset.treeLaws

/-- 10_state R32, R33: every step keeps the laws of `STATUS` and `ERRCODE`. -/
def Obligations.StepKeepsStatusLaws : Prop :=
  ∀ s t : State, s.statusLaws → step s = .next t → t.statusLaws

/-- 20_memory R66: every step keeps each data space in canonical form and inside its bounds. -/
def Obligations.StepKeepsMemoryLaws : Prop :=
  ∀ s t : State, s.memoryLaws → step s = .next t → t.memoryLaws

/-- 70_reset_and_hazards R304, as the model renders it (log 3): every step keeps the free values of
different spaces, and of what becomes unspecified later, drawn apart. -/
def Obligations.StepKeepsDrawLaws : Prop :=
  ∀ s t : State, s.drawLaws → step s = .next t → t.drawLaws

/-- 10_state R44: every step keeps the tree invariant, so `HCODES` never meets a malformed tree. -/
def Obligations.StepKeepsTreeLaws : Prop :=
  ∀ s t : State, s.treeLaws → step s = .next t → t.treeLaws

/-! ### Failures -/

/-- 60_exceptions R250: the codes. -/
def Obligations.FailureCodes : Prop :=
  FailureKind.emptyInput.code = 1 ∧ FailureKind.shapeMismatch.code = 2 ∧
  FailureKind.invalidBitstream.code = 3 ∧ FailureKind.unsupportedBlockShape.code = 4 ∧
  FailureKind.capacityExceeded.code = 5 ∧ FailureKind.illegalCommand.code = 6

/-- 60_exceptions R257: the failure entry of each command. The output length registers become 0, the
output spaces are some spaces, the kind is recorded, `ERR` and `DONE` are set, `BUSY` is cleared, and
nothing else changes. -/
def Obligations.FailureEntryOfEachCommand : Prop :=
  ∀ (s : State) (k : FailureKind),
    let failed : Status := ⟨false, true, true, s.status.haz⟩
    (failureEntry none k s = { s with status := failed, errcode := k.code }) ∧
    (∃ (x : Space 40) (d : Nat), failureEntry (some .rleenc) k s =
      { s with nruns := 0, runs := x, draws := d, status := failed, errcode := k.code }) ∧
    (∀ i ∈ [Instr.rledec, .hdec, .xinvDct, .xinvHaar], ∃ (x : Space 8) (d : Nat),
      failureEntry (some i) k s =
        { s with pix := x, draws := d, status := failed, errcode := k.code }) ∧
    (∃ (x : Space 32) (d : Nat), failureEntry (some .hfreq) k s =
      { s with freq := x, draws := d, status := failed, errcode := k.code }) ∧
    (∃ (x : Space 67) (d : Nat), failureEntry (some .htree) k s =
      { s with
        nnodes := 0, root := 0, tree := x, draws := d, status := failed, errcode := k.code }) ∧
    (∃ (x : Space 8) (y : Space 256) (d : Nat), failureEntry (some .hcodes) k s =
      { s with clen := x, cval := y, draws := d, status := failed, errcode := k.code }) ∧
    (∃ (x : Space 8) (y : Space 256) (z : Space 1) (f : Space 32) (r : Space 67) (d : Nat),
      failureEntry (some .henc) k s =
        { s with
          bitlen := 0, nnodes := 0, root := 0, clen := x, cval := y, bits := z, freq := f, tree := r
          draws := d, status := failed, errcode := k.code }) ∧
    (∃ (x : Space 64) (d : Nat), failureEntry (some .xfwdDct) k s =
      { s with coef := x, draws := d, status := failed, errcode := k.code }) ∧
    (∃ (a b c e : Space 64) (d : Nat), failureEntry (some .xfwdHaar) k s =
      { s with
        suba := a, subh := b, subv := c, subd := e, draws := d, status := failed
        errcode := k.code })

/-- 60_exceptions R253, R255: a buffer of more than `MAXLEN` samples, `MAXLEN` at its default, fails
with `CapacityExceeded` before any other check, in every command that reads `W` and `H`. -/
def Obligations.CapacityFailures : Prop :=
  ∀ (i : Instr) (s : State), i ≠ .htree → i ≠ .hcodes → 2 ^ 32 - 1 < s.len →
    exec i s = .next (failureEntry (some i) .capacityExceeded s)

/-- 60_exceptions R253: the same with the capacities at any value the parameters allow. `RLEDEC`'s
and `HDEC`'s second operand and `HENC`'s result have a limit of their own, and `HTREE` and `HCODES`
never fail so. -/
def Obligations.CapacityFailuresAtAnyParameters : Prop :=
  ∀ (c : Config) (s : State),
    (c.maxLen < s.len →
      rleenc c s = .error .capacityExceeded ∧ rledec c s = .error .capacityExceeded ∧
      hfreq c s = .error .capacityExceeded ∧ henc c s = .error .capacityExceeded ∧
      hdec c s = .error .capacityExceeded ∧ xfwdDct c s = .error .capacityExceeded ∧
      xinvDct c s = .error .capacityExceeded ∧ xfwdHaar c s = .error .capacityExceeded ∧
      xinvHaar c s = .error .capacityExceeded) ∧
    (c.maxLen < s.nruns.toNat → rledec c s = .error .capacityExceeded) ∧
    (c.maxBits < s.bitlen.toNat → hdec c s = .error .capacityExceeded) ∧
    (0 < s.len → s.len ≤ c.maxLen →
      (henc c s = .error .capacityExceeded ↔
        c.maxBits < ((List.range s.len).map fun i =>
          (entryOf (sampleTable s.samples) (s.pix.read i).toNat).1).sum)) ∧
    htree s ≠ .error .capacityExceeded ∧ hcodes s ≠ .error .capacityExceeded

/-- 60_exceptions R251: the causes of `EmptyInput`, complete. -/
def Obligations.EmptyInputCauses : Prop :=
  ∀ s : State,
    (s.len = 0 → exec .rleenc s = .next (failureEntry (some .rleenc) .emptyInput s)) ∧
    ((∀ sym < 256, s.freq.read sym = 0) →
      exec .htree s = .next (failureEntry (some .htree) .emptyInput s)) ∧
    (s.len = 0 → exec .henc s = .next (failureEntry (some .henc) .emptyInput s)) ∧
    (s.nnodes = 0 → exec .hcodes s = .next (failureEntry (some .hcodes) .emptyInput s)) ∧
    (∀ (i : Instr) (t : State), s.errcode ≠ 1 → exec i s = .next t → t.errcode = 1 →
      (i = .rleenc ∧ s.len = 0) ∨ (i = .htree ∧ ∀ sym < 256, s.freq.read sym = 0) ∨
      (i = .henc ∧ s.len = 0) ∨ (i = .hcodes ∧ s.nnodes = 0))

/-- 60_exceptions R252, R255: the causes of `ShapeMismatch`, `InvalidBitstream` and
`UnsupportedBlockShape`, when no length operand is too large. -/
def Obligations.ShapeAndStreamFailures : Prop :=
  ∀ s : State, s.len ≤ 2 ^ 32 - 1 →
    (((s.runs.readUpTo s.nruns.toNat).map fun v => (v.extractLsb' 0 32).toNat).sum ≠ s.len →
      exec .rledec s = .next (failureEntry (some .rledec) .shapeMismatch s)) ∧
    ((scanBits s.codeTable [] (s.stream s.bitlen.toNat)).2 ≠ [] ∨
        (scanBits s.codeTable [] (s.stream s.bitlen.toNat)).1.length ≠ s.len →
      exec .hdec s = .next (failureEntry (some .hdec) .invalidBitstream s)) ∧
    (s.blk = 0 ∨ 64 < s.blk.toNat ∨ s.w.toNat < s.blk.toNat ∨ s.h.toNat < s.blk.toNat →
      exec .xfwdDct s = .next (failureEntry (some .xfwdDct) .unsupportedBlockShape s) ∧
      exec .xinvDct s = .next (failureEntry (some .xinvDct) .unsupportedBlockShape s)) ∧
    (s.w.toNat < 2 ∨ s.h.toNat < 2 ∨ s.w.toNat % 2 = 1 ∨ s.h.toNat % 2 = 1 →
      exec .xfwdHaar s = .next (failureEntry (some .xfwdHaar) .unsupportedBlockShape s) ∧
      exec .xinvHaar s = .next (failureEntry (some .xinvHaar) .unsupportedBlockShape s))

/-- 10_state R49, 60_exceptions R258: what a command, succeeding or failing, leaves as it was. -/
def Obligations.CommandTouchesOnlyItsRow : Prop :=
  ∀ (i : Instr) (s t : State), exec i s = .next t →
    t.w = s.w ∧ t.h = s.h ∧ t.blk = s.blk ∧ t.q = s.q ∧ t.ie = s.ie ∧ t.lcmd = s.lcmd ∧
    t.status.haz = s.status.haz ∧ t.inReset = s.inReset ∧ t.busData = s.busData ∧
    t.moves = s.moves ∧
    (i ≠ .rleenc → t.nruns = s.nruns ∧ ∀ k, t.runs.read k = s.runs.read k) ∧
    (i ≠ .henc → t.bitlen = s.bitlen ∧ ∀ k, t.bits.read k = s.bits.read k) ∧
    (i ≠ .htree → i ≠ .henc →
      t.nnodes = s.nnodes ∧ t.root = s.root ∧ ∀ k, t.tree.read k = s.tree.read k) ∧
    (i ≠ .hfreq → i ≠ .henc → ∀ k, t.freq.read k = s.freq.read k) ∧
    (i ≠ .hcodes → i ≠ .henc →
      (∀ k, t.clen.read k = s.clen.read k) ∧ ∀ k, t.cval.read k = s.cval.read k) ∧
    (i ∉ [Instr.rledec, .hdec, .xinvDct, .xinvHaar] → ∀ k, t.pix.read k = s.pix.read k) ∧
    (i ≠ .xfwdDct → ∀ k, t.coef.read k = s.coef.read k) ∧
    (i ≠ .xfwdHaar → ∀ k, t.suba.read k = s.suba.read k ∧ t.subh.read k = s.subh.read k ∧
      t.subv.read k = s.subv.read k ∧ t.subd.read k = s.subd.read k)

/-! ### Run-length commands -/

/-- 40_rle R121, R122, R124: `RLEENC` on a non-empty buffer. The runs expand to the buffer, are
maximal and not empty, and nothing else changes. -/
def Obligations.RleencEncodesTheBuffer : Prop :=
  ∀ s : State, 0 < s.len → s.len ≤ 2 ^ 32 - 1 →
    ∃ (x : Space 40) (list : List Run),
      exec .rleenc s = .next { s with
        nruns := BitVec.ofNat 32 list.length
        runs := x
        status := { s.status with busy := false, done := true } } ∧
      (∀ j (hj : j < list.length), x.read j = list[j].value ++ list[j].count) ∧
      (∀ j, list.length ≤ j → x.read j = s.runs.read j) ∧
      (list.flatMap fun r => List.replicate r.count.toNat r.value) =
        (List.range s.len).map s.pix.read ∧
      (list.map fun r => r.count.toNat).sum = s.len ∧
      (∀ j (hj : j + 1 < list.length), list[j].value ≠ list[j + 1].value) ∧
      (∀ r ∈ list, 1 ≤ r.count.toNat) ∧ 1 ≤ list.length ∧ list.length ≤ s.len

/-- 40_rle R126, R127: `RLEDEC` when the counts sum to the buffer's size: each run's value in turn,
`count` times; later samples and everything else unchanged. -/
def Obligations.RledecExpandsTheRuns : Prop :=
  ∀ s : State, s.len ≤ 2 ^ 32 - 1 →
    let count := fun j => (s.runs.read j).toNat % 2 ^ 32
    let before := fun j => ((List.range j).map count).sum
    before s.nruns.toNat = s.len →
    ∃ x : Space 8,
      exec .rledec s = .next { s with
        pix := x
        status := { s.status with busy := false, done := true } } ∧
      (∀ j < s.nruns.toNat, ∀ p < count j,
        (x.read (before j + p)).toNat = (s.runs.read j).toNat / 2 ^ 32) ∧
      (∀ i, s.len ≤ i → x.read i = s.pix.read i)

/-- 40_rle R128: `RLEENC` then `RLEDEC` with `W`, `H`, `NRUNS` and `RUNS` untouched restores the
samples, whatever was written to `PIX` in between. -/
def Obligations.RleRoundTrip : Prop :=
  ∀ s : State, 1 ≤ s.len → s.len ≤ 2 ^ 32 - 1 →
    ∃ t, exec .rleenc s = .next t ∧ t.status.err = s.status.err ∧
      ∀ u : State, u.w = t.w → u.h = t.h → u.nruns = t.nruns →
        (∀ j < t.nruns.toNat, u.runs.read j = t.runs.read j) →
        ∃ v, exec .rledec u = .next v ∧ v.status.err = u.status.err ∧ v.errcode = u.errcode ∧
          ∀ i < s.len, v.pix.read i = s.pix.read i

/-! ### Huffman encoder -/

/-- 41_huffman_encoder R141, R142, R143: `HFREQ`, the empty buffer included. -/
def Obligations.HfreqCountsTheSymbols : Prop :=
  ∀ s : State, s.len ≤ 2 ^ 32 - 1 →
    ∃ x : Space 32,
      exec .hfreq s = .next { s with
        freq := x
        status := { s.status with busy := false, done := true } } ∧
      (∀ sym < 256, (x.read sym).toNat =
        ((List.range s.len).filter fun i => (s.pix.read i).toNat == sym).length) ∧
      ((List.range 256).map fun sym => (x.read sym).toNat).sum = s.len ∧
      ((List.range 256).filter fun sym => x.read sym != 0).length ≤ min s.len 256

/-- 41_huffman_encoder R151: `least` answers the one node of the pool that comes before every
other. -/
def Obligations.LeastComesBeforeAll : Prop :=
  ∀ (nodes : List Node) (pool : List Nat), pool ≠ [] →
    least nodes pool ∈ pool ∧
    ∀ k ∈ pool, k ≠ least nodes pool →
      freqAt nodes (least nodes pool) < freqAt nodes k ∨
      (freqAt nodes (least nodes pool) = freqAt nodes k ∧ least nodes pool < k)

/-- 41_huffman_encoder R145, R146, R147, R152: `HTREE` on a table that is not empty. The leaves are
the present symbols with their counts, the tree is lawful, and the root's frequency is the total. -/
def Obligations.HtreeBuildsALawfulTree : Prop :=
  ∀ s : State, (∃ sym < 256, s.freq.read sym ≠ 0) →
    let present := (List.range 256).filter fun sym => s.freq.read sym != 0
    let size := if present.length = 1 then 2 else 2 * present.length - 1
    ∃ x : Space 67,
      exec .htree s = .next { s with
        nnodes := BitVec.ofNat 10 size
        root := BitVec.ofNat 9 (size - 1)
        tree := x
        status := { s.status with busy := false, done := true } } ∧
      TreeLaws (fun k => Node.unpack (x.read k)) size (size - 1) ∧
      (∀ k (hk : k < present.length), (Node.unpack (x.read k)).sym.toNat = present[k] ∧
        (Node.unpack (x.read k)).freq.toNat = (s.freq.read present[k]).toNat) ∧
      (Node.unpack (x.read (size - 1))).freq.toNat =
        ((List.range 256).map fun sym => (s.freq.read sym).toNat).sum ∧
      (∀ k, size ≤ k → x.read k = s.tree.read k)

/-- 41_huffman_encoder R148, R151: with two symbols or more, each internal node merges the two nodes
of its pool that come first, the first of them as the left child. The pool of node `k` is the nodes
before it that are no child of a node before it. -/
def Obligations.HtreeMergesTheTwoLeast : Prop :=
  ∀ s : State,
    let n := ((List.range 256).filter fun sym => s.freq.read sym != 0).length
    2 ≤ n →
    ∃ t, exec .htree s = .next t ∧ t.nnodes.toNat = 2 * n - 1 ∧
      ∀ k, n ≤ k → k < 2 * n - 1 →
        let inPool := fun j => j < k ∧ ∀ p < k, j ∉ childrenOf (t.node p)
        let before := fun a b => (t.node a).freq.toNat < (t.node b).freq.toNat ∨
          ((t.node a).freq = (t.node b).freq ∧ a < b)
        let a := (t.node k).left.toNat
        let b := (t.node k).right.toNat
        inPool a ∧ inPool b ∧ a ≠ b ∧ (∀ j, inPool j → j ≠ a → before a j) ∧
        (∀ j, inPool j → j ≠ a → j ≠ b → before b j)

/-- 41_huffman_encoder R150: the one-symbol tree. -/
def Obligations.HtreeOneSymbolTree : Prop :=
  ∀ (s : State) (sym : Nat), sym < 256 →
    (∀ a < 256, s.freq.read a ≠ 0 ↔ a = sym) →
    ∃ t, exec .htree s = .next t ∧ t.nnodes = 2 ∧ t.root = 1 ∧
      t.node 0 = ⟨true, BitVec.ofNat 8 sym, (s.freq.read sym).setWidth 40, 0x1FF, 0x1FF⟩ ∧
      t.node 1 = ⟨false, 0, (s.freq.read sym).setWidth 40, 0, 0x1FF⟩

/-- 41_huffman_encoder R154, R155: `HCODES` on a lawful tree gives each leaf's symbol its path and
every other symbol no entry. -/
def Obligations.HcodesAssignsThePaths : Prop :=
  ∀ s : State, s.nnodes ≠ 0 → s.treeLaws →
    ∃ (x : Space 8) (y : Space 256),
      exec .hcodes s = .next { s with
        clen := x
        cval := y
        status := { s.status with busy := false, done := true } } ∧
      (∀ k < s.nnodes.toNat, (s.node k).leaf = true →
        ∃ code, Path s.node s.root.toNat k code ∧
          (x.read (s.node k).sym.toNat).toNat = code.length ∧
          (y.read (s.node k).sym.toNat).toNat = codeValue code) ∧
      (∀ sym < 256, (∀ k < s.nnodes.toNat, (s.node k).leaf = true → (s.node k).sym.toNat ≠ sym) →
        x.read sym = 0 ∧ y.read sym = 0) ∧
      (∀ sym, 256 ≤ sym → x.read sym = s.clen.read sym ∧ y.read sym = s.cval.read sym)

/-- 41_huffman_encoder R157, R158: the table `HCODES` writes is prefix-free. Each leaf's code has 1 to 255
bits, at most one less than there are leaves when there are two or more, and a value below `2^255`; the
one code of a one-symbol tree is "0", and the two codes of a two-symbol tree are "0" and "1". -/
def Obligations.HcodesTableIsPrefixFree : Prop :=
  ∀ s : State, s.nnodes ≠ 0 → s.treeLaws →
    ∃ t, exec .hcodes s = .next t ∧ PrefixFree t.codeTable ∧
      (∀ k < s.nnodes.toNat, (s.node k).leaf = true →
        1 ≤ (t.clen.read (s.node k).sym.toNat).toNat ∧
        (t.clen.read (s.node k).sym.toNat).toNat ≤ 255 ∧
        (3 ≤ s.nnodes.toNat →
          (t.clen.read (s.node k).sym.toNat).toNat ≤ leafCount s.nnodes.toNat - 1) ∧
        (t.cval.read (s.node k).sym.toNat).toNat < 2 ^ 255) ∧
      (s.nnodes = 2 → codeOf t.codeTable (s.node 0).sym.toNat = [false]) ∧
      (s.nnodes = 3 →
        codeOf t.codeTable (s.node (s.node 2).left.toNat).sym.toNat = [false] ∧
        codeOf t.codeTable (s.node (s.node 2).right.toNat).sym.toNat = [true])

/-- 41_huffman_encoder R161, R163, R164, R166: `HENC` on a non-empty buffer. The bits are the codes
of the samples in order, then zero up to the end of the byte; later bits are unchanged; there is no
tree; `FREQ` and `TREE` are some spaces. -/
def Obligations.HencWritesTheBitstream : Prop :=
  ∀ s : State, 0 < s.len → s.len ≤ 2 ^ 32 - 1 →
    ∃ (x : Space 8) (y : Space 256) (z : Space 1) (f : Space 32) (r : Space 67) (drawn : Nat)
      (stream : Code),
      exec .henc s = .next { s with
        clen := x
        cval := y
        bits := z
        bitlen := BitVec.ofNat 40 stream.length
        nnodes := 0
        root := 0
        freq := f
        tree := r
        draws := drawn
        status := { s.status with busy := false, done := true } } ∧
      stream.length < 2 ^ 40 ∧
      stream = (List.range s.len).flatMap (fun i =>
        bitsOf (x.read (s.pix.read i).toNat).toNat (y.read (s.pix.read i).toNat).toNat) ∧
      (∀ k (hk : k < stream.length), (z.read k).getLsbD 0 = stream[k]) ∧
      (∀ k, stream.length ≤ k → k < 8 * ((stream.length + 7) / 8) → z.read k = 0) ∧
      (∀ k, 8 * ((stream.length + 7) / 8) ≤ k → z.read k = s.bits.read k)

/-- 41_huffman_encoder R162: `HENC` writes the code table the staged commands would write, and fails
with `EmptyInput` exactly when the staged `HTREE` would. -/
def Obligations.HencAgreesWithTheStages : Prop :=
  ∀ s : State, s.len ≤ 2 ^ 32 - 1 → s.status.err = false →
    ∃ a b e, exec .hfreq s = .next a ∧ exec .htree a = .next b ∧ exec .henc s = .next e ∧
      (e.status.err = true ∧ e.errcode = 1 ↔ b.status.err = true ∧ b.errcode = 1) ∧
      (e.status.err = false → ∃ c, exec .hcodes b = .next c ∧ a.status.err = false ∧
        b.status.err = false ∧ c.status.err = false ∧
        ∀ sym < 256, e.clen.read sym = c.clen.read sym ∧ e.cval.read sym = c.cval.read sym)

/-- 41_huffman_encoder R165: the length of the bitstream, and the one-symbol buffer. -/
def Obligations.HencStreamLength : Prop :=
  ∀ s : State, 0 < s.len → s.len ≤ 2 ^ 32 - 1 →
    ∃ t, exec .henc s = .next t ∧ t.status.err = s.status.err ∧
      t.bitlen.toNat = ((List.range s.len).map fun i =>
        (t.clen.read (s.pix.read i).toNat).toNat).sum ∧
      s.len ≤ t.bitlen.toNat ∧ t.bitlen.toNat ≤ 255 * s.len ∧
      ((∀ i < s.len, s.pix.read i = s.pix.read 0) →
        t.bitlen.toNat = s.len ∧ ∀ k < s.len, t.bits.read k = 0)

/-! ### Huffman decoder -/

/-- 42_huffman_decoder R181: `HDEC` when the scan ends with nothing pending and the right number of
symbols. -/
def Obligations.HdecDecodesTheStream : Prop :=
  ∀ s : State, s.len ≤ 2 ^ 32 - 1 →
    let scan := scanBits s.codeTable [] (s.stream s.bitlen.toNat)
    scan.2 = [] → scan.1.length = s.len →
    ∃ x : Space 8,
      exec .hdec s = .next { s with
        pix := x
        status := { s.status with busy := false, done := true } } ∧
      (∀ i (hi : i < scan.1.length), x.read i = scan.1[i]) ∧
      (∀ i, s.len ≤ i → x.read i = s.pix.read i)

/-- 42_huffman_decoder R182: a candidate matches the smallest symbol whose code, of `CLEN` bits of
`CVAL`, it is; bits of `CVAL` above the length are ignored. -/
def Obligations.MatchIsTheSmallestSymbol : Prop :=
  ∀ (s : State) (acc : Code), acc ≠ [] →
    let isCodeOf := fun sym => sym < 256 ∧ 1 ≤ (s.clen.read sym).toNat ∧
      bitsOf (s.clen.read sym).toNat (s.cval.read sym).toNat = acc
    (∀ sym, matchSymbol s.codeTable acc = some sym ↔
      isCodeOf sym ∧ ∀ a < sym, ¬ isCodeOf a) ∧
    (matchSymbol s.codeTable acc = none ↔ ∀ sym, ¬ isCodeOf sym)

/-- 42_huffman_decoder R183: the scan emits a symbol at the first bit where the bits since the last
emission match, and starts again; bits that never match stay pending. -/
def Obligations.ScanEmitsTheShortestMatch : Prop :=
  ∀ (table : CodeTable) (code rest : Code), code ≠ [] →
    (∀ p, p ≠ [] → p <+: code → p ≠ code → matchSymbol table p = none) →
    (∀ sym, matchSymbol table code = some sym →
      scanBits table [] (code ++ rest) =
        (BitVec.ofNat 8 sym :: (scanBits table [] rest).1, (scanBits table [] rest).2)) ∧
    (matchSymbol table code = none → scanBits table [] code = ([], code))

/-- 42_huffman_decoder R186: `HENC` then `HDEC`, with `W`, `H`, `BITLEN`, the bits and the code table
untouched, restores the samples, whatever was written to `PIX` in between. -/
def Obligations.HuffmanRoundTrip : Prop :=
  ∀ s : State, 1 ≤ s.len → s.len ≤ 2 ^ 32 - 1 →
    ∃ t, exec .henc s = .next t ∧ t.status.err = s.status.err ∧
      ∀ u : State, u.w = t.w → u.h = t.h → u.bitlen = t.bitlen →
        (∀ k < t.bitlen.toNat, u.bits.read k = t.bits.read k) →
        (∀ sym < 256, u.clen.read sym = t.clen.read sym ∧ u.cval.read sym = t.cval.read sym) →
        ∃ v, exec .hdec u = .next v ∧ v.status.err = u.status.err ∧ v.errcode = u.errcode ∧
          ∀ i < s.len, v.pix.read i = s.pix.read i

/-! ### Block transform -/

/-- 43_block_transform R205, R206, R208: `XFWD.DCT` on a buffer with a full block. A sample of a full
block gives the quantized coefficient of its block, a sample of the partial region its own value. -/
def Obligations.XfwdDctWritesTheCoefficients : Prop :=
  ∀ s : State, s.len ≤ 2 ^ 32 - 1 → 1 ≤ s.blk.toNat → s.blk.toNat ≤ 64 →
    s.blk.toNat ≤ s.w.toNat → s.blk.toNat ≤ s.h.toNat →
    let n := s.blk.toNat
    let at' := fun bi bj x y => (bi * n + x) * s.w.toNat + (bj * n + y)
    let block := fun bi bj => (List.range (n * n)).map fun k =>
      fltOfByte (s.pix.read (at' bi bj (k / n) (k % n)))
    ∃ x : Space 64,
      exec .xfwdDct s = .next { s with
        coef := x
        status := { s.status with busy := false, done := true } } ∧
      (∀ bi < s.h.toNat / n, ∀ bj < s.w.toNat / n, ∀ u < n, ∀ v < n,
        let c := machineConfig.dctFwd n (block bi bj) u v
        x.read (at' bi bj u v) = if fltLt (fltAbs c) s.q then 0 else c) ∧
      (∀ r < s.h.toNat, ∀ c < s.w.toNat,
        (s.h.toNat / n * n ≤ r ∨ s.w.toNat / n * n ≤ c) →
        x.read (r * s.w.toNat + c) = fltOfByte (s.pix.read (r * s.w.toNat + c))) ∧
      (∀ i, s.len ≤ i → x.read i = s.coef.read i)

/-- 43_block_transform R210, R211: `XINV.DCT` on a buffer with a full block; the sample of a NaN is
some value. -/
def Obligations.XinvDctWritesTheSamples : Prop :=
  ∀ s : State, s.len ≤ 2 ^ 32 - 1 → 1 ≤ s.blk.toNat → s.blk.toNat ≤ 64 →
    s.blk.toNat ≤ s.w.toNat → s.blk.toNat ≤ s.h.toNat →
    let n := s.blk.toNat
    let at' := fun bi bj x y => (bi * n + x) * s.w.toNat + (bj * n + y)
    let block := fun bi bj => (List.range (n * n)).map fun k =>
      s.coef.read (at' bi bj (k / n) (k % n))
    ∃ (x : Space 8) (drawn : Nat) (free : Nat → Byte),
      exec .xinvDct s = .next { s with
        pix := x
        draws := drawn
        status := { s.status with busy := false, done := true } } ∧
      (∀ bi < s.h.toNat / n, ∀ bj < s.w.toNat / n, ∀ u < n, ∀ v < n,
        x.read (at' bi bj u v) =
          sat8 machineConfig (free (at' bi bj u v)) (machineConfig.dctInv n (block bi bj) u v)) ∧
      (∀ r < s.h.toNat, ∀ c < s.w.toNat,
        (s.h.toNat / n * n ≤ r ∨ s.w.toNat / n * n ≤ c) →
        x.read (r * s.w.toNat + c) =
          sat8 machineConfig (free (r * s.w.toNat + c)) (s.coef.read (r * s.w.toNat + c))) ∧
      (∀ i, s.len ≤ i → x.read i = s.pix.read i)

/-- 43_block_transform R206, R207: what the threshold does at its edges. -/
def Obligations.QuantizationEdges : Prop :=
  ∀ c q : Flt,
    (fltMagnitude q = 0 → quant binary64 c q = c) ∧ (fltNegative q = true → quant binary64 c q = c) ∧
    (fltIsNaN q = true → quant binary64 c q = c) ∧ (fltIsNaN c = true → quant binary64 c q = c) ∧
    (q = 0x7FF0000000000000 → fltIsFinite c = true → quant binary64 c q = 0) ∧
    (q = fltAbs c → quant binary64 c q = c) ∧ (quant binary64 c q = 0 ∨ quant binary64 c q = c)

/-- 43_block_transform R209 (a): over the same coefficients, a coefficient that one threshold zeroes
is zeroed by every ordered larger one, so the zeros never become fewer. -/
def Obligations.LargerThresholdZeroesMore : Prop :=
  ∀ (coefficients : List Flt) (q₁ q₂ : Flt), fltIsNaN q₁ = false → fltIsNaN q₂ = false →
    fltKey q₁ ≤ fltKey q₂ →
    (∀ c, quant binary64 c q₁ = 0 → quant binary64 c q₂ = 0) ∧
    (coefficients.filter fun c => quant binary64 c q₁ == 0).length ≤
      (coefficients.filter fun c => quant binary64 c q₂ == 0).length

/-- 43_block_transform R211, R212: after `XFWD.DCT` then `XINV.DCT` with `W`, `H`, `BLK` and `COEF`
untouched in between, the partial region is restored exactly, whatever the kernels and `Q`. -/
def Obligations.PartialRegionIsRestored : Prop :=
  ∀ s : State, s.len ≤ 2 ^ 32 - 1 → 1 ≤ s.blk.toNat → s.blk.toNat ≤ 64 →
    s.blk.toNat ≤ s.w.toNat → s.blk.toNat ≤ s.h.toNat →
    ∃ t, exec .xfwdDct s = .next t ∧
      ∀ u : State, u.w = t.w → u.h = t.h → u.blk = t.blk →
        (∀ i < s.len, u.coef.read i = t.coef.read i) →
        ∃ v, exec .xinvDct u = .next v ∧ v.status.err = u.status.err ∧
          ∀ r < s.h.toNat, ∀ c < s.w.toNat,
            (s.h.toNat / s.blk.toNat * s.blk.toNat ≤ r ∨
              s.w.toNat / s.blk.toNat * s.blk.toNat ≤ c) →
            v.pix.read (r * s.w.toNat + c) = s.pix.read (r * s.w.toNat + c)

/-- 43_block_transform R203, R207, R212: when nothing is zeroed, no coefficient of a full block being
below `Q` in magnitude, the same sequence restores each full block to within `TOL = num / den`, for
kernels with `K_RT(TOL)`. -/
def Obligations.BlockRoundTripWithinTolerance : Prop :=
  ∀ (num den : Nat) (s : State), 1 ≤ den → BlockRoundTrip machineConfig num den →
    s.len ≤ 2 ^ 32 - 1 → 1 ≤ s.blk.toNat → s.blk.toNat ≤ 64 → s.blk.toNat ≤ s.w.toNat →
    s.blk.toNat ≤ s.h.toNat →
    let n := s.blk.toNat
    let at' := fun bi bj x y => (bi * n + x) * s.w.toNat + (bj * n + y)
    let block := fun bi bj => (List.range (n * n)).map fun k =>
      fltOfByte (s.pix.read (at' bi bj (k / n) (k % n)))
    (∀ bi < s.h.toNat / n, ∀ bj < s.w.toNat / n, ∀ u < n, ∀ v < n,
      fltLt (fltAbs (machineConfig.dctFwd n (block bi bj) u v)) s.q = false) →
    ∃ t, exec .xfwdDct s = .next t ∧
      ∀ u : State, u.w = t.w → u.h = t.h → u.blk = t.blk →
        (∀ i < s.len, u.coef.read i = t.coef.read i) →
        ∃ v, exec .xinvDct u = .next v ∧
          ∀ bi < s.h.toNat / n, ∀ bj < s.w.toNat / n,
            meanDifferenceAtMost num den ((List.range (n * n)).map fun k =>
              (s.pix.read (at' bi bj (k / n) (k % n)), v.pix.read (at' bi bj (k / n) (k % n))))

/-- 43_block_transform R211: the default `round8` is nearest, ties to even; it is monotone on the
finite values and leaves the samples' values unchanged. -/
def Obligations.DefaultRoundingIsNearestEven : Prop :=
  (∀ x : Flt, fltIsFinite x = true →
    2 * (fltFixed x - fltRoundNearestEven x * 2 ^ 1074).natAbs ≤ 2 ^ 1074 ∧
    (2 * (fltFixed x - fltRoundNearestEven x * 2 ^ 1074).natAbs = 2 ^ 1074 →
      fltRoundNearestEven x % 2 = 0)) ∧
  (∀ x y : Flt, fltIsFinite x = true → fltIsFinite y = true → fltKey x ≤ fltKey y →
    fltRoundNearestEven x ≤ fltRoundNearestEven y) ∧
  (∀ b : Byte, fltRoundNearestEven (fltOfByte b) = b.toNat)

/-- 43_block_transform R211: `sat8` on finite values, infinities and NaN, at any parameters. -/
def Obligations.SampleConversion : Prop :=
  ∀ (c : Config) (free : Byte) (x : Flt),
    (c.flt.isFinite x = true →
      ((sat8 c free x).toNat : Int) = min 255 (max 0 (c.round8 x))) ∧
    (c.flt.isNaN x = false → c.flt.isInf x = true →
      sat8 c free x = if c.flt.isNegative x then 0 else 255) ∧
    (c.flt.isNaN x = true → sat8 c free x = free) ∧
    (c.flt.isFinite x = true ∨ c.flt.isInf x = true ∨ c.flt.isNaN x = true)

/-! ### Wavelet transform -/

/-- 44_wavelet_transform R231, R234: `XFWD.HAAR` on even sizes: one element of each subband a cell. -/
def Obligations.XfwdHaarWritesTheSubbands : Prop :=
  ∀ s : State, s.len ≤ 2 ^ 32 - 1 → 2 ≤ s.w.toNat → 2 ≤ s.h.toNat → s.w.toNat % 2 = 0 →
    s.h.toNat % 2 = 0 →
    ∃ a h v d : Space 64,
      exec .xfwdHaar s = .next { s with
        suba := a
        subh := h
        subv := v
        subd := d
        status := { s.status with busy := false, done := true } } ∧
      (∀ i < s.h.toNat / 2, ∀ j < s.w.toNat / 2,
        let sample := fun x y => fltOfByte (s.pix.read ((2 * i + x) * s.w.toNat + (2 * j + y)))
        let k := i * (s.w.toNat / 2) + j
        (a.read k, h.read k, v.read k, d.read k) =
          machineConfig.haarFwd (sample 0 0) (sample 0 1) (sample 1 0) (sample 1 1)) ∧
      (∀ k, s.len / 4 ≤ k → a.read k = s.suba.read k ∧ h.read k = s.subh.read k ∧
        v.read k = s.subv.read k ∧ d.read k = s.subd.read k)

/-- 44_wavelet_transform R231, R236: `XINV.HAAR` on even sizes: the four samples of each cell. -/
def Obligations.XinvHaarWritesTheSamples : Prop :=
  ∀ s : State, s.len ≤ 2 ^ 32 - 1 → 2 ≤ s.w.toNat → 2 ≤ s.h.toNat → s.w.toNat % 2 = 0 →
    s.h.toNat % 2 = 0 →
    ∃ (x : Space 8) (drawn : Nat) (free : Nat → Byte),
      exec .xinvHaar s = .next { s with
        pix := x
        draws := drawn
        status := { s.status with busy := false, done := true } } ∧
      (∀ i < s.h.toNat / 2, ∀ j < s.w.toNat / 2,
        let k := i * (s.w.toNat / 2) + j
        let at' := fun x y => (2 * i + x) * s.w.toNat + (2 * j + y)
        let r := machineConfig.haarInv (s.suba.read k) (s.subh.read k) (s.subv.read k)
          (s.subd.read k)
        x.read (at' 0 0) = sat8 machineConfig (free (at' 0 0)) r.1 ∧
        x.read (at' 0 1) = sat8 machineConfig (free (at' 0 1)) r.2.1 ∧
        x.read (at' 1 0) = sat8 machineConfig (free (at' 1 0)) r.2.2.1 ∧
        x.read (at' 1 1) = sat8 machineConfig (free (at' 1 1)) r.2.2.2) ∧
      (∀ i, s.len ≤ i → x.read i = s.pix.read i)

/-- 44_wavelet_transform R237: `XFWD.HAAR` then `XINV.HAAR`, with `W`, `H` and the subbands
untouched, restores each cell to within `TOL = num / den`, for kernels with `H_RT(TOL)`. -/
def Obligations.HaarRoundTripWithinTolerance : Prop :=
  ∀ (num den : Nat) (s : State), 1 ≤ den → CellRoundTrip machineConfig num den →
    s.len ≤ 2 ^ 32 - 1 → 2 ≤ s.w.toNat → 2 ≤ s.h.toNat → s.w.toNat % 2 = 0 →
    s.h.toNat % 2 = 0 →
    ∃ t, exec .xfwdHaar s = .next t ∧
      ∀ u : State, u.w = t.w → u.h = t.h →
        (∀ k < s.len / 4, u.suba.read k = t.suba.read k ∧ u.subh.read k = t.subh.read k ∧
          u.subv.read k = t.subv.read k ∧ u.subd.read k = t.subd.read k) →
        ∃ v, exec .xinvHaar u = .next v ∧ v.status.err = u.status.err ∧
          ∀ i < s.h.toNat / 2, ∀ j < s.w.toNat / 2,
            meanDifferenceAtMost num den ([(0, 0), (0, 1), (1, 0), (1, 1)].map fun p =>
              let k := (2 * i + p.1) * s.w.toNat + (2 * j + p.2)
              (s.pix.read k, v.pix.read k))

/-- 44_wavelet_transform R232: with the reference kernels in binary64 the round trip of a cell of
samples is exact, `H_RT(0)`. The reference kernels are general knowledge (log 8), and `exec` does not
use them. -/
def Obligations.ReferenceHaarIsExact : Prop := CellRoundTrip referenceConfig 0 1
end

