-- ==== Sys2Proof/Laws/Memory.lean ====
section
/-! SUPPORT. The laws of a data space: read after write, what a range write does, and that every
operation keeps the canonical form and the bounds. -/

namespace Sys2Proof.Machine

variable {width : Nat}

theorem mem_symbols {sym : Nat} : sym ∈ symbols ↔ sym < 256 := by
  unfold symbols; exact List.mem_range

@[simp] theorem length_symbols : symbols.length = 256 := by
  unfold symbols; exact List.length_range

@[simp] theorem getElem?_symbols {sym : Nat} (h : sym < 256) : symbols[sym]? = some sym := by
  unfold symbols; simp [h]

@[simp] theorem findCell_putCell_same (i : Nat) (v : BitVec width) (l : List (Nat × BitVec width)) :
    findCell i (putCell i v l) = some v := by
  induction l with
  | nil => simp [putCell, findCell]
  | cons c rest ih =>
    obtain ⟨j, x⟩ := c
    unfold putCell
    split
    · simp [findCell]
    · split
      · simp [findCell]
      · next _ hne => simp [findCell, hne, ih]

@[simp] theorem findCell_putCell_ne {i k : Nat} (h : k ≠ i) (v : BitVec width)
    (l : List (Nat × BitVec width)) : findCell k (putCell i v l) = findCell k l := by
  induction l with
  | nil => simp [putCell, findCell, h]
  | cons c rest ih =>
    obtain ⟨j, x⟩ := c
    unfold putCell
    split
    · simp [findCell, h]
    · split
      · next heq => subst heq; simp [findCell, h]
      · simp only [findCell, ih]

/-- A read of a fresh space is the free value of its draw. -/
@[simp] theorem Space.read_fresh (epoch i : Nat) :
    (Space.fresh epoch : Space width).read i = Config.freeBits width epoch i := rfl

@[simp] theorem Space.read_write_same (sp : Space width) (i : Nat) (v : BitVec width) :
    (sp.write i v).read i = v := by simp [Space.read, Space.write]

@[simp] theorem Space.read_write_ne (sp : Space width) {i k : Nat} (h : k ≠ i) (v : BitVec width) :
    (sp.write i v).read k = sp.read k := by simp [Space.read, Space.write, h]

/-- All that one write does to what is read. -/
theorem Space.read_write (sp : Space width) (i k : Nat) (v : BitVec width) :
    (sp.write i v).read k = if k = i then v else sp.read k := by
  split
  · next h => subst h; simp
  · next h => simp [h]

/-- All that a range write does to what is read: the values at their places, nothing else. -/
theorem Space.read_writeFrom (sp : Space width) (i k : Nat) (vs : List (BitVec width)) :
    (sp.writeFrom i vs).read k =
      if i ≤ k ∧ k < i + vs.length then vs.getD (k - i) 0 else sp.read k := by
  induction vs generalizing sp i with
  | nil =>
    have h : ¬(i ≤ k ∧ k < i + ([] : List (BitVec width)).length) := by
      simp only [List.length_nil]; omega
    rw [if_neg h, Space.writeFrom]
  | cons v rest ih =>
    simp only [Space.writeFrom, ih, List.length_cons, Space.read_write]
    by_cases hk : k = i
    · subst hk
      simp
    · by_cases h : i + 1 ≤ k ∧ k < i + 1 + rest.length
      · have h' : i ≤ k ∧ k < i + (rest.length + 1) := by omega
        have e : k - i = (k - (i + 1)) + 1 := by omega
        rw [if_pos h, if_pos h', e, List.getD_cons_succ]
      · have h' : ¬(i ≤ k ∧ k < i + (rest.length + 1)) := by omega
        rw [if_neg h, if_neg h', if_neg hk]

/-- A range write from index 0 on, read at an index of the range. -/
theorem Space.read_writeFrom_zero (sp : Space width) {k : Nat} (vs : List (BitVec width))
    (h : k < vs.length) : (sp.writeFrom 0 vs).read k = vs[k] := by
  rw [Space.read_writeFrom, if_pos ⟨Nat.zero_le k, by omega⟩]
  simp [h]

/-- A range write from index 0 on leaves every later element as it was. -/
theorem Space.read_writeFrom_beyond (sp : Space width) {k : Nat} (vs : List (BitVec width))
    (h : vs.length ≤ k) : (sp.writeFrom 0 vs).read k = sp.read k := by
  rw [Space.read_writeFrom, if_neg (by omega)]

@[simp] theorem Space.epoch_write (sp : Space width) (i : Nat) (v : BitVec width) :
    (sp.write i v).epoch = sp.epoch := rfl

@[simp] theorem Space.epoch_writeFrom (sp : Space width) (i : Nat) (vs : List (BitVec width)) :
    (sp.writeFrom i vs).epoch = sp.epoch := by
  induction vs generalizing sp i with
  | nil => rfl
  | cons v rest ih => rw [Space.writeFrom, ih, Space.epoch_write]

@[simp] theorem Space.epoch_fresh (epoch : Nat) : (Space.fresh epoch : Space width).epoch = epoch :=
  rfl

theorem risingFrom_mono {a b : Nat} (h : a ≤ b) (l : List (Nat × BitVec width)) :
    risingFrom b l = true → risingFrom a l = true := by
  cases l with
  | nil => simp [risingFrom]
  | cons c rest =>
    simp only [risingFrom, Bool.and_eq_true, decide_eq_true_eq]
    rintro ⟨h1, h2⟩
    exact ⟨by omega, h2⟩

theorem risingFrom_putCell {a i : Nat} (hi : a ≤ i) (v : BitVec width)
    (l : List (Nat × BitVec width)) : risingFrom a l = true → risingFrom a (putCell i v l) = true := by
  induction l generalizing a with
  | nil => simp [putCell, risingFrom, hi]
  | cons c rest ih =>
    obtain ⟨j, x⟩ := c
    simp only [risingFrom, Bool.and_eq_true, decide_eq_true_eq]
    rintro ⟨h1, h2⟩
    unfold putCell
    split
    · next hlt =>
      simp only [risingFrom, Bool.and_eq_true, decide_eq_true_eq]
      exact ⟨hi, by omega, h2⟩
    · split
      · next heq =>
        subst heq
        simp only [risingFrom, Bool.and_eq_true, decide_eq_true_eq]
        exact ⟨hi, h2⟩
      · next hge hne =>
        simp only [risingFrom, Bool.and_eq_true, decide_eq_true_eq]
        exact ⟨h1, ih (by omega) h2⟩

@[simp] theorem Space.wf_fresh (epoch : Nat) : (Space.fresh epoch : Space width).wf = true := rfl

/-- A write keeps the canonical form. -/
theorem Space.wf_write {sp : Space width} (h : sp.wf = true) (i : Nat) (v : BitVec width) :
    (sp.write i v).wf = true := risingFrom_putCell (Nat.zero_le i) v _ h

/-- A range write keeps the canonical form. -/
theorem Space.wf_writeFrom {sp : Space width} (h : sp.wf = true) (i : Nat)
    (vs : List (BitVec width)) : (sp.writeFrom i vs).wf = true := by
  induction vs generalizing sp i with
  | nil => exact h
  | cons v rest ih => exact ih (Space.wf_write h i v) (i + 1)

@[simp] theorem Space.within_fresh (epoch size : Nat) :
    (Space.fresh epoch : Space width).within size = true := rfl

theorem all_putCell {size i : Nat} (hi : i < size) (v : BitVec width)
    (l : List (Nat × BitVec width)) :
    (l.all fun cell => decide (cell.1 < size)) = true →
      ((putCell i v l).all fun cell => decide (cell.1 < size)) = true := by
  induction l with
  | nil => simp [putCell, hi]
  | cons c rest ih =>
    obtain ⟨j, x⟩ := c
    simp only [List.all_cons, Bool.and_eq_true, decide_eq_true_eq]
    rintro ⟨h1, h2⟩
    unfold putCell
    split
    · simp only [List.all_cons, Bool.and_eq_true, decide_eq_true_eq]
      exact ⟨hi, h1, h2⟩
    · split
      · simp only [List.all_cons, Bool.and_eq_true, decide_eq_true_eq]
        exact ⟨hi, h2⟩
      · simp only [List.all_cons, Bool.and_eq_true, decide_eq_true_eq]
        exact ⟨h1, ih h2⟩

/-- A write inside the space lists nothing outside it. -/
theorem Space.within_write {sp : Space width} {size i : Nat} (h : sp.within size = true)
    (hi : i < size) (v : BitVec width) : (sp.write i v).within size = true :=
  all_putCell hi v _ h

/-- A range write inside the space lists nothing outside it. -/
theorem Space.within_writeFrom {sp : Space width} {size i : Nat} {vs : List (BitVec width)}
    (h : sp.within size = true) (hi : i + vs.length ≤ size) :
    (sp.writeFrom i vs).within size = true := by
  induction vs generalizing sp i with
  | nil => exact h
  | cons v rest ih =>
    simp only [List.length_cons] at hi
    exact ih (Space.within_write h (by omega) v) (by omega)

@[simp] theorem Space.length_readUpTo (sp : Space width) (n : Nat) : (sp.readUpTo n).length = n := by
  simp [Space.readUpTo]

@[simp] theorem Space.getElem_readUpTo (sp : Space width) (n k : Nat) (h : k < (sp.readUpTo n).length) :
    (sp.readUpTo n)[k] = sp.read k := by
  simp [Space.readUpTo]

/-- Reading back a range just written from index 0 gives the values written. -/
theorem Space.readUpTo_writeFrom (sp : Space width) (vs : List (BitVec width)) :
    (sp.writeFrom 0 vs).readUpTo vs.length = vs := by
  apply List.ext_getElem
  · simp
  · intro k h1 h2
    rw [Space.getElem_readUpTo, Space.read_writeFrom_zero sp vs h2]

/-- Two spaces that read alike below `n` give the same range. -/
theorem Space.readUpTo_congr {sp sp' : Space width} {n : Nat}
    (h : ∀ k < n, sp.read k = sp'.read k) : sp.readUpTo n = sp'.readUpTo n := by
  apply List.ext_getElem
  · simp
  · intro k h1 _
    rw [Space.getElem_readUpTo, Space.getElem_readUpTo]
    exact h k (by simpa using h1)

end Sys2Proof.Machine
end

