-- ==== Sys2Proof/Laws/State.lean ====
section
/-! SUPPORT. What each named update leaves in each field of the state, by definition. -/

namespace Sys2Proof.Machine

@[simp] theorem State.issue_status (word : CommandWord) (s : State) :
    (s.issue word).status = { s.status with busy := true, done := false, err := false } := rfl
@[simp] theorem State.issue_errcode (word : CommandWord) (s : State) :
    (s.issue word).errcode = 0 := rfl
@[simp] theorem State.issue_ie (word : CommandWord) (s : State) : (s.issue word).ie = s.ie := rfl
@[simp] theorem State.issue_w (word : CommandWord) (s : State) : (s.issue word).w = s.w := rfl
@[simp] theorem State.issue_h (word : CommandWord) (s : State) : (s.issue word).h = s.h := rfl
@[simp] theorem State.issue_blk (word : CommandWord) (s : State) : (s.issue word).blk = s.blk := rfl
@[simp] theorem State.issue_q (word : CommandWord) (s : State) : (s.issue word).q = s.q := rfl
@[simp] theorem State.issue_nruns (word : CommandWord) (s : State) :
    (s.issue word).nruns = s.nruns := rfl
@[simp] theorem State.issue_bitlen (word : CommandWord) (s : State) :
    (s.issue word).bitlen = s.bitlen := rfl
@[simp] theorem State.issue_nnodes (word : CommandWord) (s : State) :
    (s.issue word).nnodes = s.nnodes := rfl
@[simp] theorem State.issue_root (word : CommandWord) (s : State) :
    (s.issue word).root = s.root := rfl
@[simp] theorem State.issue_lcmd (word : CommandWord) (s : State) :
    (s.issue word).lcmd = word := rfl
@[simp] theorem State.issue_pix (word : CommandWord) (s : State) : (s.issue word).pix = s.pix := rfl
@[simp] theorem State.issue_runs (word : CommandWord) (s : State) :
    (s.issue word).runs = s.runs := rfl
@[simp] theorem State.issue_freq (word : CommandWord) (s : State) :
    (s.issue word).freq = s.freq := rfl
@[simp] theorem State.issue_tree (word : CommandWord) (s : State) :
    (s.issue word).tree = s.tree := rfl
@[simp] theorem State.issue_clen (word : CommandWord) (s : State) :
    (s.issue word).clen = s.clen := rfl
@[simp] theorem State.issue_cval (word : CommandWord) (s : State) :
    (s.issue word).cval = s.cval := rfl
@[simp] theorem State.issue_bits (word : CommandWord) (s : State) :
    (s.issue word).bits = s.bits := rfl
@[simp] theorem State.issue_coef (word : CommandWord) (s : State) :
    (s.issue word).coef = s.coef := rfl
@[simp] theorem State.issue_suba (word : CommandWord) (s : State) :
    (s.issue word).suba = s.suba := rfl
@[simp] theorem State.issue_subh (word : CommandWord) (s : State) :
    (s.issue word).subh = s.subh := rfl
@[simp] theorem State.issue_subv (word : CommandWord) (s : State) :
    (s.issue word).subv = s.subv := rfl
@[simp] theorem State.issue_subd (word : CommandWord) (s : State) :
    (s.issue word).subd = s.subd := rfl
@[simp] theorem State.issue_inReset (word : CommandWord) (s : State) :
    (s.issue word).inReset = s.inReset := rfl
@[simp] theorem State.issue_busData (word : CommandWord) (s : State) :
    (s.issue word).busData = s.busData := rfl
@[simp] theorem State.issue_draws (word : CommandWord) (s : State) :
    (s.issue word).draws = s.draws := rfl
@[simp] theorem State.issue_moves (word : CommandWord) (s : State) :
    (s.issue word).moves = s.moves := rfl

@[simp] theorem State.complete_status (s : State) :
    s.complete.status = { s.status with busy := false, done := true } := rfl
@[simp] theorem State.complete_errcode (s : State) : s.complete.errcode = s.errcode := rfl
@[simp] theorem State.complete_ie (s : State) : s.complete.ie = s.ie := rfl
@[simp] theorem State.complete_w (s : State) : s.complete.w = s.w := rfl
@[simp] theorem State.complete_h (s : State) : s.complete.h = s.h := rfl
@[simp] theorem State.complete_blk (s : State) : s.complete.blk = s.blk := rfl
@[simp] theorem State.complete_q (s : State) : s.complete.q = s.q := rfl
@[simp] theorem State.complete_nruns (s : State) : s.complete.nruns = s.nruns := rfl
@[simp] theorem State.complete_bitlen (s : State) : s.complete.bitlen = s.bitlen := rfl
@[simp] theorem State.complete_nnodes (s : State) : s.complete.nnodes = s.nnodes := rfl
@[simp] theorem State.complete_root (s : State) : s.complete.root = s.root := rfl
@[simp] theorem State.complete_lcmd (s : State) : s.complete.lcmd = s.lcmd := rfl
@[simp] theorem State.complete_pix (s : State) : s.complete.pix = s.pix := rfl
@[simp] theorem State.complete_runs (s : State) : s.complete.runs = s.runs := rfl
@[simp] theorem State.complete_freq (s : State) : s.complete.freq = s.freq := rfl
@[simp] theorem State.complete_tree (s : State) : s.complete.tree = s.tree := rfl
@[simp] theorem State.complete_clen (s : State) : s.complete.clen = s.clen := rfl
@[simp] theorem State.complete_cval (s : State) : s.complete.cval = s.cval := rfl
@[simp] theorem State.complete_bits (s : State) : s.complete.bits = s.bits := rfl
@[simp] theorem State.complete_coef (s : State) : s.complete.coef = s.coef := rfl
@[simp] theorem State.complete_suba (s : State) : s.complete.suba = s.suba := rfl
@[simp] theorem State.complete_subh (s : State) : s.complete.subh = s.subh := rfl
@[simp] theorem State.complete_subv (s : State) : s.complete.subv = s.subv := rfl
@[simp] theorem State.complete_subd (s : State) : s.complete.subd = s.subd := rfl
@[simp] theorem State.complete_inReset (s : State) : s.complete.inReset = s.inReset := rfl
@[simp] theorem State.complete_busData (s : State) : s.complete.busData = s.busData := rfl
@[simp] theorem State.complete_draws (s : State) : s.complete.draws = s.draws := rfl
@[simp] theorem State.complete_moves (s : State) : s.complete.moves = s.moves := rfl

@[simp] theorem State.fail_status (kind : FailureKind) (s : State) :
    (s.fail kind).status = { s.status with busy := false, done := true, err := true } := rfl
@[simp] theorem State.fail_errcode (kind : FailureKind) (s : State) :
    (s.fail kind).errcode = kind.code := rfl
@[simp] theorem State.fail_ie (kind : FailureKind) (s : State) : (s.fail kind).ie = s.ie := rfl
@[simp] theorem State.fail_w (kind : FailureKind) (s : State) : (s.fail kind).w = s.w := rfl
@[simp] theorem State.fail_h (kind : FailureKind) (s : State) : (s.fail kind).h = s.h := rfl
@[simp] theorem State.fail_blk (kind : FailureKind) (s : State) : (s.fail kind).blk = s.blk := rfl
@[simp] theorem State.fail_q (kind : FailureKind) (s : State) : (s.fail kind).q = s.q := rfl
@[simp] theorem State.fail_nruns (kind : FailureKind) (s : State) :
    (s.fail kind).nruns = s.nruns := rfl
@[simp] theorem State.fail_bitlen (kind : FailureKind) (s : State) :
    (s.fail kind).bitlen = s.bitlen := rfl
@[simp] theorem State.fail_nnodes (kind : FailureKind) (s : State) :
    (s.fail kind).nnodes = s.nnodes := rfl
@[simp] theorem State.fail_root (kind : FailureKind) (s : State) :
    (s.fail kind).root = s.root := rfl
@[simp] theorem State.fail_lcmd (kind : FailureKind) (s : State) :
    (s.fail kind).lcmd = s.lcmd := rfl
@[simp] theorem State.fail_pix (kind : FailureKind) (s : State) : (s.fail kind).pix = s.pix := rfl
@[simp] theorem State.fail_runs (kind : FailureKind) (s : State) :
    (s.fail kind).runs = s.runs := rfl
@[simp] theorem State.fail_freq (kind : FailureKind) (s : State) :
    (s.fail kind).freq = s.freq := rfl
@[simp] theorem State.fail_tree (kind : FailureKind) (s : State) :
    (s.fail kind).tree = s.tree := rfl
@[simp] theorem State.fail_clen (kind : FailureKind) (s : State) :
    (s.fail kind).clen = s.clen := rfl
@[simp] theorem State.fail_cval (kind : FailureKind) (s : State) :
    (s.fail kind).cval = s.cval := rfl
@[simp] theorem State.fail_bits (kind : FailureKind) (s : State) :
    (s.fail kind).bits = s.bits := rfl
@[simp] theorem State.fail_coef (kind : FailureKind) (s : State) :
    (s.fail kind).coef = s.coef := rfl
@[simp] theorem State.fail_suba (kind : FailureKind) (s : State) :
    (s.fail kind).suba = s.suba := rfl
@[simp] theorem State.fail_subh (kind : FailureKind) (s : State) :
    (s.fail kind).subh = s.subh := rfl
@[simp] theorem State.fail_subv (kind : FailureKind) (s : State) :
    (s.fail kind).subv = s.subv := rfl
@[simp] theorem State.fail_subd (kind : FailureKind) (s : State) :
    (s.fail kind).subd = s.subd := rfl
@[simp] theorem State.fail_inReset (kind : FailureKind) (s : State) :
    (s.fail kind).inReset = s.inReset := rfl
@[simp] theorem State.fail_busData (kind : FailureKind) (s : State) :
    (s.fail kind).busData = s.busData := rfl
@[simp] theorem State.fail_draws (kind : FailureKind) (s : State) :
    (s.fail kind).draws = s.draws := rfl
@[simp] theorem State.fail_moves (kind : FailureKind) (s : State) :
    (s.fail kind).moves = s.moves := rfl

@[simp] theorem State.setHaz_status (s : State) :
    s.setHaz.status = { s.status with haz := true } := rfl
@[simp] theorem State.setHaz_errcode (s : State) : s.setHaz.errcode = s.errcode := rfl
@[simp] theorem State.setHaz_ie (s : State) : s.setHaz.ie = s.ie := rfl
@[simp] theorem State.setHaz_w (s : State) : s.setHaz.w = s.w := rfl
@[simp] theorem State.setHaz_h (s : State) : s.setHaz.h = s.h := rfl
@[simp] theorem State.setHaz_blk (s : State) : s.setHaz.blk = s.blk := rfl
@[simp] theorem State.setHaz_q (s : State) : s.setHaz.q = s.q := rfl
@[simp] theorem State.setHaz_nruns (s : State) : s.setHaz.nruns = s.nruns := rfl
@[simp] theorem State.setHaz_bitlen (s : State) : s.setHaz.bitlen = s.bitlen := rfl
@[simp] theorem State.setHaz_nnodes (s : State) : s.setHaz.nnodes = s.nnodes := rfl
@[simp] theorem State.setHaz_root (s : State) : s.setHaz.root = s.root := rfl
@[simp] theorem State.setHaz_lcmd (s : State) : s.setHaz.lcmd = s.lcmd := rfl
@[simp] theorem State.setHaz_pix (s : State) : s.setHaz.pix = s.pix := rfl
@[simp] theorem State.setHaz_runs (s : State) : s.setHaz.runs = s.runs := rfl
@[simp] theorem State.setHaz_freq (s : State) : s.setHaz.freq = s.freq := rfl
@[simp] theorem State.setHaz_tree (s : State) : s.setHaz.tree = s.tree := rfl
@[simp] theorem State.setHaz_clen (s : State) : s.setHaz.clen = s.clen := rfl
@[simp] theorem State.setHaz_cval (s : State) : s.setHaz.cval = s.cval := rfl
@[simp] theorem State.setHaz_bits (s : State) : s.setHaz.bits = s.bits := rfl
@[simp] theorem State.setHaz_coef (s : State) : s.setHaz.coef = s.coef := rfl
@[simp] theorem State.setHaz_suba (s : State) : s.setHaz.suba = s.suba := rfl
@[simp] theorem State.setHaz_subh (s : State) : s.setHaz.subh = s.subh := rfl
@[simp] theorem State.setHaz_subv (s : State) : s.setHaz.subv = s.subv := rfl
@[simp] theorem State.setHaz_subd (s : State) : s.setHaz.subd = s.subd := rfl
@[simp] theorem State.setHaz_inReset (s : State) : s.setHaz.inReset = s.inReset := rfl
@[simp] theorem State.setHaz_busData (s : State) : s.setHaz.busData = s.busData := rfl
@[simp] theorem State.setHaz_draws (s : State) : s.setHaz.draws = s.draws := rfl
@[simp] theorem State.setHaz_moves (s : State) : s.setHaz.moves = s.moves := rfl

@[simp] theorem State.writeStatus_status (v : Slot) (s : State) :
    (s.writeStatus v).status = s.status.writeOneToClear v := rfl
@[simp] theorem State.writeStatus_errcode (v : Slot) (s : State) :
    (s.writeStatus v).errcode = s.errcode := rfl
@[simp] theorem State.writeStatus_ie (v : Slot) (s : State) : (s.writeStatus v).ie = s.ie := rfl
@[simp] theorem State.writeStatus_w (v : Slot) (s : State) : (s.writeStatus v).w = s.w := rfl
@[simp] theorem State.writeStatus_h (v : Slot) (s : State) : (s.writeStatus v).h = s.h := rfl
@[simp] theorem State.writeStatus_blk (v : Slot) (s : State) : (s.writeStatus v).blk = s.blk := rfl
@[simp] theorem State.writeStatus_q (v : Slot) (s : State) : (s.writeStatus v).q = s.q := rfl
@[simp] theorem State.writeStatus_nruns (v : Slot) (s : State) :
    (s.writeStatus v).nruns = s.nruns := rfl
@[simp] theorem State.writeStatus_bitlen (v : Slot) (s : State) :
    (s.writeStatus v).bitlen = s.bitlen := rfl
@[simp] theorem State.writeStatus_nnodes (v : Slot) (s : State) :
    (s.writeStatus v).nnodes = s.nnodes := rfl
@[simp] theorem State.writeStatus_root (v : Slot) (s : State) :
    (s.writeStatus v).root = s.root := rfl
@[simp] theorem State.writeStatus_lcmd (v : Slot) (s : State) :
    (s.writeStatus v).lcmd = s.lcmd := rfl
@[simp] theorem State.writeStatus_pix (v : Slot) (s : State) : (s.writeStatus v).pix = s.pix := rfl
@[simp] theorem State.writeStatus_runs (v : Slot) (s : State) :
    (s.writeStatus v).runs = s.runs := rfl
@[simp] theorem State.writeStatus_freq (v : Slot) (s : State) :
    (s.writeStatus v).freq = s.freq := rfl
@[simp] theorem State.writeStatus_tree (v : Slot) (s : State) :
    (s.writeStatus v).tree = s.tree := rfl
@[simp] theorem State.writeStatus_clen (v : Slot) (s : State) :
    (s.writeStatus v).clen = s.clen := rfl
@[simp] theorem State.writeStatus_cval (v : Slot) (s : State) :
    (s.writeStatus v).cval = s.cval := rfl
@[simp] theorem State.writeStatus_bits (v : Slot) (s : State) :
    (s.writeStatus v).bits = s.bits := rfl
@[simp] theorem State.writeStatus_coef (v : Slot) (s : State) :
    (s.writeStatus v).coef = s.coef := rfl
@[simp] theorem State.writeStatus_suba (v : Slot) (s : State) :
    (s.writeStatus v).suba = s.suba := rfl
@[simp] theorem State.writeStatus_subh (v : Slot) (s : State) :
    (s.writeStatus v).subh = s.subh := rfl
@[simp] theorem State.writeStatus_subv (v : Slot) (s : State) :
    (s.writeStatus v).subv = s.subv := rfl
@[simp] theorem State.writeStatus_subd (v : Slot) (s : State) :
    (s.writeStatus v).subd = s.subd := rfl
@[simp] theorem State.writeStatus_inReset (v : Slot) (s : State) :
    (s.writeStatus v).inReset = s.inReset := rfl
@[simp] theorem State.writeStatus_busData (v : Slot) (s : State) :
    (s.writeStatus v).busData = s.busData := rfl
@[simp] theorem State.writeStatus_draws (v : Slot) (s : State) :
    (s.writeStatus v).draws = s.draws := rfl
@[simp] theorem State.writeStatus_moves (v : Slot) (s : State) :
    (s.writeStatus v).moves = s.moves := rfl

@[simp] theorem State.putPix_status (samples : List Byte) (s : State) :
    (s.putPix samples).status = s.status := rfl
@[simp] theorem State.putPix_errcode (samples : List Byte) (s : State) :
    (s.putPix samples).errcode = s.errcode := rfl
@[simp] theorem State.putPix_ie (samples : List Byte) (s : State) :
    (s.putPix samples).ie = s.ie := rfl
@[simp] theorem State.putPix_w (samples : List Byte) (s : State) : (s.putPix samples).w = s.w := rfl
@[simp] theorem State.putPix_h (samples : List Byte) (s : State) : (s.putPix samples).h = s.h := rfl
@[simp] theorem State.putPix_blk (samples : List Byte) (s : State) :
    (s.putPix samples).blk = s.blk := rfl
@[simp] theorem State.putPix_q (samples : List Byte) (s : State) : (s.putPix samples).q = s.q := rfl
@[simp] theorem State.putPix_nruns (samples : List Byte) (s : State) :
    (s.putPix samples).nruns = s.nruns := rfl
@[simp] theorem State.putPix_bitlen (samples : List Byte) (s : State) :
    (s.putPix samples).bitlen = s.bitlen := rfl
@[simp] theorem State.putPix_nnodes (samples : List Byte) (s : State) :
    (s.putPix samples).nnodes = s.nnodes := rfl
@[simp] theorem State.putPix_root (samples : List Byte) (s : State) :
    (s.putPix samples).root = s.root := rfl
@[simp] theorem State.putPix_lcmd (samples : List Byte) (s : State) :
    (s.putPix samples).lcmd = s.lcmd := rfl
@[simp] theorem State.putPix_pix (samples : List Byte) (s : State) :
    (s.putPix samples).pix = s.pix.writeFrom 0 samples := rfl
@[simp] theorem State.putPix_runs (samples : List Byte) (s : State) :
    (s.putPix samples).runs = s.runs := rfl
@[simp] theorem State.putPix_freq (samples : List Byte) (s : State) :
    (s.putPix samples).freq = s.freq := rfl
@[simp] theorem State.putPix_tree (samples : List Byte) (s : State) :
    (s.putPix samples).tree = s.tree := rfl
@[simp] theorem State.putPix_clen (samples : List Byte) (s : State) :
    (s.putPix samples).clen = s.clen := rfl
@[simp] theorem State.putPix_cval (samples : List Byte) (s : State) :
    (s.putPix samples).cval = s.cval := rfl
@[simp] theorem State.putPix_bits (samples : List Byte) (s : State) :
    (s.putPix samples).bits = s.bits := rfl
@[simp] theorem State.putPix_coef (samples : List Byte) (s : State) :
    (s.putPix samples).coef = s.coef := rfl
@[simp] theorem State.putPix_suba (samples : List Byte) (s : State) :
    (s.putPix samples).suba = s.suba := rfl
@[simp] theorem State.putPix_subh (samples : List Byte) (s : State) :
    (s.putPix samples).subh = s.subh := rfl
@[simp] theorem State.putPix_subv (samples : List Byte) (s : State) :
    (s.putPix samples).subv = s.subv := rfl
@[simp] theorem State.putPix_subd (samples : List Byte) (s : State) :
    (s.putPix samples).subd = s.subd := rfl
@[simp] theorem State.putPix_inReset (samples : List Byte) (s : State) :
    (s.putPix samples).inReset = s.inReset := rfl
@[simp] theorem State.putPix_busData (samples : List Byte) (s : State) :
    (s.putPix samples).busData = s.busData := rfl
@[simp] theorem State.putPix_draws (samples : List Byte) (s : State) :
    (s.putPix samples).draws = s.draws := rfl
@[simp] theorem State.putPix_moves (samples : List Byte) (s : State) :
    (s.putPix samples).moves = s.moves := rfl

@[simp] theorem State.putRuns_status (list : List Run) (s : State) :
    (s.putRuns list).status = s.status := rfl
@[simp] theorem State.putRuns_errcode (list : List Run) (s : State) :
    (s.putRuns list).errcode = s.errcode := rfl
@[simp] theorem State.putRuns_ie (list : List Run) (s : State) : (s.putRuns list).ie = s.ie := rfl
@[simp] theorem State.putRuns_w (list : List Run) (s : State) : (s.putRuns list).w = s.w := rfl
@[simp] theorem State.putRuns_h (list : List Run) (s : State) : (s.putRuns list).h = s.h := rfl
@[simp] theorem State.putRuns_blk (list : List Run) (s : State) :
    (s.putRuns list).blk = s.blk := rfl
@[simp] theorem State.putRuns_q (list : List Run) (s : State) : (s.putRuns list).q = s.q := rfl
@[simp] theorem State.putRuns_nruns (list : List Run) (s : State) :
    (s.putRuns list).nruns = BitVec.ofNat 32 list.length := rfl
@[simp] theorem State.putRuns_bitlen (list : List Run) (s : State) :
    (s.putRuns list).bitlen = s.bitlen := rfl
@[simp] theorem State.putRuns_nnodes (list : List Run) (s : State) :
    (s.putRuns list).nnodes = s.nnodes := rfl
@[simp] theorem State.putRuns_root (list : List Run) (s : State) :
    (s.putRuns list).root = s.root := rfl
@[simp] theorem State.putRuns_lcmd (list : List Run) (s : State) :
    (s.putRuns list).lcmd = s.lcmd := rfl
@[simp] theorem State.putRuns_pix (list : List Run) (s : State) :
    (s.putRuns list).pix = s.pix := rfl
@[simp] theorem State.putRuns_runs (list : List Run) (s : State) :
    (s.putRuns list).runs = s.runs.writeFrom 0 (list.map Run.pack) := rfl
@[simp] theorem State.putRuns_freq (list : List Run) (s : State) :
    (s.putRuns list).freq = s.freq := rfl
@[simp] theorem State.putRuns_tree (list : List Run) (s : State) :
    (s.putRuns list).tree = s.tree := rfl
@[simp] theorem State.putRuns_clen (list : List Run) (s : State) :
    (s.putRuns list).clen = s.clen := rfl
@[simp] theorem State.putRuns_cval (list : List Run) (s : State) :
    (s.putRuns list).cval = s.cval := rfl
@[simp] theorem State.putRuns_bits (list : List Run) (s : State) :
    (s.putRuns list).bits = s.bits := rfl
@[simp] theorem State.putRuns_coef (list : List Run) (s : State) :
    (s.putRuns list).coef = s.coef := rfl
@[simp] theorem State.putRuns_suba (list : List Run) (s : State) :
    (s.putRuns list).suba = s.suba := rfl
@[simp] theorem State.putRuns_subh (list : List Run) (s : State) :
    (s.putRuns list).subh = s.subh := rfl
@[simp] theorem State.putRuns_subv (list : List Run) (s : State) :
    (s.putRuns list).subv = s.subv := rfl
@[simp] theorem State.putRuns_subd (list : List Run) (s : State) :
    (s.putRuns list).subd = s.subd := rfl
@[simp] theorem State.putRuns_inReset (list : List Run) (s : State) :
    (s.putRuns list).inReset = s.inReset := rfl
@[simp] theorem State.putRuns_busData (list : List Run) (s : State) :
    (s.putRuns list).busData = s.busData := rfl
@[simp] theorem State.putRuns_draws (list : List Run) (s : State) :
    (s.putRuns list).draws = s.draws := rfl
@[simp] theorem State.putRuns_moves (list : List Run) (s : State) :
    (s.putRuns list).moves = s.moves := rfl

@[simp] theorem State.putFreq_status (count : Nat → Nat) (s : State) :
    (s.putFreq count).status = s.status := rfl
@[simp] theorem State.putFreq_errcode (count : Nat → Nat) (s : State) :
    (s.putFreq count).errcode = s.errcode := rfl
@[simp] theorem State.putFreq_ie (count : Nat → Nat) (s : State) :
    (s.putFreq count).ie = s.ie := rfl
@[simp] theorem State.putFreq_w (count : Nat → Nat) (s : State) : (s.putFreq count).w = s.w := rfl
@[simp] theorem State.putFreq_h (count : Nat → Nat) (s : State) : (s.putFreq count).h = s.h := rfl
@[simp] theorem State.putFreq_blk (count : Nat → Nat) (s : State) :
    (s.putFreq count).blk = s.blk := rfl
@[simp] theorem State.putFreq_q (count : Nat → Nat) (s : State) : (s.putFreq count).q = s.q := rfl
@[simp] theorem State.putFreq_nruns (count : Nat → Nat) (s : State) :
    (s.putFreq count).nruns = s.nruns := rfl
@[simp] theorem State.putFreq_bitlen (count : Nat → Nat) (s : State) :
    (s.putFreq count).bitlen = s.bitlen := rfl
@[simp] theorem State.putFreq_nnodes (count : Nat → Nat) (s : State) :
    (s.putFreq count).nnodes = s.nnodes := rfl
@[simp] theorem State.putFreq_root (count : Nat → Nat) (s : State) :
    (s.putFreq count).root = s.root := rfl
@[simp] theorem State.putFreq_lcmd (count : Nat → Nat) (s : State) :
    (s.putFreq count).lcmd = s.lcmd := rfl
@[simp] theorem State.putFreq_pix (count : Nat → Nat) (s : State) :
    (s.putFreq count).pix = s.pix := rfl
@[simp] theorem State.putFreq_runs (count : Nat → Nat) (s : State) :
    (s.putFreq count).runs = s.runs := rfl
@[simp] theorem State.putFreq_freq (count : Nat → Nat) (s : State) :
    (s.putFreq count).freq = s.freq.writeFrom 0 (symbols.map fun sym => BitVec.ofNat 32 (count sym)) := rfl
@[simp] theorem State.putFreq_tree (count : Nat → Nat) (s : State) :
    (s.putFreq count).tree = s.tree := rfl
@[simp] theorem State.putFreq_clen (count : Nat → Nat) (s : State) :
    (s.putFreq count).clen = s.clen := rfl
@[simp] theorem State.putFreq_cval (count : Nat → Nat) (s : State) :
    (s.putFreq count).cval = s.cval := rfl
@[simp] theorem State.putFreq_bits (count : Nat → Nat) (s : State) :
    (s.putFreq count).bits = s.bits := rfl
@[simp] theorem State.putFreq_coef (count : Nat → Nat) (s : State) :
    (s.putFreq count).coef = s.coef := rfl
@[simp] theorem State.putFreq_suba (count : Nat → Nat) (s : State) :
    (s.putFreq count).suba = s.suba := rfl
@[simp] theorem State.putFreq_subh (count : Nat → Nat) (s : State) :
    (s.putFreq count).subh = s.subh := rfl
@[simp] theorem State.putFreq_subv (count : Nat → Nat) (s : State) :
    (s.putFreq count).subv = s.subv := rfl
@[simp] theorem State.putFreq_subd (count : Nat → Nat) (s : State) :
    (s.putFreq count).subd = s.subd := rfl
@[simp] theorem State.putFreq_inReset (count : Nat → Nat) (s : State) :
    (s.putFreq count).inReset = s.inReset := rfl
@[simp] theorem State.putFreq_busData (count : Nat → Nat) (s : State) :
    (s.putFreq count).busData = s.busData := rfl
@[simp] theorem State.putFreq_draws (count : Nat → Nat) (s : State) :
    (s.putFreq count).draws = s.draws := rfl
@[simp] theorem State.putFreq_moves (count : Nat → Nat) (s : State) :
    (s.putFreq count).moves = s.moves := rfl

@[simp] theorem State.putTree_status (nodes : List Node) (s : State) :
    (s.putTree nodes).status = s.status := rfl
@[simp] theorem State.putTree_errcode (nodes : List Node) (s : State) :
    (s.putTree nodes).errcode = s.errcode := rfl
@[simp] theorem State.putTree_ie (nodes : List Node) (s : State) :
    (s.putTree nodes).ie = s.ie := rfl
@[simp] theorem State.putTree_w (nodes : List Node) (s : State) : (s.putTree nodes).w = s.w := rfl
@[simp] theorem State.putTree_h (nodes : List Node) (s : State) : (s.putTree nodes).h = s.h := rfl
@[simp] theorem State.putTree_blk (nodes : List Node) (s : State) :
    (s.putTree nodes).blk = s.blk := rfl
@[simp] theorem State.putTree_q (nodes : List Node) (s : State) : (s.putTree nodes).q = s.q := rfl
@[simp] theorem State.putTree_nruns (nodes : List Node) (s : State) :
    (s.putTree nodes).nruns = s.nruns := rfl
@[simp] theorem State.putTree_bitlen (nodes : List Node) (s : State) :
    (s.putTree nodes).bitlen = s.bitlen := rfl
@[simp] theorem State.putTree_nnodes (nodes : List Node) (s : State) :
    (s.putTree nodes).nnodes = BitVec.ofNat 10 nodes.length := rfl
@[simp] theorem State.putTree_root (nodes : List Node) (s : State) :
    (s.putTree nodes).root = BitVec.ofNat 9 (nodes.length - 1) := rfl
@[simp] theorem State.putTree_lcmd (nodes : List Node) (s : State) :
    (s.putTree nodes).lcmd = s.lcmd := rfl
@[simp] theorem State.putTree_pix (nodes : List Node) (s : State) :
    (s.putTree nodes).pix = s.pix := rfl
@[simp] theorem State.putTree_runs (nodes : List Node) (s : State) :
    (s.putTree nodes).runs = s.runs := rfl
@[simp] theorem State.putTree_freq (nodes : List Node) (s : State) :
    (s.putTree nodes).freq = s.freq := rfl
@[simp] theorem State.putTree_tree (nodes : List Node) (s : State) :
    (s.putTree nodes).tree = s.tree.writeFrom 0 (nodes.map Node.pack) := rfl
@[simp] theorem State.putTree_clen (nodes : List Node) (s : State) :
    (s.putTree nodes).clen = s.clen := rfl
@[simp] theorem State.putTree_cval (nodes : List Node) (s : State) :
    (s.putTree nodes).cval = s.cval := rfl
@[simp] theorem State.putTree_bits (nodes : List Node) (s : State) :
    (s.putTree nodes).bits = s.bits := rfl
@[simp] theorem State.putTree_coef (nodes : List Node) (s : State) :
    (s.putTree nodes).coef = s.coef := rfl
@[simp] theorem State.putTree_suba (nodes : List Node) (s : State) :
    (s.putTree nodes).suba = s.suba := rfl
@[simp] theorem State.putTree_subh (nodes : List Node) (s : State) :
    (s.putTree nodes).subh = s.subh := rfl
@[simp] theorem State.putTree_subv (nodes : List Node) (s : State) :
    (s.putTree nodes).subv = s.subv := rfl
@[simp] theorem State.putTree_subd (nodes : List Node) (s : State) :
    (s.putTree nodes).subd = s.subd := rfl
@[simp] theorem State.putTree_inReset (nodes : List Node) (s : State) :
    (s.putTree nodes).inReset = s.inReset := rfl
@[simp] theorem State.putTree_busData (nodes : List Node) (s : State) :
    (s.putTree nodes).busData = s.busData := rfl
@[simp] theorem State.putTree_draws (nodes : List Node) (s : State) :
    (s.putTree nodes).draws = s.draws := rfl
@[simp] theorem State.putTree_moves (nodes : List Node) (s : State) :
    (s.putTree nodes).moves = s.moves := rfl

@[simp] theorem State.dropTree_status (s : State) : s.dropTree.status = s.status := rfl
@[simp] theorem State.dropTree_errcode (s : State) : s.dropTree.errcode = s.errcode := rfl
@[simp] theorem State.dropTree_ie (s : State) : s.dropTree.ie = s.ie := rfl
@[simp] theorem State.dropTree_w (s : State) : s.dropTree.w = s.w := rfl
@[simp] theorem State.dropTree_h (s : State) : s.dropTree.h = s.h := rfl
@[simp] theorem State.dropTree_blk (s : State) : s.dropTree.blk = s.blk := rfl
@[simp] theorem State.dropTree_q (s : State) : s.dropTree.q = s.q := rfl
@[simp] theorem State.dropTree_nruns (s : State) : s.dropTree.nruns = s.nruns := rfl
@[simp] theorem State.dropTree_bitlen (s : State) : s.dropTree.bitlen = s.bitlen := rfl
@[simp] theorem State.dropTree_nnodes (s : State) : s.dropTree.nnodes = 0 := rfl
@[simp] theorem State.dropTree_root (s : State) : s.dropTree.root = 0 := rfl
@[simp] theorem State.dropTree_lcmd (s : State) : s.dropTree.lcmd = s.lcmd := rfl
@[simp] theorem State.dropTree_pix (s : State) : s.dropTree.pix = s.pix := rfl
@[simp] theorem State.dropTree_runs (s : State) : s.dropTree.runs = s.runs := rfl
@[simp] theorem State.dropTree_freq (s : State) : s.dropTree.freq = s.freq := rfl
@[simp] theorem State.dropTree_tree (s : State) : s.dropTree.tree = s.tree := rfl
@[simp] theorem State.dropTree_clen (s : State) : s.dropTree.clen = s.clen := rfl
@[simp] theorem State.dropTree_cval (s : State) : s.dropTree.cval = s.cval := rfl
@[simp] theorem State.dropTree_bits (s : State) : s.dropTree.bits = s.bits := rfl
@[simp] theorem State.dropTree_coef (s : State) : s.dropTree.coef = s.coef := rfl
@[simp] theorem State.dropTree_suba (s : State) : s.dropTree.suba = s.suba := rfl
@[simp] theorem State.dropTree_subh (s : State) : s.dropTree.subh = s.subh := rfl
@[simp] theorem State.dropTree_subv (s : State) : s.dropTree.subv = s.subv := rfl
@[simp] theorem State.dropTree_subd (s : State) : s.dropTree.subd = s.subd := rfl
@[simp] theorem State.dropTree_inReset (s : State) : s.dropTree.inReset = s.inReset := rfl
@[simp] theorem State.dropTree_busData (s : State) : s.dropTree.busData = s.busData := rfl
@[simp] theorem State.dropTree_draws (s : State) : s.dropTree.draws = s.draws := rfl
@[simp] theorem State.dropTree_moves (s : State) : s.dropTree.moves = s.moves := rfl

@[simp] theorem State.putCodes_status (table : CodeTable) (s : State) :
    (s.putCodes table).status = s.status := rfl
@[simp] theorem State.putCodes_errcode (table : CodeTable) (s : State) :
    (s.putCodes table).errcode = s.errcode := rfl
@[simp] theorem State.putCodes_ie (table : CodeTable) (s : State) :
    (s.putCodes table).ie = s.ie := rfl
@[simp] theorem State.putCodes_w (table : CodeTable) (s : State) : (s.putCodes table).w = s.w := rfl
@[simp] theorem State.putCodes_h (table : CodeTable) (s : State) : (s.putCodes table).h = s.h := rfl
@[simp] theorem State.putCodes_blk (table : CodeTable) (s : State) :
    (s.putCodes table).blk = s.blk := rfl
@[simp] theorem State.putCodes_q (table : CodeTable) (s : State) : (s.putCodes table).q = s.q := rfl
@[simp] theorem State.putCodes_nruns (table : CodeTable) (s : State) :
    (s.putCodes table).nruns = s.nruns := rfl
@[simp] theorem State.putCodes_bitlen (table : CodeTable) (s : State) :
    (s.putCodes table).bitlen = s.bitlen := rfl
@[simp] theorem State.putCodes_nnodes (table : CodeTable) (s : State) :
    (s.putCodes table).nnodes = s.nnodes := rfl
@[simp] theorem State.putCodes_root (table : CodeTable) (s : State) :
    (s.putCodes table).root = s.root := rfl
@[simp] theorem State.putCodes_lcmd (table : CodeTable) (s : State) :
    (s.putCodes table).lcmd = s.lcmd := rfl
@[simp] theorem State.putCodes_pix (table : CodeTable) (s : State) :
    (s.putCodes table).pix = s.pix := rfl
@[simp] theorem State.putCodes_runs (table : CodeTable) (s : State) :
    (s.putCodes table).runs = s.runs := rfl
@[simp] theorem State.putCodes_freq (table : CodeTable) (s : State) :
    (s.putCodes table).freq = s.freq := rfl
@[simp] theorem State.putCodes_tree (table : CodeTable) (s : State) :
    (s.putCodes table).tree = s.tree := rfl
@[simp] theorem State.putCodes_clen (table : CodeTable) (s : State) :
    (s.putCodes table).clen = s.clen.writeFrom 0 (symbols.map fun sym => BitVec.ofNat 8 (entryOf table sym).1) := rfl
@[simp] theorem State.putCodes_cval (table : CodeTable) (s : State) :
    (s.putCodes table).cval = s.cval.writeFrom 0 (symbols.map fun sym => BitVec.ofNat 256 (entryOf table sym).2) := rfl
@[simp] theorem State.putCodes_bits (table : CodeTable) (s : State) :
    (s.putCodes table).bits = s.bits := rfl
@[simp] theorem State.putCodes_coef (table : CodeTable) (s : State) :
    (s.putCodes table).coef = s.coef := rfl
@[simp] theorem State.putCodes_suba (table : CodeTable) (s : State) :
    (s.putCodes table).suba = s.suba := rfl
@[simp] theorem State.putCodes_subh (table : CodeTable) (s : State) :
    (s.putCodes table).subh = s.subh := rfl
@[simp] theorem State.putCodes_subv (table : CodeTable) (s : State) :
    (s.putCodes table).subv = s.subv := rfl
@[simp] theorem State.putCodes_subd (table : CodeTable) (s : State) :
    (s.putCodes table).subd = s.subd := rfl
@[simp] theorem State.putCodes_inReset (table : CodeTable) (s : State) :
    (s.putCodes table).inReset = s.inReset := rfl
@[simp] theorem State.putCodes_busData (table : CodeTable) (s : State) :
    (s.putCodes table).busData = s.busData := rfl
@[simp] theorem State.putCodes_draws (table : CodeTable) (s : State) :
    (s.putCodes table).draws = s.draws := rfl
@[simp] theorem State.putCodes_moves (table : CodeTable) (s : State) :
    (s.putCodes table).moves = s.moves := rfl

@[simp] theorem State.putBits_status (stream : Code) (s : State) :
    (s.putBits stream).status = s.status := rfl
@[simp] theorem State.putBits_errcode (stream : Code) (s : State) :
    (s.putBits stream).errcode = s.errcode := rfl
@[simp] theorem State.putBits_ie (stream : Code) (s : State) : (s.putBits stream).ie = s.ie := rfl
@[simp] theorem State.putBits_w (stream : Code) (s : State) : (s.putBits stream).w = s.w := rfl
@[simp] theorem State.putBits_h (stream : Code) (s : State) : (s.putBits stream).h = s.h := rfl
@[simp] theorem State.putBits_blk (stream : Code) (s : State) :
    (s.putBits stream).blk = s.blk := rfl
@[simp] theorem State.putBits_q (stream : Code) (s : State) : (s.putBits stream).q = s.q := rfl
@[simp] theorem State.putBits_nruns (stream : Code) (s : State) :
    (s.putBits stream).nruns = s.nruns := rfl
@[simp] theorem State.putBits_bitlen (stream : Code) (s : State) :
    (s.putBits stream).bitlen = BitVec.ofNat 40 stream.length := rfl
@[simp] theorem State.putBits_nnodes (stream : Code) (s : State) :
    (s.putBits stream).nnodes = s.nnodes := rfl
@[simp] theorem State.putBits_root (stream : Code) (s : State) :
    (s.putBits stream).root = s.root := rfl
@[simp] theorem State.putBits_lcmd (stream : Code) (s : State) :
    (s.putBits stream).lcmd = s.lcmd := rfl
@[simp] theorem State.putBits_pix (stream : Code) (s : State) :
    (s.putBits stream).pix = s.pix := rfl
@[simp] theorem State.putBits_runs (stream : Code) (s : State) :
    (s.putBits stream).runs = s.runs := rfl
@[simp] theorem State.putBits_freq (stream : Code) (s : State) :
    (s.putBits stream).freq = s.freq := rfl
@[simp] theorem State.putBits_tree (stream : Code) (s : State) :
    (s.putBits stream).tree = s.tree := rfl
@[simp] theorem State.putBits_clen (stream : Code) (s : State) :
    (s.putBits stream).clen = s.clen := rfl
@[simp] theorem State.putBits_cval (stream : Code) (s : State) :
    (s.putBits stream).cval = s.cval := rfl
@[simp] theorem State.putBits_bits (stream : Code) (s : State) :
    (s.putBits stream).bits = s.bits.writeFrom 0 (bitElements (stream ++ List.replicate (8 * bytesOfBits stream.length - stream.length) false)) := rfl
@[simp] theorem State.putBits_coef (stream : Code) (s : State) :
    (s.putBits stream).coef = s.coef := rfl
@[simp] theorem State.putBits_suba (stream : Code) (s : State) :
    (s.putBits stream).suba = s.suba := rfl
@[simp] theorem State.putBits_subh (stream : Code) (s : State) :
    (s.putBits stream).subh = s.subh := rfl
@[simp] theorem State.putBits_subv (stream : Code) (s : State) :
    (s.putBits stream).subv = s.subv := rfl
@[simp] theorem State.putBits_subd (stream : Code) (s : State) :
    (s.putBits stream).subd = s.subd := rfl
@[simp] theorem State.putBits_inReset (stream : Code) (s : State) :
    (s.putBits stream).inReset = s.inReset := rfl
@[simp] theorem State.putBits_busData (stream : Code) (s : State) :
    (s.putBits stream).busData = s.busData := rfl
@[simp] theorem State.putBits_draws (stream : Code) (s : State) :
    (s.putBits stream).draws = s.draws := rfl
@[simp] theorem State.putBits_moves (stream : Code) (s : State) :
    (s.putBits stream).moves = s.moves := rfl

@[simp] theorem State.putCoef_status (coefficients : List Flt) (s : State) :
    (s.putCoef coefficients).status = s.status := rfl
@[simp] theorem State.putCoef_errcode (coefficients : List Flt) (s : State) :
    (s.putCoef coefficients).errcode = s.errcode := rfl
@[simp] theorem State.putCoef_ie (coefficients : List Flt) (s : State) :
    (s.putCoef coefficients).ie = s.ie := rfl
@[simp] theorem State.putCoef_w (coefficients : List Flt) (s : State) :
    (s.putCoef coefficients).w = s.w := rfl
@[simp] theorem State.putCoef_h (coefficients : List Flt) (s : State) :
    (s.putCoef coefficients).h = s.h := rfl
@[simp] theorem State.putCoef_blk (coefficients : List Flt) (s : State) :
    (s.putCoef coefficients).blk = s.blk := rfl
@[simp] theorem State.putCoef_q (coefficients : List Flt) (s : State) :
    (s.putCoef coefficients).q = s.q := rfl
@[simp] theorem State.putCoef_nruns (coefficients : List Flt) (s : State) :
    (s.putCoef coefficients).nruns = s.nruns := rfl
@[simp] theorem State.putCoef_bitlen (coefficients : List Flt) (s : State) :
    (s.putCoef coefficients).bitlen = s.bitlen := rfl
@[simp] theorem State.putCoef_nnodes (coefficients : List Flt) (s : State) :
    (s.putCoef coefficients).nnodes = s.nnodes := rfl
@[simp] theorem State.putCoef_root (coefficients : List Flt) (s : State) :
    (s.putCoef coefficients).root = s.root := rfl
@[simp] theorem State.putCoef_lcmd (coefficients : List Flt) (s : State) :
    (s.putCoef coefficients).lcmd = s.lcmd := rfl
@[simp] theorem State.putCoef_pix (coefficients : List Flt) (s : State) :
    (s.putCoef coefficients).pix = s.pix := rfl
@[simp] theorem State.putCoef_runs (coefficients : List Flt) (s : State) :
    (s.putCoef coefficients).runs = s.runs := rfl
@[simp] theorem State.putCoef_freq (coefficients : List Flt) (s : State) :
    (s.putCoef coefficients).freq = s.freq := rfl
@[simp] theorem State.putCoef_tree (coefficients : List Flt) (s : State) :
    (s.putCoef coefficients).tree = s.tree := rfl
@[simp] theorem State.putCoef_clen (coefficients : List Flt) (s : State) :
    (s.putCoef coefficients).clen = s.clen := rfl
@[simp] theorem State.putCoef_cval (coefficients : List Flt) (s : State) :
    (s.putCoef coefficients).cval = s.cval := rfl
@[simp] theorem State.putCoef_bits (coefficients : List Flt) (s : State) :
    (s.putCoef coefficients).bits = s.bits := rfl
@[simp] theorem State.putCoef_coef (coefficients : List Flt) (s : State) :
    (s.putCoef coefficients).coef = s.coef.writeFrom 0 coefficients := rfl
@[simp] theorem State.putCoef_suba (coefficients : List Flt) (s : State) :
    (s.putCoef coefficients).suba = s.suba := rfl
@[simp] theorem State.putCoef_subh (coefficients : List Flt) (s : State) :
    (s.putCoef coefficients).subh = s.subh := rfl
@[simp] theorem State.putCoef_subv (coefficients : List Flt) (s : State) :
    (s.putCoef coefficients).subv = s.subv := rfl
@[simp] theorem State.putCoef_subd (coefficients : List Flt) (s : State) :
    (s.putCoef coefficients).subd = s.subd := rfl
@[simp] theorem State.putCoef_inReset (coefficients : List Flt) (s : State) :
    (s.putCoef coefficients).inReset = s.inReset := rfl
@[simp] theorem State.putCoef_busData (coefficients : List Flt) (s : State) :
    (s.putCoef coefficients).busData = s.busData := rfl
@[simp] theorem State.putCoef_draws (coefficients : List Flt) (s : State) :
    (s.putCoef coefficients).draws = s.draws := rfl
@[simp] theorem State.putCoef_moves (coefficients : List Flt) (s : State) :
    (s.putCoef coefficients).moves = s.moves := rfl

@[simp] theorem State.putSubbands_status (cells : List (Flt × Flt × Flt × Flt)) (s : State) :
    (s.putSubbands cells).status = s.status := rfl
@[simp] theorem State.putSubbands_errcode (cells : List (Flt × Flt × Flt × Flt)) (s : State) :
    (s.putSubbands cells).errcode = s.errcode := rfl
@[simp] theorem State.putSubbands_ie (cells : List (Flt × Flt × Flt × Flt)) (s : State) :
    (s.putSubbands cells).ie = s.ie := rfl
@[simp] theorem State.putSubbands_w (cells : List (Flt × Flt × Flt × Flt)) (s : State) :
    (s.putSubbands cells).w = s.w := rfl
@[simp] theorem State.putSubbands_h (cells : List (Flt × Flt × Flt × Flt)) (s : State) :
    (s.putSubbands cells).h = s.h := rfl
@[simp] theorem State.putSubbands_blk (cells : List (Flt × Flt × Flt × Flt)) (s : State) :
    (s.putSubbands cells).blk = s.blk := rfl
@[simp] theorem State.putSubbands_q (cells : List (Flt × Flt × Flt × Flt)) (s : State) :
    (s.putSubbands cells).q = s.q := rfl
@[simp] theorem State.putSubbands_nruns (cells : List (Flt × Flt × Flt × Flt)) (s : State) :
    (s.putSubbands cells).nruns = s.nruns := rfl
@[simp] theorem State.putSubbands_bitlen (cells : List (Flt × Flt × Flt × Flt)) (s : State) :
    (s.putSubbands cells).bitlen = s.bitlen := rfl
@[simp] theorem State.putSubbands_nnodes (cells : List (Flt × Flt × Flt × Flt)) (s : State) :
    (s.putSubbands cells).nnodes = s.nnodes := rfl
@[simp] theorem State.putSubbands_root (cells : List (Flt × Flt × Flt × Flt)) (s : State) :
    (s.putSubbands cells).root = s.root := rfl
@[simp] theorem State.putSubbands_lcmd (cells : List (Flt × Flt × Flt × Flt)) (s : State) :
    (s.putSubbands cells).lcmd = s.lcmd := rfl
@[simp] theorem State.putSubbands_pix (cells : List (Flt × Flt × Flt × Flt)) (s : State) :
    (s.putSubbands cells).pix = s.pix := rfl
@[simp] theorem State.putSubbands_runs (cells : List (Flt × Flt × Flt × Flt)) (s : State) :
    (s.putSubbands cells).runs = s.runs := rfl
@[simp] theorem State.putSubbands_freq (cells : List (Flt × Flt × Flt × Flt)) (s : State) :
    (s.putSubbands cells).freq = s.freq := rfl
@[simp] theorem State.putSubbands_tree (cells : List (Flt × Flt × Flt × Flt)) (s : State) :
    (s.putSubbands cells).tree = s.tree := rfl
@[simp] theorem State.putSubbands_clen (cells : List (Flt × Flt × Flt × Flt)) (s : State) :
    (s.putSubbands cells).clen = s.clen := rfl
@[simp] theorem State.putSubbands_cval (cells : List (Flt × Flt × Flt × Flt)) (s : State) :
    (s.putSubbands cells).cval = s.cval := rfl
@[simp] theorem State.putSubbands_bits (cells : List (Flt × Flt × Flt × Flt)) (s : State) :
    (s.putSubbands cells).bits = s.bits := rfl
@[simp] theorem State.putSubbands_coef (cells : List (Flt × Flt × Flt × Flt)) (s : State) :
    (s.putSubbands cells).coef = s.coef := rfl
@[simp] theorem State.putSubbands_suba (cells : List (Flt × Flt × Flt × Flt)) (s : State) :
    (s.putSubbands cells).suba = s.suba.writeFrom 0 (cells.map fun t => t.1) := rfl
@[simp] theorem State.putSubbands_subh (cells : List (Flt × Flt × Flt × Flt)) (s : State) :
    (s.putSubbands cells).subh = s.subh.writeFrom 0 (cells.map fun t => t.2.1) := rfl
@[simp] theorem State.putSubbands_subv (cells : List (Flt × Flt × Flt × Flt)) (s : State) :
    (s.putSubbands cells).subv = s.subv.writeFrom 0 (cells.map fun t => t.2.2.1) := rfl
@[simp] theorem State.putSubbands_subd (cells : List (Flt × Flt × Flt × Flt)) (s : State) :
    (s.putSubbands cells).subd = s.subd.writeFrom 0 (cells.map fun t => t.2.2.2) := rfl
@[simp] theorem State.putSubbands_inReset (cells : List (Flt × Flt × Flt × Flt)) (s : State) :
    (s.putSubbands cells).inReset = s.inReset := rfl
@[simp] theorem State.putSubbands_busData (cells : List (Flt × Flt × Flt × Flt)) (s : State) :
    (s.putSubbands cells).busData = s.busData := rfl
@[simp] theorem State.putSubbands_draws (cells : List (Flt × Flt × Flt × Flt)) (s : State) :
    (s.putSubbands cells).draws = s.draws := rfl
@[simp] theorem State.putSubbands_moves (cells : List (Flt × Flt × Flt × Flt)) (s : State) :
    (s.putSubbands cells).moves = s.moves := rfl

@[simp] theorem State.tick_status (s : State) : s.tick.status = s.status := rfl
@[simp] theorem State.tick_errcode (s : State) : s.tick.errcode = s.errcode := rfl
@[simp] theorem State.tick_ie (s : State) : s.tick.ie = s.ie := rfl
@[simp] theorem State.tick_w (s : State) : s.tick.w = s.w := rfl
@[simp] theorem State.tick_h (s : State) : s.tick.h = s.h := rfl
@[simp] theorem State.tick_blk (s : State) : s.tick.blk = s.blk := rfl
@[simp] theorem State.tick_q (s : State) : s.tick.q = s.q := rfl
@[simp] theorem State.tick_nruns (s : State) : s.tick.nruns = s.nruns := rfl
@[simp] theorem State.tick_bitlen (s : State) : s.tick.bitlen = s.bitlen := rfl
@[simp] theorem State.tick_nnodes (s : State) : s.tick.nnodes = s.nnodes := rfl
@[simp] theorem State.tick_root (s : State) : s.tick.root = s.root := rfl
@[simp] theorem State.tick_lcmd (s : State) : s.tick.lcmd = s.lcmd := rfl
@[simp] theorem State.tick_pix (s : State) : s.tick.pix = s.pix := rfl
@[simp] theorem State.tick_runs (s : State) : s.tick.runs = s.runs := rfl
@[simp] theorem State.tick_freq (s : State) : s.tick.freq = s.freq := rfl
@[simp] theorem State.tick_tree (s : State) : s.tick.tree = s.tree := rfl
@[simp] theorem State.tick_clen (s : State) : s.tick.clen = s.clen := rfl
@[simp] theorem State.tick_cval (s : State) : s.tick.cval = s.cval := rfl
@[simp] theorem State.tick_bits (s : State) : s.tick.bits = s.bits := rfl
@[simp] theorem State.tick_coef (s : State) : s.tick.coef = s.coef := rfl
@[simp] theorem State.tick_suba (s : State) : s.tick.suba = s.suba := rfl
@[simp] theorem State.tick_subh (s : State) : s.tick.subh = s.subh := rfl
@[simp] theorem State.tick_subv (s : State) : s.tick.subv = s.subv := rfl
@[simp] theorem State.tick_subd (s : State) : s.tick.subd = s.subd := rfl
@[simp] theorem State.tick_inReset (s : State) : s.tick.inReset = s.inReset := rfl
@[simp] theorem State.tick_busData (s : State) : s.tick.busData = s.busData := rfl
@[simp] theorem State.tick_draws (s : State) : s.tick.draws = s.draws + 1 := rfl
@[simp] theorem State.tick_moves (s : State) : s.tick.moves = s.moves := rfl

@[simp] theorem State.drawPix_status (s : State) : s.drawPix.status = s.status := rfl
@[simp] theorem State.drawPix_errcode (s : State) : s.drawPix.errcode = s.errcode := rfl
@[simp] theorem State.drawPix_ie (s : State) : s.drawPix.ie = s.ie := rfl
@[simp] theorem State.drawPix_w (s : State) : s.drawPix.w = s.w := rfl
@[simp] theorem State.drawPix_h (s : State) : s.drawPix.h = s.h := rfl
@[simp] theorem State.drawPix_blk (s : State) : s.drawPix.blk = s.blk := rfl
@[simp] theorem State.drawPix_q (s : State) : s.drawPix.q = s.q := rfl
@[simp] theorem State.drawPix_nruns (s : State) : s.drawPix.nruns = s.nruns := rfl
@[simp] theorem State.drawPix_bitlen (s : State) : s.drawPix.bitlen = s.bitlen := rfl
@[simp] theorem State.drawPix_nnodes (s : State) : s.drawPix.nnodes = s.nnodes := rfl
@[simp] theorem State.drawPix_root (s : State) : s.drawPix.root = s.root := rfl
@[simp] theorem State.drawPix_lcmd (s : State) : s.drawPix.lcmd = s.lcmd := rfl
@[simp] theorem State.drawPix_pix (s : State) : s.drawPix.pix = Space.fresh s.draws := rfl
@[simp] theorem State.drawPix_runs (s : State) : s.drawPix.runs = s.runs := rfl
@[simp] theorem State.drawPix_freq (s : State) : s.drawPix.freq = s.freq := rfl
@[simp] theorem State.drawPix_tree (s : State) : s.drawPix.tree = s.tree := rfl
@[simp] theorem State.drawPix_clen (s : State) : s.drawPix.clen = s.clen := rfl
@[simp] theorem State.drawPix_cval (s : State) : s.drawPix.cval = s.cval := rfl
@[simp] theorem State.drawPix_bits (s : State) : s.drawPix.bits = s.bits := rfl
@[simp] theorem State.drawPix_coef (s : State) : s.drawPix.coef = s.coef := rfl
@[simp] theorem State.drawPix_suba (s : State) : s.drawPix.suba = s.suba := rfl
@[simp] theorem State.drawPix_subh (s : State) : s.drawPix.subh = s.subh := rfl
@[simp] theorem State.drawPix_subv (s : State) : s.drawPix.subv = s.subv := rfl
@[simp] theorem State.drawPix_subd (s : State) : s.drawPix.subd = s.subd := rfl
@[simp] theorem State.drawPix_inReset (s : State) : s.drawPix.inReset = s.inReset := rfl
@[simp] theorem State.drawPix_busData (s : State) : s.drawPix.busData = s.busData := rfl
@[simp] theorem State.drawPix_draws (s : State) : s.drawPix.draws = s.draws + 1 := rfl
@[simp] theorem State.drawPix_moves (s : State) : s.drawPix.moves = s.moves := rfl

@[simp] theorem State.drawRuns_status (s : State) : s.drawRuns.status = s.status := rfl
@[simp] theorem State.drawRuns_errcode (s : State) : s.drawRuns.errcode = s.errcode := rfl
@[simp] theorem State.drawRuns_ie (s : State) : s.drawRuns.ie = s.ie := rfl
@[simp] theorem State.drawRuns_w (s : State) : s.drawRuns.w = s.w := rfl
@[simp] theorem State.drawRuns_h (s : State) : s.drawRuns.h = s.h := rfl
@[simp] theorem State.drawRuns_blk (s : State) : s.drawRuns.blk = s.blk := rfl
@[simp] theorem State.drawRuns_q (s : State) : s.drawRuns.q = s.q := rfl
@[simp] theorem State.drawRuns_nruns (s : State) : s.drawRuns.nruns = s.nruns := rfl
@[simp] theorem State.drawRuns_bitlen (s : State) : s.drawRuns.bitlen = s.bitlen := rfl
@[simp] theorem State.drawRuns_nnodes (s : State) : s.drawRuns.nnodes = s.nnodes := rfl
@[simp] theorem State.drawRuns_root (s : State) : s.drawRuns.root = s.root := rfl
@[simp] theorem State.drawRuns_lcmd (s : State) : s.drawRuns.lcmd = s.lcmd := rfl
@[simp] theorem State.drawRuns_pix (s : State) : s.drawRuns.pix = s.pix := rfl
@[simp] theorem State.drawRuns_runs (s : State) : s.drawRuns.runs = Space.fresh s.draws := rfl
@[simp] theorem State.drawRuns_freq (s : State) : s.drawRuns.freq = s.freq := rfl
@[simp] theorem State.drawRuns_tree (s : State) : s.drawRuns.tree = s.tree := rfl
@[simp] theorem State.drawRuns_clen (s : State) : s.drawRuns.clen = s.clen := rfl
@[simp] theorem State.drawRuns_cval (s : State) : s.drawRuns.cval = s.cval := rfl
@[simp] theorem State.drawRuns_bits (s : State) : s.drawRuns.bits = s.bits := rfl
@[simp] theorem State.drawRuns_coef (s : State) : s.drawRuns.coef = s.coef := rfl
@[simp] theorem State.drawRuns_suba (s : State) : s.drawRuns.suba = s.suba := rfl
@[simp] theorem State.drawRuns_subh (s : State) : s.drawRuns.subh = s.subh := rfl
@[simp] theorem State.drawRuns_subv (s : State) : s.drawRuns.subv = s.subv := rfl
@[simp] theorem State.drawRuns_subd (s : State) : s.drawRuns.subd = s.subd := rfl
@[simp] theorem State.drawRuns_inReset (s : State) : s.drawRuns.inReset = s.inReset := rfl
@[simp] theorem State.drawRuns_busData (s : State) : s.drawRuns.busData = s.busData := rfl
@[simp] theorem State.drawRuns_draws (s : State) : s.drawRuns.draws = s.draws + 1 := rfl
@[simp] theorem State.drawRuns_moves (s : State) : s.drawRuns.moves = s.moves := rfl

@[simp] theorem State.drawFreq_status (s : State) : s.drawFreq.status = s.status := rfl
@[simp] theorem State.drawFreq_errcode (s : State) : s.drawFreq.errcode = s.errcode := rfl
@[simp] theorem State.drawFreq_ie (s : State) : s.drawFreq.ie = s.ie := rfl
@[simp] theorem State.drawFreq_w (s : State) : s.drawFreq.w = s.w := rfl
@[simp] theorem State.drawFreq_h (s : State) : s.drawFreq.h = s.h := rfl
@[simp] theorem State.drawFreq_blk (s : State) : s.drawFreq.blk = s.blk := rfl
@[simp] theorem State.drawFreq_q (s : State) : s.drawFreq.q = s.q := rfl
@[simp] theorem State.drawFreq_nruns (s : State) : s.drawFreq.nruns = s.nruns := rfl
@[simp] theorem State.drawFreq_bitlen (s : State) : s.drawFreq.bitlen = s.bitlen := rfl
@[simp] theorem State.drawFreq_nnodes (s : State) : s.drawFreq.nnodes = s.nnodes := rfl
@[simp] theorem State.drawFreq_root (s : State) : s.drawFreq.root = s.root := rfl
@[simp] theorem State.drawFreq_lcmd (s : State) : s.drawFreq.lcmd = s.lcmd := rfl
@[simp] theorem State.drawFreq_pix (s : State) : s.drawFreq.pix = s.pix := rfl
@[simp] theorem State.drawFreq_runs (s : State) : s.drawFreq.runs = s.runs := rfl
@[simp] theorem State.drawFreq_freq (s : State) : s.drawFreq.freq = Space.fresh s.draws := rfl
@[simp] theorem State.drawFreq_tree (s : State) : s.drawFreq.tree = s.tree := rfl
@[simp] theorem State.drawFreq_clen (s : State) : s.drawFreq.clen = s.clen := rfl
@[simp] theorem State.drawFreq_cval (s : State) : s.drawFreq.cval = s.cval := rfl
@[simp] theorem State.drawFreq_bits (s : State) : s.drawFreq.bits = s.bits := rfl
@[simp] theorem State.drawFreq_coef (s : State) : s.drawFreq.coef = s.coef := rfl
@[simp] theorem State.drawFreq_suba (s : State) : s.drawFreq.suba = s.suba := rfl
@[simp] theorem State.drawFreq_subh (s : State) : s.drawFreq.subh = s.subh := rfl
@[simp] theorem State.drawFreq_subv (s : State) : s.drawFreq.subv = s.subv := rfl
@[simp] theorem State.drawFreq_subd (s : State) : s.drawFreq.subd = s.subd := rfl
@[simp] theorem State.drawFreq_inReset (s : State) : s.drawFreq.inReset = s.inReset := rfl
@[simp] theorem State.drawFreq_busData (s : State) : s.drawFreq.busData = s.busData := rfl
@[simp] theorem State.drawFreq_draws (s : State) : s.drawFreq.draws = s.draws + 1 := rfl
@[simp] theorem State.drawFreq_moves (s : State) : s.drawFreq.moves = s.moves := rfl

@[simp] theorem State.drawTree_status (s : State) : s.drawTree.status = s.status := rfl
@[simp] theorem State.drawTree_errcode (s : State) : s.drawTree.errcode = s.errcode := rfl
@[simp] theorem State.drawTree_ie (s : State) : s.drawTree.ie = s.ie := rfl
@[simp] theorem State.drawTree_w (s : State) : s.drawTree.w = s.w := rfl
@[simp] theorem State.drawTree_h (s : State) : s.drawTree.h = s.h := rfl
@[simp] theorem State.drawTree_blk (s : State) : s.drawTree.blk = s.blk := rfl
@[simp] theorem State.drawTree_q (s : State) : s.drawTree.q = s.q := rfl
@[simp] theorem State.drawTree_nruns (s : State) : s.drawTree.nruns = s.nruns := rfl
@[simp] theorem State.drawTree_bitlen (s : State) : s.drawTree.bitlen = s.bitlen := rfl
@[simp] theorem State.drawTree_nnodes (s : State) : s.drawTree.nnodes = s.nnodes := rfl
@[simp] theorem State.drawTree_root (s : State) : s.drawTree.root = s.root := rfl
@[simp] theorem State.drawTree_lcmd (s : State) : s.drawTree.lcmd = s.lcmd := rfl
@[simp] theorem State.drawTree_pix (s : State) : s.drawTree.pix = s.pix := rfl
@[simp] theorem State.drawTree_runs (s : State) : s.drawTree.runs = s.runs := rfl
@[simp] theorem State.drawTree_freq (s : State) : s.drawTree.freq = s.freq := rfl
@[simp] theorem State.drawTree_tree (s : State) : s.drawTree.tree = Space.fresh s.draws := rfl
@[simp] theorem State.drawTree_clen (s : State) : s.drawTree.clen = s.clen := rfl
@[simp] theorem State.drawTree_cval (s : State) : s.drawTree.cval = s.cval := rfl
@[simp] theorem State.drawTree_bits (s : State) : s.drawTree.bits = s.bits := rfl
@[simp] theorem State.drawTree_coef (s : State) : s.drawTree.coef = s.coef := rfl
@[simp] theorem State.drawTree_suba (s : State) : s.drawTree.suba = s.suba := rfl
@[simp] theorem State.drawTree_subh (s : State) : s.drawTree.subh = s.subh := rfl
@[simp] theorem State.drawTree_subv (s : State) : s.drawTree.subv = s.subv := rfl
@[simp] theorem State.drawTree_subd (s : State) : s.drawTree.subd = s.subd := rfl
@[simp] theorem State.drawTree_inReset (s : State) : s.drawTree.inReset = s.inReset := rfl
@[simp] theorem State.drawTree_busData (s : State) : s.drawTree.busData = s.busData := rfl
@[simp] theorem State.drawTree_draws (s : State) : s.drawTree.draws = s.draws + 1 := rfl
@[simp] theorem State.drawTree_moves (s : State) : s.drawTree.moves = s.moves := rfl

@[simp] theorem State.drawBits_status (s : State) : s.drawBits.status = s.status := rfl
@[simp] theorem State.drawBits_errcode (s : State) : s.drawBits.errcode = s.errcode := rfl
@[simp] theorem State.drawBits_ie (s : State) : s.drawBits.ie = s.ie := rfl
@[simp] theorem State.drawBits_w (s : State) : s.drawBits.w = s.w := rfl
@[simp] theorem State.drawBits_h (s : State) : s.drawBits.h = s.h := rfl
@[simp] theorem State.drawBits_blk (s : State) : s.drawBits.blk = s.blk := rfl
@[simp] theorem State.drawBits_q (s : State) : s.drawBits.q = s.q := rfl
@[simp] theorem State.drawBits_nruns (s : State) : s.drawBits.nruns = s.nruns := rfl
@[simp] theorem State.drawBits_bitlen (s : State) : s.drawBits.bitlen = s.bitlen := rfl
@[simp] theorem State.drawBits_nnodes (s : State) : s.drawBits.nnodes = s.nnodes := rfl
@[simp] theorem State.drawBits_root (s : State) : s.drawBits.root = s.root := rfl
@[simp] theorem State.drawBits_lcmd (s : State) : s.drawBits.lcmd = s.lcmd := rfl
@[simp] theorem State.drawBits_pix (s : State) : s.drawBits.pix = s.pix := rfl
@[simp] theorem State.drawBits_runs (s : State) : s.drawBits.runs = s.runs := rfl
@[simp] theorem State.drawBits_freq (s : State) : s.drawBits.freq = s.freq := rfl
@[simp] theorem State.drawBits_tree (s : State) : s.drawBits.tree = s.tree := rfl
@[simp] theorem State.drawBits_clen (s : State) : s.drawBits.clen = s.clen := rfl
@[simp] theorem State.drawBits_cval (s : State) : s.drawBits.cval = s.cval := rfl
@[simp] theorem State.drawBits_bits (s : State) : s.drawBits.bits = Space.fresh s.draws := rfl
@[simp] theorem State.drawBits_coef (s : State) : s.drawBits.coef = s.coef := rfl
@[simp] theorem State.drawBits_suba (s : State) : s.drawBits.suba = s.suba := rfl
@[simp] theorem State.drawBits_subh (s : State) : s.drawBits.subh = s.subh := rfl
@[simp] theorem State.drawBits_subv (s : State) : s.drawBits.subv = s.subv := rfl
@[simp] theorem State.drawBits_subd (s : State) : s.drawBits.subd = s.subd := rfl
@[simp] theorem State.drawBits_inReset (s : State) : s.drawBits.inReset = s.inReset := rfl
@[simp] theorem State.drawBits_busData (s : State) : s.drawBits.busData = s.busData := rfl
@[simp] theorem State.drawBits_draws (s : State) : s.drawBits.draws = s.draws + 1 := rfl
@[simp] theorem State.drawBits_moves (s : State) : s.drawBits.moves = s.moves := rfl

@[simp] theorem State.drawCoef_status (s : State) : s.drawCoef.status = s.status := rfl
@[simp] theorem State.drawCoef_errcode (s : State) : s.drawCoef.errcode = s.errcode := rfl
@[simp] theorem State.drawCoef_ie (s : State) : s.drawCoef.ie = s.ie := rfl
@[simp] theorem State.drawCoef_w (s : State) : s.drawCoef.w = s.w := rfl
@[simp] theorem State.drawCoef_h (s : State) : s.drawCoef.h = s.h := rfl
@[simp] theorem State.drawCoef_blk (s : State) : s.drawCoef.blk = s.blk := rfl
@[simp] theorem State.drawCoef_q (s : State) : s.drawCoef.q = s.q := rfl
@[simp] theorem State.drawCoef_nruns (s : State) : s.drawCoef.nruns = s.nruns := rfl
@[simp] theorem State.drawCoef_bitlen (s : State) : s.drawCoef.bitlen = s.bitlen := rfl
@[simp] theorem State.drawCoef_nnodes (s : State) : s.drawCoef.nnodes = s.nnodes := rfl
@[simp] theorem State.drawCoef_root (s : State) : s.drawCoef.root = s.root := rfl
@[simp] theorem State.drawCoef_lcmd (s : State) : s.drawCoef.lcmd = s.lcmd := rfl
@[simp] theorem State.drawCoef_pix (s : State) : s.drawCoef.pix = s.pix := rfl
@[simp] theorem State.drawCoef_runs (s : State) : s.drawCoef.runs = s.runs := rfl
@[simp] theorem State.drawCoef_freq (s : State) : s.drawCoef.freq = s.freq := rfl
@[simp] theorem State.drawCoef_tree (s : State) : s.drawCoef.tree = s.tree := rfl
@[simp] theorem State.drawCoef_clen (s : State) : s.drawCoef.clen = s.clen := rfl
@[simp] theorem State.drawCoef_cval (s : State) : s.drawCoef.cval = s.cval := rfl
@[simp] theorem State.drawCoef_bits (s : State) : s.drawCoef.bits = s.bits := rfl
@[simp] theorem State.drawCoef_coef (s : State) : s.drawCoef.coef = Space.fresh s.draws := rfl
@[simp] theorem State.drawCoef_suba (s : State) : s.drawCoef.suba = s.suba := rfl
@[simp] theorem State.drawCoef_subh (s : State) : s.drawCoef.subh = s.subh := rfl
@[simp] theorem State.drawCoef_subv (s : State) : s.drawCoef.subv = s.subv := rfl
@[simp] theorem State.drawCoef_subd (s : State) : s.drawCoef.subd = s.subd := rfl
@[simp] theorem State.drawCoef_inReset (s : State) : s.drawCoef.inReset = s.inReset := rfl
@[simp] theorem State.drawCoef_busData (s : State) : s.drawCoef.busData = s.busData := rfl
@[simp] theorem State.drawCoef_draws (s : State) : s.drawCoef.draws = s.draws + 1 := rfl
@[simp] theorem State.drawCoef_moves (s : State) : s.drawCoef.moves = s.moves := rfl

@[simp] theorem State.drawCodes_status (s : State) : s.drawCodes.status = s.status := rfl
@[simp] theorem State.drawCodes_errcode (s : State) : s.drawCodes.errcode = s.errcode := rfl
@[simp] theorem State.drawCodes_ie (s : State) : s.drawCodes.ie = s.ie := rfl
@[simp] theorem State.drawCodes_w (s : State) : s.drawCodes.w = s.w := rfl
@[simp] theorem State.drawCodes_h (s : State) : s.drawCodes.h = s.h := rfl
@[simp] theorem State.drawCodes_blk (s : State) : s.drawCodes.blk = s.blk := rfl
@[simp] theorem State.drawCodes_q (s : State) : s.drawCodes.q = s.q := rfl
@[simp] theorem State.drawCodes_nruns (s : State) : s.drawCodes.nruns = s.nruns := rfl
@[simp] theorem State.drawCodes_bitlen (s : State) : s.drawCodes.bitlen = s.bitlen := rfl
@[simp] theorem State.drawCodes_nnodes (s : State) : s.drawCodes.nnodes = s.nnodes := rfl
@[simp] theorem State.drawCodes_root (s : State) : s.drawCodes.root = s.root := rfl
@[simp] theorem State.drawCodes_lcmd (s : State) : s.drawCodes.lcmd = s.lcmd := rfl
@[simp] theorem State.drawCodes_pix (s : State) : s.drawCodes.pix = s.pix := rfl
@[simp] theorem State.drawCodes_runs (s : State) : s.drawCodes.runs = s.runs := rfl
@[simp] theorem State.drawCodes_freq (s : State) : s.drawCodes.freq = s.freq := rfl
@[simp] theorem State.drawCodes_tree (s : State) : s.drawCodes.tree = s.tree := rfl
@[simp] theorem State.drawCodes_clen (s : State) : s.drawCodes.clen = Space.fresh s.draws := rfl
@[simp] theorem State.drawCodes_cval (s : State) :
    s.drawCodes.cval = Space.fresh (s.draws + 1) := rfl
@[simp] theorem State.drawCodes_bits (s : State) : s.drawCodes.bits = s.bits := rfl
@[simp] theorem State.drawCodes_coef (s : State) : s.drawCodes.coef = s.coef := rfl
@[simp] theorem State.drawCodes_suba (s : State) : s.drawCodes.suba = s.suba := rfl
@[simp] theorem State.drawCodes_subh (s : State) : s.drawCodes.subh = s.subh := rfl
@[simp] theorem State.drawCodes_subv (s : State) : s.drawCodes.subv = s.subv := rfl
@[simp] theorem State.drawCodes_subd (s : State) : s.drawCodes.subd = s.subd := rfl
@[simp] theorem State.drawCodes_inReset (s : State) : s.drawCodes.inReset = s.inReset := rfl
@[simp] theorem State.drawCodes_busData (s : State) : s.drawCodes.busData = s.busData := rfl
@[simp] theorem State.drawCodes_draws (s : State) : s.drawCodes.draws = s.draws + 2 := rfl
@[simp] theorem State.drawCodes_moves (s : State) : s.drawCodes.moves = s.moves := rfl

@[simp] theorem State.drawSubbands_status (s : State) : s.drawSubbands.status = s.status := rfl
@[simp] theorem State.drawSubbands_errcode (s : State) : s.drawSubbands.errcode = s.errcode := rfl
@[simp] theorem State.drawSubbands_ie (s : State) : s.drawSubbands.ie = s.ie := rfl
@[simp] theorem State.drawSubbands_w (s : State) : s.drawSubbands.w = s.w := rfl
@[simp] theorem State.drawSubbands_h (s : State) : s.drawSubbands.h = s.h := rfl
@[simp] theorem State.drawSubbands_blk (s : State) : s.drawSubbands.blk = s.blk := rfl
@[simp] theorem State.drawSubbands_q (s : State) : s.drawSubbands.q = s.q := rfl
@[simp] theorem State.drawSubbands_nruns (s : State) : s.drawSubbands.nruns = s.nruns := rfl
@[simp] theorem State.drawSubbands_bitlen (s : State) : s.drawSubbands.bitlen = s.bitlen := rfl
@[simp] theorem State.drawSubbands_nnodes (s : State) : s.drawSubbands.nnodes = s.nnodes := rfl
@[simp] theorem State.drawSubbands_root (s : State) : s.drawSubbands.root = s.root := rfl
@[simp] theorem State.drawSubbands_lcmd (s : State) : s.drawSubbands.lcmd = s.lcmd := rfl
@[simp] theorem State.drawSubbands_pix (s : State) : s.drawSubbands.pix = s.pix := rfl
@[simp] theorem State.drawSubbands_runs (s : State) : s.drawSubbands.runs = s.runs := rfl
@[simp] theorem State.drawSubbands_freq (s : State) : s.drawSubbands.freq = s.freq := rfl
@[simp] theorem State.drawSubbands_tree (s : State) : s.drawSubbands.tree = s.tree := rfl
@[simp] theorem State.drawSubbands_clen (s : State) : s.drawSubbands.clen = s.clen := rfl
@[simp] theorem State.drawSubbands_cval (s : State) : s.drawSubbands.cval = s.cval := rfl
@[simp] theorem State.drawSubbands_bits (s : State) : s.drawSubbands.bits = s.bits := rfl
@[simp] theorem State.drawSubbands_coef (s : State) : s.drawSubbands.coef = s.coef := rfl
@[simp] theorem State.drawSubbands_suba (s : State) :
    s.drawSubbands.suba = Space.fresh s.draws := rfl
@[simp] theorem State.drawSubbands_subh (s : State) :
    s.drawSubbands.subh = Space.fresh (s.draws + 1) := rfl
@[simp] theorem State.drawSubbands_subv (s : State) :
    s.drawSubbands.subv = Space.fresh (s.draws + 2) := rfl
@[simp] theorem State.drawSubbands_subd (s : State) :
    s.drawSubbands.subd = Space.fresh (s.draws + 3) := rfl
@[simp] theorem State.drawSubbands_inReset (s : State) : s.drawSubbands.inReset = s.inReset := rfl
@[simp] theorem State.drawSubbands_busData (s : State) : s.drawSubbands.busData = s.busData := rfl
@[simp] theorem State.drawSubbands_draws (s : State) : s.drawSubbands.draws = s.draws + 4 := rfl
@[simp] theorem State.drawSubbands_moves (s : State) : s.drawSubbands.moves = s.moves := rfl

end Sys2Proof.Machine
end

