-- ==== Sys2Proof/Laws/Form.lean ====
section
/-! SUPPORT. The canonical form of the data spaces (log 3): every operation on memory keeps it, and
the reset state has it. -/

namespace Sys2Proof.Machine

/-- The form, space by space. -/
theorem Memory.wf_iff (s : State) : Memory.wf s = true ↔
    s.pix.wf = true ∧ s.runs.wf = true ∧ s.freq.wf = true ∧ s.tree.wf = true ∧ s.clen.wf = true ∧
    s.cval.wf = true ∧ s.bits.wf = true ∧ s.coef.wf = true ∧ s.suba.wf = true ∧
    s.subh.wf = true ∧ s.subv.wf = true ∧ s.subd.wf = true := by
  simp only [Memory.wf, Bool.and_eq_true, and_assoc]

/-- The form is that of the twelve spaces, whatever else differs. -/
theorem Memory.wf_congr {s t : State} (h : Memory.wf s = true)
    (hp : s.pix.wf = true → t.pix.wf = true) (hr : s.runs.wf = true → t.runs.wf = true)
    (hf : s.freq.wf = true → t.freq.wf = true) (ht : s.tree.wf = true → t.tree.wf = true)
    (hl : s.clen.wf = true → t.clen.wf = true) (hv : s.cval.wf = true → t.cval.wf = true)
    (hb : s.bits.wf = true → t.bits.wf = true) (hc : s.coef.wf = true → t.coef.wf = true)
    (ha : s.suba.wf = true → t.suba.wf = true) (hh : s.subh.wf = true → t.subh.wf = true)
    (hw : s.subv.wf = true → t.subv.wf = true) (hd : s.subd.wf = true → t.subd.wf = true) :
    Memory.wf t = true := by
  rw [Memory.wf_iff] at h ⊢
  obtain ⟨p, r, f, n, l, v, b, c, a, u, w, d⟩ := h
  exact ⟨hp p, hr r, hf f, ht n, hl l, hv v, hb b, hc c, ha a, hh u, hw w, hd d⟩

theorem Memory.wf_putPix {s : State} (h : Memory.wf s = true) (x : List Byte) :
    Memory.wf (s.putPix x) = true :=
  wf_congr h (fun k => Space.wf_writeFrom k 0 x) id id id id id id id id id id id

theorem Memory.wf_putRuns {s : State} (h : Memory.wf s = true) (x : List Run) :
    Memory.wf (s.putRuns x) = true :=
  wf_congr h id (fun k => Space.wf_writeFrom k 0 _) id id id id id id id id id id

theorem Memory.wf_putFreq {s : State} (h : Memory.wf s = true) (count : Nat → Nat) :
    Memory.wf (s.putFreq count) = true :=
  wf_congr h id id (fun k => Space.wf_writeFrom k 0 _) id id id id id id id id id

theorem Memory.wf_putTree {s : State} (h : Memory.wf s = true) (x : List Node) :
    Memory.wf (s.putTree x) = true :=
  wf_congr h id id id (fun k => Space.wf_writeFrom k 0 _) id id id id id id id id

theorem Memory.wf_putCodes {s : State} (h : Memory.wf s = true) (x : CodeTable) :
    Memory.wf (s.putCodes x) = true :=
  wf_congr h id id id id (fun k => Space.wf_writeFrom k 0 _) (fun k => Space.wf_writeFrom k 0 _)
    id id id id id id

theorem Memory.wf_putBits {s : State} (h : Memory.wf s = true) (x : Code) :
    Memory.wf (s.putBits x) = true :=
  wf_congr h id id id id id id (fun k => Space.wf_writeFrom k 0 _) id id id id id

theorem Memory.wf_putCoef {s : State} (h : Memory.wf s = true) (x : List Flt) :
    Memory.wf (s.putCoef x) = true :=
  wf_congr h id id id id id id id (fun k => Space.wf_writeFrom k 0 _) id id id id

theorem Memory.wf_putSubbands {s : State} (h : Memory.wf s = true)
    (x : List (Flt × Flt × Flt × Flt)) : Memory.wf (s.putSubbands x) = true :=
  wf_congr h id id id id id id id id (fun k => Space.wf_writeFrom k 0 _)
    (fun k => Space.wf_writeFrom k 0 _) (fun k => Space.wf_writeFrom k 0 _)
    (fun k => Space.wf_writeFrom k 0 _)

/-- A space that becomes unspecified lists nothing. -/
theorem Memory.wf_failureOutputs {s : State} (h : Memory.wf s = true) (command : Option Instr) :
    Memory.wf (failureOutputs command s) = true := by
  rw [Memory.wf_iff] at h ⊢
  rcases command with _ | i
  · exact h
  · cases i <;> simp [failureOutputs, h]

theorem Memory.wf_failureEntry {s : State} (h : Memory.wf s = true) (command : Option Instr)
    (kind : FailureKind) : Memory.wf (failureEntry command kind s) = true :=
  Memory.wf_failureOutputs h command

/-- A host write to any space. -/
theorem Memory.wf_poke {s : State} (h : Memory.wf s = true) (c : Config) (sp : SpaceId) (i : Nat) (v : Wide) :
    Memory.wf (s.poke c sp i v) = true := by
  cases sp with
  | pix => exact wf_congr h (fun k => Space.wf_write k i _) id id id id id id id id id id id
  | runs => exact wf_congr h id (fun k => Space.wf_write k i _) id id id id id id id id id id
  | freq => exact wf_congr h id id (fun k => Space.wf_write k i _) id id id id id id id id id
  | tree => exact h
  | clen => exact wf_congr h id id id id (fun k => Space.wf_write k i _) id id id id id id id
  | cval => exact wf_congr h id id id id id (fun k => Space.wf_write k i _) id id id id id id
  | bits => exact wf_congr h id id id id id id (fun k => Space.wf_writeFrom k _ _) id id id id id
  | coef => exact wf_congr h id id id id id id id (fun k => Space.wf_write k i _) id id id id
  | suba => exact wf_congr h id id id id id id id id (fun k => Space.wf_write k i _) id id id
  | subh => exact wf_congr h id id id id id id id id id (fun k => Space.wf_write k i _) id id
  | subv => exact wf_congr h id id id id id id id id id id (fun k => Space.wf_write k i _) id
  | subd => exact wf_congr h id id id id id id id id id id id (fun k => Space.wf_write k i _)

theorem Memory.wf_afterReset (draws : Nat) (busData : Wide) (moves : List Move) :
    Memory.wf (State.afterReset draws busData moves) = true := rfl

theorem Memory.wf_reset : Memory.wf State.reset = true := rfl

end Sys2Proof.Machine
end

