-- ==== Sys2Proof/Laws/Ops.lean ====
section
/-! SUPPORT. What the shared operations answer: the end of a command, the failure entry, the engine's
step and the next event, each said once. -/

namespace Sys2Proof.Machine

@[simp] theorem conclude_ok (i : Instr) (s t : State) :
    conclude i s (.ok t) = .next t.complete := rfl

@[simp] theorem conclude_error (i : Instr) (s : State) (kind : FailureKind) :
    conclude i s (.error kind) = .next (failureEntry (some i) kind s) := rfl

/-- Whatever a command's result, its step answers a next state: the completion or the entry. -/
theorem conclude_cases {i : Instr} {s u : State} {r : Except FailureKind State}
    (h : conclude i s r = .next u) :
    (∃ t, r = .ok t ∧ u = t.complete) ∨ (∃ k, r = .error k ∧ u = failureEntry (some i) k s) := by
  cases r with
  | ok t => exact .inl ⟨t, rfl, by simpa using h.symm⟩
  | error k => exact .inr ⟨k, rfl, by simpa using h.symm⟩

@[simp] theorem exec_rleenc (s : State) :
    exec .rleenc s = conclude .rleenc s (rleenc machineConfig s) := rfl
@[simp] theorem exec_rledec (s : State) :
    exec .rledec s = conclude .rledec s (rledec machineConfig s) := rfl
@[simp] theorem exec_hfreq (s : State) :
    exec .hfreq s = conclude .hfreq s (hfreq machineConfig s) := rfl
@[simp] theorem exec_htree (s : State) : exec .htree s = conclude .htree s (htree s) := rfl
@[simp] theorem exec_hcodes (s : State) : exec .hcodes s = conclude .hcodes s (hcodes s) := rfl
@[simp] theorem exec_henc (s : State) :
    exec .henc s = conclude .henc s (henc machineConfig s) := rfl
@[simp] theorem exec_hdec (s : State) :
    exec .hdec s = conclude .hdec s (hdec machineConfig s) := rfl
@[simp] theorem exec_xfwdDct (s : State) :
    exec .xfwdDct s = conclude .xfwdDct s (xfwdDct machineConfig s) := rfl
@[simp] theorem exec_xinvDct (s : State) :
    exec .xinvDct s = conclude .xinvDct s (xinvDct machineConfig s) := rfl
@[simp] theorem exec_xfwdHaar (s : State) :
    exec .xfwdHaar s = conclude .xfwdHaar s (xfwdHaar machineConfig s) := rfl
@[simp] theorem exec_xinvHaar (s : State) :
    exec .xinvHaar s = conclude .xinvHaar s (xinvHaar machineConfig s) := rfl

/-- Every `RLEENC` is one of these (40_rle R121). -/
theorem rleenc_cases (c : Config) (s : State) :
    (c.maxLen < s.len ∧ rleenc c s = .error .capacityExceeded) ∨
    (s.len ≤ c.maxLen ∧ s.len = 0 ∧ rleenc c s = .error .emptyInput) ∨
    (s.len ≤ c.maxLen ∧ s.len ≠ 0 ∧ rleenc c s = .ok (s.putRuns (runsOf s.samples))) := by
  unfold rleenc
  by_cases h : s.len > c.maxLen
  · exact .inl ⟨h, if_pos h⟩
  · by_cases h0 : s.len = 0
    · exact .inr (.inl ⟨by omega, h0, by rw [if_neg h, if_pos h0]⟩)
    · exact .inr (.inr ⟨by omega, h0, by rw [if_neg h, if_neg h0]⟩)

/-- Every `RLEDEC` is one of these (40_rle R126). -/
theorem rledec_cases (c : Config) (s : State) :
    ((c.maxLen < s.len ∨ c.maxLen < s.nruns.toNat) ∧ rledec c s = .error .capacityExceeded) ∨
    (s.len ≤ c.maxLen ∧ s.nruns.toNat ≤ c.maxLen ∧ totalCount s.runList ≠ s.len ∧
      rledec c s = .error .shapeMismatch) ∨
    (s.len ≤ c.maxLen ∧ s.nruns.toNat ≤ c.maxLen ∧ totalCount s.runList = s.len ∧
      rledec c s = .ok (s.putPix (expand s.runList))) := by
  unfold rledec
  by_cases h : s.len > c.maxLen ∨ s.nruns.toNat > c.maxLen
  · exact .inl ⟨h, if_pos h⟩
  · by_cases h0 : totalCount s.runList ≠ s.len
    · exact .inr (.inl ⟨by omega, by omega, h0, by rw [if_neg h, if_pos h0]⟩)
    · exact .inr (.inr ⟨by omega, by omega, by omega, by rw [if_neg h, if_neg h0]⟩)

/-- Every `HENC` is one of these (41_huffman_encoder R161). -/
theorem henc_cases (c : Config) (s : State) :
    henc c s = .error .capacityExceeded ∨ henc c s = .error .emptyInput ∨
    (s.len ≤ c.maxLen ∧ streamLength (sampleTable s.samples) s.samples ≤ c.maxBits ∧
      henc c s = .ok ((s.putCodes (sampleTable s.samples)).putBits
        (bitstream (sampleTable s.samples) s.samples)).dropTree.drawFreq.drawTree) := by
  unfold henc
  by_cases h : s.len > c.maxLen
  · exact .inl (if_pos h)
  · rw [if_neg h]
    by_cases h0 : presentSymbols (occurrences s.samples) = []
    · exact .inr (.inl (if_pos h0))
    · rw [if_neg h0]
      by_cases h1 : streamLength (sampleTable s.samples) s.samples > c.maxBits
      · exact .inl (if_pos h1)
      · exact .inr (.inr ⟨by omega, by omega, if_neg h1⟩)

/-- Every `HDEC` is one of these (42_huffman_decoder R181). -/
theorem hdec_cases (c : Config) (s : State) :
    hdec c s = .error .capacityExceeded ∨ hdec c s = .error .invalidBitstream ∨
    (s.len ≤ c.maxLen ∧ s.bitlen.toNat ≤ c.maxBits ∧
      (scanBits s.codeTable [] (s.stream s.bitlen.toNat)).2 = [] ∧
      (scanBits s.codeTable [] (s.stream s.bitlen.toNat)).1.length = s.len ∧
      hdec c s = .ok (s.putPix (scanBits s.codeTable [] (s.stream s.bitlen.toNat)).1)) := by
  unfold hdec
  by_cases h : s.len > c.maxLen ∨ s.bitlen.toNat > c.maxBits
  · exact .inl (if_pos h)
  · rw [if_neg h]
    by_cases h0 : (scanBits s.codeTable [] (s.stream s.bitlen.toNat)).2 ≠ []
    · exact .inr (.inl (if_pos h0))
    · by_cases h1 : (scanBits s.codeTable [] (s.stream s.bitlen.toNat)).1.length ≠ s.len
      · exact .inr (.inl (by rw [if_neg h0, if_pos h1]))
      · exact .inr (.inr ⟨by omega, by omega, not_not.mp h0, not_not.mp h1, by
          rw [if_neg h0, if_neg h1]⟩)

/-- Every transform command is one of these, for its own shape check `bad` and writes `t`
(43_block_transform R205, R210; 44_wavelet_transform R234, R236). -/
theorem transform_cases {c : Config} {s t : State} {bad : Bool} {r : Except FailureKind State}
    (hr : r = if s.len > c.maxLen then .error .capacityExceeded
      else if bad then .error .unsupportedBlockShape else .ok t) :
    (c.maxLen < s.len ∧ r = .error .capacityExceeded) ∨
    (s.len ≤ c.maxLen ∧ bad = true ∧ r = .error .unsupportedBlockShape) ∨
    (s.len ≤ c.maxLen ∧ bad = false ∧ r = .ok t) := by
  by_cases h : s.len > c.maxLen
  · exact .inl ⟨h, by rw [hr, if_pos h]⟩
  · cases bad
    · exact .inr (.inr ⟨by omega, rfl, by rw [hr, if_neg h]; rfl⟩)
    · exact .inr (.inl ⟨by omega, rfl, by rw [hr, if_neg h]; rfl⟩)

/-- `exec` is the parametric execution at the default parameters. -/
theorem execWith_machineConfig (i : Instr) (s : State) : execWith machineConfig i s = exec i s := by
  cases i <;> rfl

/-- `step` is the parametric step at the default parameters. -/
theorem stepWith_machineConfig (s : State) : stepWith machineConfig s = step s := by
  unfold stepWith step
  rw [show execWith machineConfig = exec from funext fun i => funext fun s =>
    execWith_machineConfig i s]

/-- At any parameters a command answers a next state. -/
theorem execWith_answers_next (c : Config) (i : Instr) (s : State) :
    ∃ t, execWith c i s = .next t := by
  cases i <;> exact ⟨_, rfl⟩

@[simp] theorem machineConfig_maxLen : machineConfig.maxLen = 2 ^ 32 - 1 := rfl
@[simp] theorem machineConfig_maxBits : machineConfig.maxBits = 2 ^ 40 - 1 := rfl
@[simp] theorem machineConfig_blkMax : machineConfig.blkMax = 64 := rfl
@[simp] theorem machineConfig_flt : machineConfig.flt = binary64 := rfl
@[simp] theorem binary64_width : binary64.width = 64 := rfl
@[simp] theorem binary64_isNaN : binary64.isNaN = fltIsNaN := rfl
@[simp] theorem binary64_isInf : binary64.isInf = fltIsInf := rfl
@[simp] theorem binary64_isNegative : binary64.isNegative = fltNegative := rfl
@[simp] theorem binary64_zero : binary64.zero = 0 := rfl
@[simp] theorem binary64_ofByte : binary64.ofByte = fltOfByte := rfl
@[simp] theorem binary64_abs : binary64.abs = fltAbs := rfl
@[simp] theorem binary64_lt : binary64.lt = fltLt := rfl
@[simp] theorem pattern_of_binary64 (v : Flt) : binary64.pattern v = v := binary64_pattern v

@[simp] theorem readFlt_of_binary64 (sp : Space 64) (i : Nat) : sp.readFlt binary64 i = sp.read i :=
  binary64_pattern _

@[simp] theorem step_of_no_moves {s : State} (h : s.moves = []) : step s = engineStep exec s := by
  unfold step nextEvent; rw [h]

@[simp] theorem step_of_move {s : State} {m : Move} {rest : List Move} (h : s.moves = m :: rest) :
    step s = runMove machineConfig exec { s with moves := rest } m := by
  unfold step nextEvent; rw [h]

/-- The engine's step on a command. -/
theorem engineStep_of_command {run : Runner} {s : State} {i : Instr} (h : s.canStep = true)
    (hd : decode s.lcmd = .ok i) : engineStep run s = run i s := by
  unfold engineStep; rw [if_pos h, hd]

/-- The engine's step on an illegal word. -/
theorem engineStep_of_illegal {run : Runner} {s : State} {e : Illegal} (h : s.canStep = true)
    (hd : decode s.lcmd = .error e) : engineStep run s = .next (illegalCommand s) := by
  unfold engineStep; rw [if_pos h, hd]

/-- An engine that cannot step keeps its state. -/
theorem engineStep_of_idle {run : Runner} {s : State} (h : s.canStep = false) : engineStep run s = .next s := by
  unfold engineStep; rw [h]; rfl

/-- All that the engine's step can do. -/
theorem engineStep_cases {run : Runner} {s t : State} (h : engineStep run s = .next t) :
    (s.canStep = false ∧ t = s) ∨
    (s.canStep = true ∧ ∃ i, decode s.lcmd = .ok i ∧ run i s = .next t) ∨
    (s.canStep = true ∧ (∃ e, decode s.lcmd = .error e) ∧ t = illegalCommand s) := by
  cases hc : s.canStep with
  | false => rw [engineStep_of_idle hc] at h; exact .inl ⟨rfl, by simpa using h.symm⟩
  | true =>
    cases hd : decode s.lcmd with
    | ok i => rw [engineStep_of_command hc hd] at h; exact .inr (.inl ⟨rfl, i, rfl, h⟩)
    | error e =>
      rw [engineStep_of_illegal hc hd] at h
      exact .inr (.inr ⟨rfl, ⟨e, rfl⟩, by simpa using h.symm⟩)

/-- A command never answers anything but a next state. -/
theorem exec_answers_next (i : Instr) (s : State) : ∃ t, exec i s = .next t := by
  cases i <;> exact ⟨_, rfl⟩

/-- Every `HFREQ` is one of these (41_huffman_encoder R141). -/
theorem hfreq_cases (c : Config) (s : State) :
    (c.maxLen < s.len ∧ hfreq c s = .error .capacityExceeded) ∨
    (s.len ≤ c.maxLen ∧ hfreq c s = .ok (s.putFreq (occurrences s.samples))) := by
  unfold hfreq
  by_cases h : s.len > c.maxLen
  · exact .inl ⟨h, if_pos h⟩
  · exact .inr ⟨by omega, if_neg h⟩

/-- Every `HTREE` is one of these (41_huffman_encoder R145). -/
theorem htree_cases (s : State) :
    (presentSymbols s.count = [] ∧ htree s = .error .emptyInput) ∨
    (presentSymbols s.count ≠ [] ∧ htree s = .ok (s.putTree (buildTree s.count))) := by
  unfold htree
  by_cases h : presentSymbols s.count = []
  · exact .inl ⟨h, if_pos h⟩
  · exact .inr ⟨h, if_neg h⟩

/-- Every `HCODES` is one of these (41_huffman_encoder R154). -/
theorem hcodes_cases (s : State) :
    (s.nnodes = 0 ∧ hcodes s = .error .emptyInput) ∨
    (s.nnodes ≠ 0 ∧
      hcodes s = .ok (s.putCodes (treeTable s.node s.nnodes.toNat s.root.toNat))) := by
  unfold hcodes
  by_cases h : s.nnodes = 0
  · exact .inl ⟨h, if_pos h⟩
  · exact .inr ⟨h, if_neg h⟩

/-- Every `XFWD.DCT` is one of these (43_block_transform R205). -/
theorem xfwdDct_cases (c : Config) (s : State) :
    (c.maxLen < s.len ∧ xfwdDct c s = .error .capacityExceeded) ∨
    (s.len ≤ c.maxLen ∧ badBlockShape c s = true ∧
      xfwdDct c s = .error .unsupportedBlockShape) ∨
    (s.len ≤ c.maxLen ∧ badBlockShape c s = false ∧
      xfwdDct c s = .ok (s.putCoef ((List.range s.len).map (s.forwardDct c)))) :=
  transform_cases rfl

/-- Every `XINV.DCT` is one of these (43_block_transform R210). -/
theorem xinvDct_cases (c : Config) (s : State) :
    (c.maxLen < s.len ∧ xinvDct c s = .error .capacityExceeded) ∨
    (s.len ≤ c.maxLen ∧ badBlockShape c s = true ∧
      xinvDct c s = .error .unsupportedBlockShape) ∨
    (s.len ≤ c.maxLen ∧ badBlockShape c s = false ∧
      xinvDct c s = .ok (s.putPix ((List.range s.len).map (s.inverseDct c))).tick) :=
  transform_cases rfl

/-- Every `XFWD.HAAR` is one of these (44_wavelet_transform R234). -/
theorem xfwdHaar_cases (c : Config) (s : State) :
    (c.maxLen < s.len ∧ xfwdHaar c s = .error .capacityExceeded) ∨
    (s.len ≤ c.maxLen ∧ badCellShape s = true ∧ xfwdHaar c s = .error .unsupportedBlockShape) ∨
    (s.len ≤ c.maxLen ∧ badCellShape s = false ∧
      xfwdHaar c s = .ok (s.putSubbands ((List.range (s.len / 4)).map (s.forwardCell c)))) :=
  transform_cases rfl

/-- Every `XINV.HAAR` is one of these (44_wavelet_transform R236). -/
theorem xinvHaar_cases (c : Config) (s : State) :
    (c.maxLen < s.len ∧ xinvHaar c s = .error .capacityExceeded) ∨
    (s.len ≤ c.maxLen ∧ badCellShape s = true ∧ xinvHaar c s = .error .unsupportedBlockShape) ∨
    (s.len ≤ c.maxLen ∧ badCellShape s = false ∧
      xinvHaar c s = .ok (s.putPix ((List.range s.len).map (s.inverseHaar c))).tick) :=
  transform_cases rfl

/-- Every host write to a register is one of these (70_reset_and_hazards R298, R299). -/
theorem hostWriteReg_cases (c : Config) (s : State) (index : Nat) (v : Slot) :
    (s.status.busy = true ∧ (index = 0 ∨ 4 ≤ index ∧ index ≤ 11) ∧
      hostWriteReg c s index v = s.setHaz) ∨
    hostWriteReg c s index v = s.writeSlot c v index := by
  unfold hostWriteReg
  split
  · next h =>
    simp only [isOperandRegister, Bool.and_eq_true, Bool.or_eq_true, beq_iff_eq,
      decide_eq_true_eq] at h
    exact .inl ⟨h.1, h.2, rfl⟩
  · exact .inr rfl

/-- Every host read of a register is one of these (10_state R21, 70_reset_and_hazards R299). -/
theorem hostReadReg_cases (c : Config) (s : State) (index : Nat) :
    (s.status.busy = true ∧ 4 ≤ index ∧ index ≤ 11 ∧
      hostReadReg c s index = (s.answerUnspecified (registerWidth c index)).setHaz) ∨
    hostReadReg c s index = s.answer ((s.slot c index).setWidth 256) := by
  unfold hostReadReg
  split
  · next h =>
    simp only [isOperandRegister, Bool.and_eq_true, decide_eq_true_eq] at h
    exact .inl ⟨h.2, h.1.1, h.1.2, rfl⟩
  · exact .inr rfl

/-- Every host write to a data space is one of these (20_memory R62, R66; 70_reset_and_hazards R299). -/
theorem hostWriteSpace_cases (c : Config) (s : State) (sp : SpaceId) (i : Nat) (v : Wide) :
    ((spaceSize c sp ≤ i ∨ s.status.busy = true) ∧ hostWriteSpace c s sp i v = s.setHaz) ∨
    (i < spaceSize c sp ∧ s.status.busy = false ∧ hostWriteSpace c s sp i v = s.poke c sp i v) := by
  unfold hostWriteSpace
  split
  · next h =>
    simp only [Bool.or_eq_true, decide_eq_true_eq] at h
    exact .inl ⟨h, rfl⟩
  · next h =>
    simp only [Bool.or_eq_true, decide_eq_true_eq, not_or, Nat.not_le, Bool.not_eq_true] at h
    exact .inr ⟨h.1, h.2, rfl⟩

/-- Every host read of a data space is one of these (20_memory R61, R66; 70_reset_and_hazards R299). -/
theorem hostReadSpace_cases (c : Config) (s : State) (sp : SpaceId) (i : Nat) :
    (spaceSize c sp ≤ i ∧ hostReadSpace c s sp i = (s.answer 0).setHaz) ∨
    (i < spaceSize c sp ∧ s.status.busy = true ∧
      hostReadSpace c s sp i = (s.answerUnspecified (elementWidth c sp)).setHaz) ∨
    (i < spaceSize c sp ∧ s.status.busy = false ∧
      hostReadSpace c s sp i = s.answer (s.peek c sp i)) := by
  unfold hostReadSpace
  by_cases h : spaceSize c sp ≤ i
  · exact .inl ⟨h, if_pos h⟩
  · cases hb : s.status.busy with
    | true => exact .inr (.inl ⟨by omega, rfl, by rw [if_neg h]; rfl⟩)
    | false => exact .inr (.inr ⟨by omega, rfl, by rw [if_neg h]; rfl⟩)

/-- `sat8` of a finite value at or below 0 is 0, and of one at or above 255 is 255, at any parameters:
clamping before or after `round8` is the same (43_block_transform R211). -/
theorem sat8_clamps (c : Config) (free : Byte) (x : Flt) (h : c.flt.isFinite x = true) :
    (c.flt.scaled x ≤ 0 → sat8 c free x = 0) ∧
    ((255 * c.flt.unit : Int) ≤ c.flt.scaled x → sat8 c free x = 255) := by
  have hf : c.flt.isNaN x = false ∧ c.flt.isInf x = false := by
    simpa [FltFormat.isFinite] using h
  have hbyte : ∀ b : Byte, c.flt.isFinite (c.flt.ofByte b) = true ∧
      c.round8 (c.flt.ofByte b) = b.toNat := by
    intro b
    obtain ⟨h1, h2, h3⟩ := c.flt.exact_byte b
    have h4 : c.flt.isFinite (c.flt.ofByte b) = true := by simp [FltFormat.isFinite, h1, h2]
    exact ⟨h4, c.round8_integer _ _ h4 h3⟩
  unfold sat8
  rw [hf.1, hf.2]
  constructor
  · intro hx
    have h0 := c.round8_monotone x (c.flt.ofByte 0) h (hbyte 0).1 (by
      rw [(c.flt.exact_byte 0).2.2]; simpa using hx)
    rw [(hbyte 0).2] at h0
    have : (min 255 (max 0 (c.round8 x))).toNat = 0 := by
      have : ((0 : Byte).toNat : Int) = 0 := rfl
      omega
    simp [this]
  · intro hx
    have h0 := c.round8_monotone (c.flt.ofByte 255) x (hbyte 255).1 h (by
      rw [(c.flt.exact_byte 255).2.2]; exact hx)
    rw [(hbyte 255).2] at h0
    have : (min 255 (max 0 (c.round8 x))).toNat = 255 := by
      have : ((255 : Byte).toNat : Int) = 255 := rfl
      omega
    simp [this]

/-- `sat8` of a converted sample is the sample, at any parameters (43_block_transform R211). -/
theorem sat8_ofByte (c : Config) (free b : Byte) : sat8 c free (c.flt.ofByte b) = b := by
  obtain ⟨h1, h2, h3⟩ := c.flt.exact_byte b
  have h4 : c.round8 (c.flt.ofByte b) = b.toNat :=
    c.round8_integer _ _ (by simp [FltFormat.isFinite, h1, h2]) h3
  unfold sat8
  rw [h1, h2, h4]
  have hb := b.isLt
  have : (min 255 (max 0 ((b.toNat : Int)))).toNat = b.toNat := by omega
  simp only [Bool.false_eq_true, if_false, this]
  simp

end Sys2Proof.Machine
end

