-- ==== Sys2Proof/Laws/PerInstr.lean ====
section
/-! SUPPORT. The family `Encoding`: each command is well formed and its word decodes to it
(30_encoding R91, R93). -/

namespace Sys2Proof.Laws.Encoding

/-- The command's fields pass every check, and its word decodes to it. -/
def Statement (i : Instr) : Prop := i.wellFormed = true ∧ decode (encode i) = .ok i

theorem rleenc : Statement .rleenc := ⟨by decide, by rfl⟩
theorem rledec : Statement .rledec := ⟨by decide, by rfl⟩
theorem hfreq : Statement .hfreq := ⟨by decide, by rfl⟩
theorem htree : Statement .htree := ⟨by decide, by rfl⟩
theorem hcodes : Statement .hcodes := ⟨by decide, by rfl⟩
theorem henc : Statement .henc := ⟨by decide, by rfl⟩
theorem hdec : Statement .hdec := ⟨by decide, by rfl⟩
theorem xfwdDct : Statement .xfwdDct := ⟨by decide, by rfl⟩
theorem xinvDct : Statement .xinvDct := ⟨by decide, by rfl⟩
theorem xfwdHaar : Statement .xfwdHaar := ⟨by decide, by rfl⟩
theorem xinvHaar : Statement .xinvHaar := ⟨by decide, by rfl⟩

end Sys2Proof.Laws.Encoding
end

