-- ==== Sys2Proof/Machine/RealReference.lean ====
section
/-! DEFINITION. The reference block pair over the reals, the orthonormal two-dimensional DCT-II and its
inverse (43_block_transform R203; general knowledge, log 8). `exec` does not use it; the kernels of
Reference.lean evaluate it. A block is a function of its row and its column. -/

namespace Sys2Proof.Machine

/-- `a(k)`. -/
noncomputable def dctScale (n k : ℕ) : ℝ := if k = 0 then √(1 / n) else √(2 / n)

/-- `a(k) cos((2j+1) k pi / (2N))`. -/
noncomputable def dctBasis (n k j : ℕ) : ℝ :=
  dctScale n k * Real.cos ((2 * j + 1) * k * Real.pi / (2 * n))

/-- `DCT_N(B)[u][v]`. -/
noncomputable def realDct (n : ℕ) (block : ℕ → ℕ → ℝ) (u v : ℕ) : ℝ :=
  ∑ x ∈ Finset.range n, ∑ y ∈ Finset.range n, dctBasis n u x * dctBasis n v y * block x y

/-- `IDCT_N(C)[x][y]`. -/
noncomputable def realIdct (n : ℕ) (block : ℕ → ℕ → ℝ) (x y : ℕ) : ℝ :=
  ∑ u ∈ Finset.range n, ∑ v ∈ Finset.range n, dctBasis n u x * dctBasis n v y * block u v

end Sys2Proof.Machine
end

