-- ==== Sys2Proof/Laws/RealReference.lean ====
section
/-! SUPPORT. Over the reals the reference block pair is exact: `IDCT_N(DCT_N(B)) = B`
(43_block_transform R203). -/

namespace Sys2Proof.Machine

/-- Twice the sine of half a step times the sum of the cosines telescopes. -/
theorem sin_mul_sum_cos (t : ℝ) (n : ℕ) :
    2 * Real.sin t * ∑ u ∈ Finset.range n, Real.cos (u * (2 * t)) =
      Real.sin ((2 * n - 1) * t) + Real.sin t := by
  induction n with
  | zero =>
    have h : (2 * ((0 : ℕ) : ℝ) - 1) * t = -t := by push_cast; ring
    rw [h, Real.sin_neg]; simp
  | succ n ih =>
    rw [Finset.sum_range_succ, mul_add, ih]
    have h1 : (2 * ((n + 1 : ℕ) : ℝ) - 1) * t = n * (2 * t) + t := by push_cast; ring
    have h2 : (2 * (n : ℝ) - 1) * t = n * (2 * t) - t := by ring
    rw [h1, h2, Real.sin_add, Real.sin_sub]
    ring

/-- The cosines of the multiples of `m pi / n` below `n` sum to 0 or 1 with the parity of `m`. -/
theorem sum_cos_multiples {n m : ℕ} (h0 : 0 < m) (h1 : m < 2 * n) :
    ∑ u ∈ Finset.range n, Real.cos (u * (m * Real.pi / n)) = if m % 2 = 0 then 0 else 1 := by
  have hn : (0 : ℝ) < n := by
    have : 0 < n := by omega
    exact_mod_cast this
  have hm : (0 : ℝ) < m := by exact_mod_cast h0
  have hmn : (m : ℝ) < 2 * n := by exact_mod_cast h1
  set t : ℝ := m * Real.pi / (2 * n) with ht
  have h2t : (m : ℝ) * Real.pi / n = 2 * t := by rw [ht]; field_simp
  have hpos : 0 < Real.sin t := by
    apply Real.sin_pos_of_pos_of_lt_pi
    · rw [ht]; positivity
    · rw [ht, div_lt_iff₀ (by positivity)]
      nlinarith [Real.pi_pos]
  have key := sin_mul_sum_cos t n
  have hlast : (2 * (n : ℝ) - 1) * t = m * Real.pi - t := by rw [ht]; field_simp
  rw [hlast, Real.sin_sub, Real.sin_nat_mul_pi, Real.cos_nat_mul_pi, zero_mul, zero_sub] at key
  simp only [h2t]
  rcases Nat.even_or_odd m with he | ho
  · rw [he.neg_one_pow] at key
    rw [if_pos (Nat.even_iff.mp he)]
    have : 2 * Real.sin t * ∑ u ∈ Finset.range n, Real.cos (u * (2 * t)) = 0 := by rw [key]; ring
    rcases mul_eq_zero.mp this with h | h
    · linarith
    · exact h
  · rw [ho.neg_one_pow] at key
    have hodd := Nat.odd_iff.mp ho
    rw [if_neg (by omega)]
    have : 2 * Real.sin t * ∑ u ∈ Finset.range n, Real.cos (u * (2 * t)) = 2 * Real.sin t * 1 := by
      rw [key]; ring
    exact mul_left_cancel₀ (by linarith) this

/-- The square of `a(k)`, with 1 in place of 2 for `k = 0`. -/
theorem dctScale_sq (n k : ℕ) : dctScale n k * dctScale n k = (if k = 0 then 1 else 2) / n := by
  unfold dctScale
  split <;> exact Real.mul_self_sqrt (by positivity)

/-- The rows of the basis are orthonormal, for positions `j ≤ i`. -/
theorem dctBasis_orthonormal_of_le {n i j : ℕ} (hi : i < n) (hj : j ≤ i) :
    ∑ k ∈ Finset.range n, dctBasis n k i * dctBasis n k j = if i = j then 1 else 0 := by
  have hn : (0 : ℝ) < n := by
    have : 0 < n := by omega
    exact_mod_cast this
  have hterm : ∀ k ∈ Finset.range n, dctBasis n k i * dctBasis n k j =
      (Real.cos (k * (((i - j : ℕ) : ℝ) * Real.pi / n) * 1)
        + Real.cos (k * (((i + j + 1 : ℕ) : ℝ) * Real.pi / n)) - if k = 0 then 1 else 0) / n := by
    intro k _
    have hc : dctBasis n k i * dctBasis n k j = dctScale n k * dctScale n k *
        (Real.cos ((2 * i + 1) * k * Real.pi / (2 * n)) *
          Real.cos ((2 * j + 1) * k * Real.pi / (2 * n))) := by unfold dctBasis; ring
    rw [hc, dctScale_sq]
    rcases Nat.eq_zero_or_pos k with rfl | hk
    · simp
    · rw [if_neg (by omega), if_neg (by omega)]
      have ha : (k : ℝ) * (((i - j : ℕ) : ℝ) * Real.pi / n) * 1 =
          (2 * i + 1) * k * Real.pi / (2 * n) - (2 * j + 1) * k * Real.pi / (2 * n) := by
        rw [Nat.cast_sub hj]; field_simp; ring
      have hb : (k : ℝ) * (((i + j + 1 : ℕ) : ℝ) * Real.pi / n) =
          (2 * i + 1) * k * Real.pi / (2 * n) + (2 * j + 1) * k * Real.pi / (2 * n) := by
        push_cast; field_simp; ring
      rw [ha, hb, Real.cos_sub, Real.cos_add]
      ring
  rw [Finset.sum_congr rfl hterm, ← Finset.sum_div, Finset.sum_sub_distrib, Finset.sum_add_distrib,
    Finset.sum_ite_eq' (Finset.range n) 0, if_pos (Finset.mem_range.mpr (by omega)),
    sum_cos_multiples (m := i + j + 1) (by omega) (by omega)]
  simp only [mul_one]
  by_cases hij : i = j
  · subst hij
    rw [if_pos rfl, if_neg (by omega)]
    simp
    omega
  · rw [if_neg hij, sum_cos_multiples (m := i - j) (by omega) (by omega)]
    by_cases hp : (i - j) % 2 = 0
    · rw [if_pos hp, if_neg (by omega)]; simp
    · rw [if_neg hp, if_pos (by omega)]; simp

/-- The rows of the basis are orthonormal. -/
theorem dctBasis_orthonormal {n i j : ℕ} (hi : i < n) (hj : j < n) :
    ∑ k ∈ Finset.range n, dctBasis n k i * dctBasis n k j = if i = j then 1 else 0 := by
  rcases Nat.le_total j i with h | h
  · exact dctBasis_orthonormal_of_le hi h
  · rw [Finset.sum_congr rfl fun k _ => mul_comm _ _, dctBasis_orthonormal_of_le hj h]
    exact if_congr eq_comm rfl rfl

/-- `IDCT_N(DCT_N(B)) = B` (43_block_transform R203). -/
theorem realIdct_realDct (n : ℕ) (block : ℕ → ℕ → ℝ) {i j : ℕ} (hi : i < n) (hj : j < n) :
    realIdct n (realDct n block) i j = block i j := by
  have hsum : realIdct n (realDct n block) i j =
      ∑ x ∈ Finset.range n, ∑ y ∈ Finset.range n,
        (∑ u ∈ Finset.range n, dctBasis n u i * dctBasis n u x) *
        (∑ v ∈ Finset.range n, dctBasis n v j * dctBasis n v y) * block x y := by
    simp only [realIdct, realDct, Finset.mul_sum, Finset.sum_mul]
    rw [Finset.sum_congr rfl fun u _ => Finset.sum_comm, Finset.sum_comm]
    refine Finset.sum_congr rfl fun x _ => ?_
    rw [Finset.sum_congr rfl fun u _ => Finset.sum_comm,
      Finset.sum_comm]
    refine Finset.sum_congr rfl fun y _ => ?_
    rw [Finset.sum_comm]
    refine Finset.sum_congr rfl fun u _ => Finset.sum_congr rfl fun v _ => ?_
    ring
  rw [hsum]
  have hrow : ∀ x ∈ Finset.range n, ∀ y ∈ Finset.range n,
      (∑ u ∈ Finset.range n, dctBasis n u i * dctBasis n u x) *
      (∑ v ∈ Finset.range n, dctBasis n v j * dctBasis n v y) * block x y =
      if i = x then (if j = y then block x y else 0) else 0 := by
    intro x hx y hy
    rw [dctBasis_orthonormal hi (Finset.mem_range.mp hx),
      dctBasis_orthonormal hj (Finset.mem_range.mp hy)]
    split <;> split <;> simp
  rw [Finset.sum_congr rfl fun x hx => Finset.sum_congr rfl fun y hy => hrow x hx y hy]
  have hinner : ∀ x ∈ Finset.range n, (∑ y ∈ Finset.range n,
      if i = x then (if j = y then block x y else 0) else 0) = if i = x then block x j else 0 := by
    intro x _
    split
    · rw [Finset.sum_ite_eq, if_pos (Finset.mem_range.mpr hj)]
    · simp
  rw [Finset.sum_congr rfl hinner, Finset.sum_ite_eq, if_pos (Finset.mem_range.mpr hi)]

end Sys2Proof.Machine
end

