-- ==== Sys2Proof/Laws/Words.lean ====
section
/-! SUPPORT. Elements and bit sequences: packing and unpacking are inverse, and a code is its length
with its value. -/

namespace Sys2Proof.Machine

theorem getLsbD_append_low {m n : Nat} (x : BitVec m) (y : BitVec n) {i : Nat} (h : i < n) :
    (x ++ y).getLsbD i = y.getLsbD i := by
  rw [BitVec.getLsbD_append, if_pos h]

theorem getLsbD_append_high {m n : Nat} (x : BitVec m) (y : BitVec n) {i : Nat} (h : n ≤ i) :
    (x ++ y).getLsbD i = x.getLsbD (i - n) := by
  rw [BitVec.getLsbD_append, if_neg (by omega)]

/-- A field of a concatenation is the part that stands there. -/
theorem extractLsb'_eq_of_getLsbD {w n start : Nat} {x : BitVec w} {y : BitVec n}
    (h : ∀ i < n, x.getLsbD (start + i) = y.getLsbD i) : x.extractLsb' start n = y := by
  apply BitVec.eq_of_getLsbD_eq
  intro i hi
  rw [BitVec.getLsbD_extractLsb', decide_eq_true hi, Bool.true_and, h i hi]

@[simp] theorem Run.unpack_pack (r : Run) : Run.unpack r.pack = r := by
  obtain ⟨v, c⟩ := r
  simp only [Run.unpack, Run.pack, Run.mk.injEq]
  constructor <;> (apply extractLsb'_eq_of_getLsbD; intro i hi)
  · exact (getLsbD_append_high v c (by omega)).trans (by congr 1; omega)
  · exact (getLsbD_append_low v c (by omega)).trans (by congr 1; omega)

@[simp] theorem Node.unpack_pack (n : Node) : Node.unpack n.pack = n := by
  obtain ⟨l, s, f, a, b⟩ := n
  simp only [Node.unpack, Node.pack, Node.mk.injEq]
  refine ⟨?_, ?_, ?_, ?_, ?_⟩
  · exact (getLsbD_append_high (BitVec.ofBool l) (b ++ (a ++ (s ++ f))) (by omega)).trans
      (by cases l <;> rfl)
  all_goals
    apply extractLsb'_eq_of_getLsbD
    intro i hi
    refine (getLsbD_append_low (BitVec.ofBool l) (b ++ (a ++ (s ++ f))) (by omega)).trans ?_
  · refine (getLsbD_append_low b (a ++ (s ++ f)) (by omega)).trans ?_
    refine (getLsbD_append_low a (s ++ f) (by omega)).trans ?_
    exact (getLsbD_append_high s f (by omega)).trans (by congr 1; omega)
  · refine (getLsbD_append_low b (a ++ (s ++ f)) (by omega)).trans ?_
    refine (getLsbD_append_low a (s ++ f) (by omega)).trans ?_
    exact (getLsbD_append_low s f (by omega)).trans (by congr 1; omega)
  · refine (getLsbD_append_low b (a ++ (s ++ f)) (by omega)).trans ?_
    exact (getLsbD_append_high a (s ++ f) (by omega)).trans (by congr 1; omega)
  · exact (getLsbD_append_high b (a ++ (s ++ f)) (by omega)).trans (by congr 1; omega)

theorem codeValue_foldl (c : Code) (acc : Nat) :
    c.foldl (fun a b => 2 * a + b.toNat) acc = acc * 2 ^ c.length + codeValue c := by
  induction c generalizing acc with
  | nil => simp [codeValue]
  | cons b rest ih =>
    simp only [List.foldl_cons, List.length_cons, codeValue] at *
    rw [ih, ih (2 * 0 + b.toNat)]
    ring

@[simp] theorem codeValue_nil : codeValue [] = 0 := rfl

theorem codeValue_cons (b : Bool) (c : Code) :
    codeValue (b :: c) = b.toNat * 2 ^ c.length + codeValue c := by
  rw [codeValue, List.foldl_cons, codeValue_foldl]; simp

theorem codeValue_append (c d : Code) :
    codeValue (c ++ d) = codeValue c * 2 ^ d.length + codeValue d := by
  rw [codeValue, List.foldl_append, codeValue_foldl]; rfl

/-- A value of `n` bits is below `2^n`. -/
theorem codeValue_lt (c : Code) : codeValue c < 2 ^ c.length := by
  induction c with
  | nil => simp
  | cons b rest ih =>
    rw [codeValue_cons, List.length_cons, Nat.pow_succ]
    have hb := Bool.toNat_le b
    have : b.toNat * 2 ^ rest.length ≤ 1 * 2 ^ rest.length := Nat.mul_le_mul_right _ hb
    omega

@[simp] theorem length_bitsOf (len val : Nat) : (bitsOf len val).length = len := by simp [bitsOf]

theorem bitsOf_succ (len val : Nat) :
    bitsOf (len + 1) val = val.testBit len :: bitsOf len val := by
  simp only [bitsOf, List.range_succ_eq_map, List.map_cons, List.map_map]
  congr 1
  apply List.map_congr_left
  intro k _
  simp only [Function.comp]
  congr 1
  omega

theorem bitsOf_mod (len val : Nat) : bitsOf len (val % 2 ^ len) = bitsOf len val := by
  apply List.map_congr_left
  intro k hk
  rw [List.mem_range] at hk
  rw [Nat.testBit_mod_two_pow, decide_eq_true (by omega), Bool.true_and]

/-- `bitsOf` is the inverse of a code's length and value (00_scope R12). -/
@[simp] theorem bitsOf_codeValue (c : Code) : bitsOf c.length (codeValue c) = c := by
  induction c with
  | nil => rfl
  | cons b rest ih =>
    rw [List.length_cons, bitsOf_succ, codeValue_cons]
    congr 1
    · cases b
      · have := Nat.testBit_lt_two_pow (codeValue_lt rest)
        simpa using this
      · have h := codeValue_lt rest
        simp only [Bool.toNat_true, Nat.one_mul]
        rw [Nat.testBit_two_pow_add_eq, Nat.testBit_lt_two_pow h]; rfl
    · conv_rhs => rw [← ih]
      rw [← bitsOf_mod]
      congr 1
      rw [Nat.add_comm, Nat.add_mul_mod_self_right, Nat.mod_eq_of_lt (codeValue_lt rest)]

/-- The value of `bitsOf` (00_scope R12). -/
theorem codeValue_bitsOf (len val : Nat) : codeValue (bitsOf len val) = val % 2 ^ len := by
  induction len with
  | zero => simp [bitsOf, Nat.mod_one]
  | succ n ih =>
    rw [bitsOf_succ, codeValue_cons, ih, length_bitsOf, Nat.pow_succ, Nat.mod_mul,
      Nat.toNat_testBit, Nat.mul_comm, Nat.add_comm]

end Sys2Proof.Machine
end

