-- ==== Sys2Proof/Tests/Slice0.lean ====
section
/-! SUPPORT. Tests on the spec's own vectors (95_test_vectors, the T numbers), one step each, and for
every statement with hypotheses a state that meets them. -/

namespace Sys2Proof.Tests

set_option Elab.async false

open Sys2Proof Sys2Proof.Machine

/-! ### Words, fields, decoding -/

/-- 30_encoding R93: `RLEENC` is `0x01` with `kind` and `rsv` 0. -/
theorem test_decode_rleenc : decode 0b00000000000000000000000_0_00000001 = .ok .rleenc := by decide
theorem test_decode_rledec : decode 0b00000000000000000000000_0_00000010 = .ok .rledec := by decide
theorem test_decode_hfreq : decode 0b00000000000000000000000_0_00010000 = .ok .hfreq := by decide
theorem test_decode_htree : decode 0b00000000000000000000000_0_00010001 = .ok .htree := by decide
theorem test_decode_hcodes : decode 0b00000000000000000000000_0_00010010 = .ok .hcodes := by decide
theorem test_decode_henc : decode 0b00000000000000000000000_0_00010011 = .ok .henc := by decide
theorem test_decode_hdec : decode 0b00000000000000000000000_0_00010100 = .ok .hdec := by decide
theorem test_decode_xfwdDct : decode 0b00000000000000000000000_0_00100000 = .ok .xfwdDct := by decide
theorem test_decode_xinvDct : decode 0b00000000000000000000000_0_00100001 = .ok .xinvDct := by decide
theorem test_decode_xfwdHaar : decode 0b00000000000000000000000_1_00100000 = .ok .xfwdHaar := by decide
theorem test_decode_xinvHaar : decode 0b00000000000000000000000_1_00100001 = .ok .xinvHaar := by decide

/-- T60: none of these words is a command, each for its own reason. -/
theorem test_illegal_words :
    decode 0x00000000 = .error .unlistedOp ∧ decode 0x00000015 = .error .unlistedOp ∧
    decode 0x00000114 = .error .kindNotAllowed ∧ decode 0x00000220 = .error .reservedBits ∧
    decode 0x00000122 = .error .unlistedOp ∧ decode 0x80000001 = .error .reservedBits := by decide

/-- The three checks of 30_encoding R94, one ill-formed triple each. -/
theorem smoke_reserved_set : (Fields.mk 1 false 0x01).reservedClear = false ∧
    (Fields.mk 1 false 0x01).wellFormed = false := by decide
theorem smoke_op_unlisted : (Fields.mk 0 false 0x15).opListed = false ∧
    (Fields.mk 0 false 0x15).wellFormed = false := by decide
theorem smoke_kind_not_allowed : (Fields.mk 0 true 0x14).kindAllowed = false ∧
    (Fields.mk 0 true 0x14).wellFormed = false := by decide

/-- The opcode table's numbering: the whole 32-bit word. -/
theorem test_table_word : decodeTableWord 32 0x121 = some .xinvHaar ∧
    decodeTableWord 32 0x221 = none ∧ decodeTableWord 32 0x100000001 = none := by decide

/-- A placed word runs as the next step, whatever was there before. -/
theorem test_fetch_word : step (State.reset.withFetchWord 32 0x13)
    = exec .henc (State.reset.withFetchWord 32 0x13) := rfl

/-! ### Small states -/

/-- A data space that lists these values from index 0 on. -/
def space {width : Nat} (values : List Nat) : Space width :=
  ⟨0, (List.range values.length).zip (values.map (BitVec.ofNat width))⟩

/-- A busy engine with a buffer of this size and these samples. -/
def buffer (w h : Nat) (samples : List Nat) : State :=
  { State.reset with
    w := BitVec.ofNat 32 w, h := BitVec.ofNat 32 h, pix := space samples
    status := ⟨true, false, false, false⟩ }

/-- The state a command answers. -/
def after (o : Host.Outcome State Fault Refusal) : State :=
  match o with
  | .next t => t
  | _ => State.reset

/-- The state a command's checks and writes give, if they give one. -/
def written (r : Except FailureKind State) : State :=
  match r with
  | .ok t => t
  | .error _ => State.reset

/-- How a command's checks end. -/
def failure (r : Except FailureKind State) : Option FailureKind :=
  match r with
  | .ok _ => none
  | .error k => some k

/-- The samples `0 .. n-1` as numbers. -/
def firstSamples (n : Nat) (s : State) : List Nat := (s.pix.readUpTo n).map fun v => v.toNat

/-- A frequency table, symbol by symbol. -/
def frequencies (count : Nat → Nat) : State :=
  { State.reset with freq := space ((List.range 256).map count) }

/-- The states of T11: the samples, and the tree of its five nodes. -/
def t11 : State := buffer 3 2 [10, 10, 10, 20, 20, 30]

def t11Tree : State :=
  { State.reset with
    nnodes := 5, root := 4
    tree := space [0x7FFFF0A0000000003, 0x7FFFF140000000002, 0x7FFFF1E0000000001,
      0x00202000000000003, 0x00600000000000006] }

/-- The tree of T10. -/
def t10Tree : State :=
  { State.reset with nnodes := 2, root := 1, tree := space [0x7FFFF070000000010, 0x3FE00000000000010] }

/-- Table A of the decoder's vectors, and any other short table. -/
def coded (w h : Nat) (table : List (Nat × Nat × Nat)) (bits : List Nat) : State :=
  let row := fun sym => ((table.find? fun e => e.1 == sym).map fun e => e.2).getD (0, 0)
  { State.reset with
    w := BitVec.ofNat 32 w, h := BitVec.ofNat 32 h
    clen := space ((List.range 256).map fun sym => (row sym).1)
    cval := space ((List.range 256).map fun sym => (row sym).2)
    bits := space bits, bitlen := BitVec.ofNat 40 bits.length }

def tableA : List (Nat × Nat × Nat) := [(10, 1, 0), (20, 2, 3), (30, 2, 2)]

/-- A buffer with a block edge and a threshold. -/
def blocks (blk : Nat) (q : Flt) (s : State) : State := { s with blk := BitVec.ofNat 8 blk, q := q }

/-! ### One step of each command -/

/-- T4. -/
theorem test_rleenc_t4 : let t := after (exec .rleenc (buffer 6 1 [0, 0, 255, 255, 255, 0]))
    t.nruns = 3 ∧ t.runs.readUpTo 3 = [0x0000000002, 0xFF00000003, 0x0000000001] ∧
    t.status = ⟨false, true, false, false⟩ ∧ t.errcode = 0 := by decide +kernel

/-- T8. -/
theorem test_rleenc_t8 : let t := after (exec .rleenc { buffer 0 5 [] with nruns := 9 })
    t.nruns = 0 ∧ t.errcode = 1 ∧ t.status = ⟨false, true, true, false⟩ := by decide +kernel

/-- The runs of T6. -/
def t6 : State :=
  { buffer 2 2 [] with
    nruns := 5, runs := space [0x0300000000, 0x0800000002, 0x0800000001, 0x0100000000, 0x0200000001] }

/-- T6. -/
theorem test_rledec_t6 : firstSamples 4 (after (exec .rledec t6)) = [8, 8, 8, 2] := by
  decide +kernel

/-- T9b. -/
theorem test_rledec_t9b : (after (exec .rledec { buffer 1 1 [] with
    nruns := 2, runs := space [0x04FFFFFFFF, 0x0400000002] })).errcode = 2 := by decide +kernel

/-- T11. -/
theorem test_hfreq_t11 : let t := after (exec .hfreq t11)
    t.freq.read 10 = 3 ∧ t.freq.read 20 = 2 ∧ t.freq.read 30 = 1 ∧ t.freq.read 11 = 0 := by
  decide +kernel

/-- T22. -/
theorem test_hfreq_t22 : let t := after (exec .hfreq (buffer 0 7 []))
    t.freq.read 0 = 0 ∧ t.errcode = 0 ∧ t.status.err = false := by decide +kernel

/-- T21. -/
theorem test_htree_t21 : let t := after (exec .htree (frequencies fun sym =>
      if sym = 3 ∨ sym = 9 ∨ sym = 200 then 5 else 0))
    t.nnodes = 5 ∧ t.tree.read 3 = 0x0020000000000000A ∧ t.tree.read 4 = 0x0060200000000000F := by decide +kernel

/-- T23. -/
theorem test_htree_t23 :
    let t := after (exec .htree { frequencies (fun _ => 0) with nnodes := 5, root := 4 })
    t.nnodes = 0 ∧ t.errcode = 1 := by decide +kernel

/-- T11. -/
theorem test_hcodes_t11 : let t := after (exec .hcodes t11Tree)
    [10, 20, 30, 11].map t.clen.read = [1, 2, 2, 0] ∧
    [10, 20, 30, 11].map t.cval.read = [0, 3, 2, 0] := by decide +kernel

/-- T24. -/
theorem test_hcodes_t24 : (after (exec .hcodes State.reset)).errcode = 1 := by decide +kernel

/-- T15. -/
theorem test_henc_t15 : let t := after (exec .henc (buffer 6 1 [9, 8, 9, 8, 9, 7]))
    t.bitlen = 9 ∧ t.bitsByte 0 = 0x6D ∧ t.bitsByte 1 = 0 ∧ t.nnodes = 0 ∧
    [7, 8, 9].map t.clen.read = [2, 2, 1] := by decide +kernel

/-- T24b: the result needs 9 bits, `MAXBITS` is 8. -/
theorem test_henc_t24b : failure (henc { machineConfig with
    maxBits := 8, maxBits_range := by decide } t11) = some .capacityExceeded := by decide +kernel

/-- T32. -/
theorem test_hdec_t32 : firstSamples 3 (written (hdec machineConfig
      (coded 3 1 [(3, 2, 6), (4, 1, 0)] [1, 0, 0, 1, 0]))) = [3, 4, 3] := by decide +kernel

/-- T33: no bits for one sample, and none for none. -/
theorem test_hdec_t33 : (after (exec .hdec (coded 1 1 [] []))).errcode = 3 ∧
    (after (exec .hdec (coded 0 0 [] []))).errcode = 0 := by decide +kernel

/-- T45a, reference kernels: the block is thresholded away, the partial column passes. -/
theorem test_xfwdDct_t45a : (written (xfwdDct referenceConfig (blocks 2 0x408F400000000000
      (buffer 3 2 [10, 20, 99, 30, 40, 77])))).coef.readUpTo 6
    = [0, 0, 0x4058C00000000000, 0, 0, 0x4053400000000000] := by decide +kernel

/-- T46. -/
theorem test_xfwdDct_t46 : (after (exec .xfwdDct (blocks 8 0 (buffer 7 8 [])))).errcode = 4 := by
  decide +kernel

/-- T40, the first half: `2.5 3.5 254.5 255.5 0.5 -0.5` and the infinities, with `BLK = 1`. -/
theorem test_xinvDct_t40 : firstSamples 8 (written (xinvDct referenceConfig { blocks 1 0 (buffer 8 1 [])
      with coef := space [0x4004000000000000, 0x400C000000000000, 0x406FD00000000000,
        0x406FF00000000000, 0x3FE0000000000000, 0xBFE0000000000000, 0x7FF0000000000000,
        0xFFF0000000000000] })) = [2, 4, 254, 255, 0, 0, 255, 0] := by decide +kernel

/-- T37, reference kernels: what is left of the block after the threshold 15. -/
theorem test_xinvDct_t37 : firstSamples 4 (written (xinvDct referenceConfig (written (xfwdDct
      referenceConfig (blocks 2 0x402E000000000000 (buffer 2 2 [10, 20, 30, 40]))))))
    = [15, 15, 35, 35] := by decide +kernel

/-- The checkerboard of T43. -/
def checkerboard : List Flt :=
  (List.range 64).map fun k => fltOfByte (if (k / 8 + k % 8) % 2 = 0 then 0 else 255)

/-- T43, 43_block_transform R215 (c): 1020 first, nothing at (0,1) and (2,2), and at (1,1) the value
-33.136170 to six places. -/
theorem test_reference_t43 : referenceDctFwd 8 checkerboard 0 0 = 0x408FE00000000000 ∧
    referenceDctFwd 8 checkerboard 0 1 = 0 ∧ referenceDctFwd 8 checkerboard 2 2 = 0 ∧
    fltLt 0xC040916E08F21709 (referenceDctFwd 8 checkerboard 1 1) = true ∧
    fltLt (referenceDctFwd 8 checkerboard 1 1) 0xC040916E008E9B39 = true := by decide +kernel

/-- T50, reference kernels. -/
theorem test_xfwdHaar_t50 :
    let t := written (xfwdHaar referenceConfig (buffer 2 2 [10, 20, 30, 40]))
    t.suba.read 0 = 0x4049000000000000 ∧ t.subh.read 0 = 0xC034000000000000 ∧
    t.subv.read 0 = 0xC024000000000000 ∧ t.subd.read 0 = 0 := by decide +kernel

/-- T54. -/
theorem test_xfwdHaar_t54 : (after (exec .xfwdHaar (buffer 3 2 []))).errcode = 4 := by
  decide +kernel

/-- T55, reference kernels: `SUBA = 100`, `SUBH = -300`, no other detail. -/
theorem test_xinvHaar_t55 : firstSamples 4 (written (xinvHaar referenceConfig { buffer 2 2 [] with
      suba := space [0x4059000000000000], subh := space [0xC072C00000000000]
      subv := space [0], subd := space [0] })) = [0, 0, 200, 200] := by decide +kernel

/-- T51, reference kernels: the round trip over two cells. -/
theorem test_xinvHaar_t51 : firstSamples 8 (written (xinvHaar referenceConfig (written (xfwdHaar
      referenceConfig (buffer 4 2 [1, 2, 3, 4, 5, 6, 7, 8]))))) = [1, 2, 3, 4, 5, 6, 7, 8] := by
  decide +kernel

/-- `-0.0` plus `-0.0` keeps its sign, and opposite zeros give `+0.0`. -/
theorem test_reference_zeros : fltAdd 0x8000000000000000 0x8000000000000000 = 0x8000000000000000 ∧
    fltAdd 0x8000000000000000 0 = 0 := by decide +kernel

/-! ### Port, hazards, reset -/

/-- The state with this move next. -/
def next (m : Move) (s : State) : State := { s with moves := [m] }

/-- A busy engine that runs `HENC`. -/
def busyHenc : State := State.reset.withFetchWord 32 0x13

/-- T60. -/
theorem test_port_t60 : let t := after (step (State.reset.withFetchWord 32 0x15))
    t.status = ⟨false, true, true, false⟩ ∧ t.errcode = 6 := by decide +kernel

/-- T63: the second write is dropped, `HAZ` is set. -/
theorem test_port_t63 : let t := after (step (next (commandMove .henc) busyHenc))
    t.status = ⟨true, false, false, true⟩ ∧ t.lcmd = 0x13 := by decide +kernel

/-- T64. -/
theorem test_port_t64 : (after (step (next (.host (.writeSpace .tree 0 0)) State.reset))).status
    = ⟨false, false, false, true⟩ := by decide +kernel

/-- T65. -/
theorem test_port_t65 : let t := after (step (next (.host (.readSpace .freq 256))
      { State.reset with busData := 7 }))
    t.busData = 0 ∧ t.status.haz = true := by decide +kernel

/-- T66. -/
theorem test_port_t66 : let s := { State.reset with status := ⟨false, true, true, false⟩, errcode := 3 }
    (after (step (next ackMove s))).status = ⟨false, false, true, false⟩ ∧
    (after (step (next (.host (.writeReg 1 5)) s))).status = ⟨false, true, true, false⟩ := by
  decide +kernel

/-- T67. -/
theorem test_port_t67 : let s := { State.reset with status := ⟨false, true, false, false⟩ }
    let t := after (step (next (.host (.writeReg 3 1)) s))
    t.irq = true ∧ (after (step (next ackMove t))).irq = false := by decide +kernel

/-- T69. -/
theorem test_port_t69 :
    (after (step (next (.host (.readReg 12)) { State.reset with busData := 7 }))).busData = 0 ∧
    (after (step (next (.host (.writeReg 10 5)) State.reset))).nnodes = 0 := by decide +kernel

/-- T70. -/
theorem test_port_t70 : (after (step (next (.host (.writeReg 4 0x1FFFFFFFF)) State.reset))).w
    = 0xFFFFFFFF := by decide +kernel

/-- 20_memory R63, R65: a `RUNS` element is one 8-byte little-endian access at 8 times its index. -/
theorem test_port_bus : (after (step (next (.host (.busWrite (.space .runs) 8
      [0x03, 0x00, 0x00, 0x00, 0x05, 0x00, 0x00, 0x00])) State.reset))).runs.read 1
    = 0x0500000003 := by decide +kernel

/-- 10_state R32: `BUSY`, `DONE`, `ERR`, `HAZ` are bits 0 to 3; T63 reads `DONE` and `HAZ` as 0xA. -/
theorem test_port_status : (after (step (next (.host (.readReg 1))
      { State.reset with status := ⟨false, true, false, true⟩ }))).busData = 0xA ∧
    (after (step (next (.host (.readReg 1)) busyHenc))).busData = 0x1 ∧
    (after (step (next (.host (.readReg 1))
      { State.reset with status := ⟨false, true, true, false⟩ }))).busData = 0x6 := by decide +kernel

/-- T62: with `MAXLEN` 16 the step of a 5 by 5 buffer fails. -/
theorem test_step_t62 : (after (stepWith { machineConfig with
      maxLen := 16, maxLen_range := by decide } { buffer 5 5 [] with lcmd := 1 })).errcode = 5 := by
  decide +kernel

/-- 70_reset_and_hazards R306: half an element is refused while reset is asserted, too. -/
theorem test_reset_partial : step (next (.host (.busWrite (.space .freq) 2 [1, 2, 3, 4]))
    { State.reset with inReset := true }) = .refused .partialBusAccess := by rfl

/-- 93_implementation_defined U9: half an element is refused. -/
theorem test_port_partial : step (next (.host (.busRead (.space .runs) 8 4)) State.reset)
    = .refused .partialBusAccess := by rfl

/-- T68: reset in the middle of a command. -/
theorem test_reset_t68 : let t := after (step (next .releaseReset
      { busyHenc with inReset := true, w := 4, errcode := 3 }))
    t.status = ⟨false, false, false, false⟩ ∧ t.w = 0 ∧ t.blk = 8 ∧ t.errcode = 0 := by
  decide +kernel

/-! ### The hypotheses of the statements can be met -/

/-- A busy engine with these moves. -/
def busyWith (moves : List Move) : State := { busyHenc with moves := moves }

/-- An idle engine with these moves. -/
def idleWith (moves : List Move) : State := { State.reset with moves := moves }

theorem witness_StepRunsTheDecodedCommand :
    busyHenc.status.busy = true ∧ busyHenc.inReset = false ∧ decode busyHenc.lcmd = .ok .henc ∧
    busyHenc.moves = [] ∧ (busyWith [.engine, .engine]).moves = .engine :: [.engine] ∧
    State.reset.status.busy = false ∧ State.reset.inReset = false ∧ State.reset.moves = [] ∧
    (idleWith [.engine]).moves = .engine :: [] := by decide

theorem witness_IllegalWordFails : let s := State.reset.withFetchWord 32 0x15
    s.status.busy = true ∧ s.inReset = false ∧ s.moves = [] ∧ ∀ i, s.lcmd ≠ encode i := by
  refine ⟨rfl, rfl, rfl, fun i => ?_⟩
  cases i <;> decide

theorem witness_ReleaseGivesTheResetState : let s := { busyWith [.releaseReset] with inReset := true }
    s.inReset = true ∧ s.moves = .releaseReset :: [] := by decide

theorem witness_AssertedResetStopsTheMachine :
    let s := { busyHenc with inReset := true }
    let t := { s with moves := [.host (.readReg 1)] }
    let u := { s with moves := [.host (.busRead .registers 8 4)] }
    (busyWith [.assertReset]).moves = .assertReset :: [] ∧
    s.inReset = true ∧ s.moves = [] ∧ t.inReset = true ∧ t.moves = .host (.readReg 1) :: [] ∧
    Move.host (.readReg 1) ≠ .releaseReset ∧ u.inReset = true ∧
    u.moves = .host (.busRead .registers 8 4) :: [] ∧ 4 ≠ paddedSize machineConfig .registers := by
  decide

theorem witness_CommandWriteIssuesOrIsDropped :
    let a := idleWith [.host (.writeReg 0 0x13)]
    let b := busyWith [.host (.writeReg 0 0x13)]
    a.inReset = false ∧ a.moves = .host (.writeReg 0 0x13) :: [] ∧ a.status.busy = false ∧
    b.inReset = false ∧ b.moves = .host (.writeReg 0 0x13) :: [] ∧ b.status.busy = true := by decide

/-- One state for each clause, at both ends of the register range. -/
theorem witness_OperandAccessWhileBusy :
    (∀ m : Move, (busyWith [m]).inReset = false ∧ (busyWith [m]).status.busy = true) ∧
    (∀ index ∈ [4, 11], (busyWith [.host (.writeReg index 5)]).moves
      = .host (.writeReg index 5) :: [] ∧ 4 ≤ index ∧ index ≤ 11) ∧
    (busyWith [.host (.writeSpace .pix 0 5)]).moves = .host (.writeSpace .pix 0 5) :: [] ∧
    (∀ index ∈ [4, 11], (busyWith [.host (.readReg index)]).moves = .host (.readReg index) :: [] ∧
      4 ≤ index ∧ index ≤ 11) ∧
    (busyWith [.host (.readSpace .tree 510)]).moves = .host (.readSpace .tree 510) :: [] ∧
    (∀ index ∈ [1, 3], (busyWith [.host (.readReg index)]).moves = .host (.readReg index) :: [] ∧
      1 ≤ index ∧ index ≤ 3) ∧
    (busyWith [.host (.writeReg 3 1)]).moves = .host (.writeReg 3 1) :: [] :=
  ⟨fun _ => ⟨rfl, rfl⟩, by decide, by decide, by decide, by decide, by decide, by decide⟩

theorem witness_StatusWriteOneToClear : let s := busyWith [.host (.writeReg 1 0xA)]
    s.inReset = false ∧ s.moves = .host (.writeReg 1 0xA) :: [] := by decide

theorem witness_InterruptLevel : State.reset.inReset = false := by decide

theorem witness_RegisterWriteThenRead : State.reset.status.busy = false ∧
    State.reset.inReset = false ∧
    (idleWith [.host (.readReg 11)]).moves = .host (.readReg 11) :: [] ∧
    (idleWith [.host (.writeReg 9 5)]).moves = .host (.writeReg 9 5) :: [] ∧
    (4 = 4 ∧ 0 = State.reset.w.toNat) ∧ (11 = 11 ∧ 0 = State.reset.root.toNat) ∧
    (3 ≤ 3 ∧ 3 ≤ 9) ∧ (3 ≤ 9 ∧ 9 ≤ 9) ∧ (2 = 2 ∨ 10 ≤ 2) ∧ (10 = 2 ∨ 10 ≤ 10) ∧
    (0 = 0 ∨ 12 ≤ 0) ∧ (12 = 0 ∨ 12 ≤ 12) := by decide

theorem witness_RefusedSpaceAccess :
    let a := idleWith [.host (.writeSpace .tree 0 0)]
    let b := busyWith [.host (.writeSpace .pix 4294967295 0)]
    let c := idleWith [.host (.readSpace .freq 256)]
    let d := busyWith [.host (.readSpace .tree 511)]
    (a.inReset = false ∧ a.moves = .host (.writeSpace .tree 0 0) :: []) ∧
    (b.inReset = false ∧ spaceSize machineConfig .pix ≤ 4294967295 ∧
      b.moves = .host (.writeSpace .pix 4294967295 0) :: []) ∧
    (c.inReset = false ∧ spaceSize machineConfig .freq ≤ 256 ∧
      c.moves = .host (.readSpace .freq 256) :: []) ∧
    (d.inReset = false ∧ spaceSize machineConfig .tree ≤ 511 ∧
      d.moves = .host (.readSpace .tree 511) :: []) := by decide

theorem witness_SpaceWriteThenRead : State.reset.status.busy = false ∧ SpaceId.bits ≠ .tree ∧
    0 < spaceSize machineConfig .bits ∧ 137438953471 < spaceSize machineConfig .bits ∧
    510 < spaceSize machineConfig .tree ∧ State.reset.inReset = false ∧
    (idleWith [.host (.readSpace .tree 510)]).moves = .host (.readSpace .tree 510) :: [] ∧
    (idleWith [.host (.writeSpace .bits 0 5)]).moves = .host (.writeSpace .bits 0 5) :: [] := by
  decide

theorem witness_BusAccessIsWholeElementOrRefused :
    let a := idleWith [.host (.busRead .registers 4 8)]
    let b := idleWith [.host (.busRead .registers 88 8)]
    let c := idleWith [.host (.busWrite (.space .freq) 4 [1, 2])]
    let d := idleWith [.host (.busWrite (.space .freq) 4 [1, 2, 3, 4])]
    (a.inReset = false ∧ a.moves = .host (.busRead .registers 4 8) :: [] ∧
      (8 ≠ paddedSize machineConfig .registers ∨ 4 % paddedSize machineConfig .registers ≠ 0)) ∧
    (b.inReset = false ∧ b.moves = .host (.busRead .registers 88 8) :: [] ∧
      8 = paddedSize machineConfig .registers ∧ 88 = 11 * paddedSize machineConfig .registers) ∧
    (c.inReset = false ∧ c.moves = .host (.busWrite (.space .freq) 4 [1, 2]) :: [] ∧
      ([1, 2] : List Byte).length ≠ paddedSize machineConfig (.space .freq)) ∧
    (d.inReset = false ∧ d.moves = .host (.busWrite (.space .freq) 4 [1, 2, 3, 4]) :: [] ∧
      ([1, 2, 3, 4] : List Byte).length = paddedSize machineConfig (.space .freq) ∧
      4 = 1 * paddedSize machineConfig (.space .freq)) := by decide

theorem witness_CompletionWinsOverClear : let s := busyWith [.engineWithStatusWrite 2]
    s.status.busy = true ∧ s.inReset = false ∧ s.moves = .engineWithStatusWrite 2 :: [] := by decide

theorem witness_EveryBusyStepCompletes :
    busyHenc.status.busy = true ∧ busyHenc.inReset = false ∧ busyHenc.moves = [] := by decide

/-- The engine's step on the tree of T11 keeps every law, since it meets them all. -/
theorem step_of_busy_answers (s : State) (h : s.status.busy = true ∧ s.inReset = false ∧ s.moves = [])
    (i : Instr) (hd : decode s.lcmd = .ok i) : ∃ t, step s = .next t := by
  rw [step_of_no_moves h.2.2, engineStep_of_command (by simp [State.canStep, h.1, h.2.1]) hd]
  exact exec_answers_next i s

/-- A lawful tree of three leaves (T11) waiting for `HCODES`. -/
def t11Busy : State := { t11Tree with status := ⟨true, false, false, false⟩, lcmd := 0x12 }

theorem witness_StepKeepsStatusLaws : t11Busy.statusLaws ∧ ∃ t, step t11Busy = .next t :=
  ⟨by decide, step_of_busy_answers _ (by decide) .hcodes (by decide)⟩

theorem witness_StepKeepsMemoryLaws : t11Busy.memoryLaws ∧ ∃ t, step t11Busy = .next t :=
  ⟨by decide, step_of_busy_answers _ (by decide) .hcodes (by decide)⟩

theorem witness_StepKeepsDrawLaws : busyHenc.drawLaws ∧ ∃ t, step busyHenc = .next t :=
  ⟨by decide, step_of_busy_answers _ (by decide) .henc (by decide)⟩

theorem witness_tree_of_t11 : t11Busy.nnodes ≠ 0 ∧ t11Busy.treeLaws := by
  refine ⟨by decide, fun h => absurd h (by decide), fun _ => ?_⟩
  exact
    { size_legal := by decide
      root_last := by decide
      leaves_first := by decide
      leaf_fields := by decide
      symbols_ascend := fun j k hj hk => by
        have : k < 3 := hk
        interval_cases k <;> interval_cases j <;> decide
      internal_sym := by decide
      freq_sum := by decide
      one_parent := by decide
      child_smaller := by decide
      child_count := by decide }

theorem witness_StepKeepsTreeLaws : t11Busy.treeLaws ∧ ∃ t, step t11Busy = .next t :=
  ⟨witness_tree_of_t11.2, step_of_busy_answers _ (by decide) .hcodes (by decide)⟩

/-- Also the tree of one symbol (T10). -/
theorem witness_HcodesAssignsThePaths : t10Tree.nnodes ≠ 0 ∧ t10Tree.treeLaws := by
  refine ⟨by decide, fun h => absurd h (by decide), fun _ => ?_⟩
  exact
    { size_legal := by decide
      root_last := by decide
      leaves_first := by decide
      leaf_fields := by decide
      symbols_ascend := fun j k hj hk => by
        have : k < 1 := hk
        omega
      internal_sym := by decide
      freq_sum := by decide
      one_parent := by decide
      child_smaller := by decide
      child_count := by decide }

/-- The tree of T20, of two symbols. -/
def t20Tree : State :=
  { State.reset with
    nnodes := 3, root := 2
    tree := space [0x7FFFF0000FFFFFFFF, 0x7FFFFFF00FFFFFFFF, 0x002000001FFFFFFFE] }

theorem witness_tree_of_t20 : t20Tree.nnodes = 3 ∧ t20Tree.nnodes ≠ 0 ∧ t20Tree.treeLaws := by
  refine ⟨by decide, by decide, fun h => absurd h (by decide), fun _ => ?_⟩
  exact
    { size_legal := by decide
      root_last := by decide
      leaves_first := by decide
      leaf_fields := by decide
      symbols_ascend := fun j k hj hk => by
        have : k < 2 := hk
        interval_cases k <;> interval_cases j <;> decide
      internal_sym := by decide
      freq_sum := by decide
      one_parent := by decide
      child_smaller := by decide
      child_count := by decide }

/-- Five nodes, three nodes and two. -/
theorem witness_HcodesTableIsPrefixFree :
    (t11Busy.nnodes ≠ 0 ∧ t11Busy.treeLaws ∧ 3 ≤ t11Busy.nnodes.toNat) ∧
    (t20Tree.nnodes ≠ 0 ∧ t20Tree.treeLaws ∧ t20Tree.nnodes = 3) ∧
    (t10Tree.nnodes ≠ 0 ∧ t10Tree.treeLaws ∧ t10Tree.nnodes = 2) :=
  ⟨⟨witness_tree_of_t11.1, witness_tree_of_t11.2, by decide⟩,
    ⟨witness_tree_of_t20.2.1, witness_tree_of_t20.2.2, witness_tree_of_t20.1⟩,
    ⟨witness_HcodesAssignsThePaths.1, witness_HcodesAssignsThePaths.2, by decide⟩⟩

theorem witness_CapacityFailures : Instr.henc ≠ .htree ∧ Instr.henc ≠ .hcodes ∧
    2 ^ 32 - 1 < (buffer 0x80000000 2 []).len := by decide

/-- T62's capacity, and 8 bits for `BITS`. -/
def smallConfig : Config :=
  { machineConfig with
    maxLen := 16, maxBits := 8, maxLen_range := by decide, maxBits_range := by decide }

theorem witness_CapacityFailuresAtAnyParameters :
    smallConfig.maxLen < (buffer 17 1 []).len ∧
    smallConfig.maxLen < ({ State.reset with nruns := 17 } : State).nruns.toNat ∧
    smallConfig.maxBits < ({ State.reset with bitlen := 9 } : State).bitlen.toNat ∧
    0 < (buffer 16 1 []).len ∧ (buffer 16 1 []).len ≤ smallConfig.maxLen := by decide

theorem witness_EmptyInputCauses : (buffer 0 5 []).len = 0 ∧
    (∀ sym < 256, (frequencies fun _ => 0).freq.read sym = 0) ∧ State.reset.nnodes = 0 ∧
    State.reset.errcode ≠ 1 ∧ (after (exec .rleenc State.reset)).errcode = 1 := by decide +kernel

theorem witness_ShapeAndStreamFailures :
    (t6.len ≤ 2 ^ 32 - 1 ∧ ((({ t6 with nruns := 4 } : State).runs.readUpTo 4).map fun v =>
      (v.extractLsb' 0 32).toNat).sum ≠ t6.len) ∧
    ((coded 1 1 [] []).len ≤ 2 ^ 32 - 1 ∧ (scanBits (coded 1 1 [] []).codeTable []
      ((coded 1 1 [] []).stream (coded 1 1 [] []).bitlen.toNat)).1.length
      ≠ (coded 1 1 [] []).len) ∧
    (blocks 0 0 (buffer 8 8 [])).blk = 0 ∧ 64 < (blocks 65 0 (buffer 65 65 [])).blk.toNat ∧
    (buffer 7 8 []).w.toNat < (buffer 7 8 []).blk.toNat ∧
    (buffer 8 7 []).h.toNat < (buffer 8 7 []).blk.toNat ∧
    (buffer 1 2 []).w.toNat < 2 ∧ (buffer 2 1 []).h.toNat < 2 ∧ (buffer 3 2 []).w.toNat % 2 = 1 ∧
    (buffer 2 3 []).h.toNat % 2 = 1 := by decide +kernel

theorem witness_CommandTouchesOnlyItsRow : ∃ t, exec .hcodes t11Tree = .next t :=
  exec_answers_next _ _

/-- One sample, and the largest buffer of the default parameters. -/
theorem witness_RleencEncodesTheBuffer :
    (0 < (buffer 1 1 [200]).len ∧ (buffer 1 1 [200]).len ≤ 2 ^ 32 - 1) ∧
    (0 < (buffer 4294967295 1 []).len ∧ (buffer 4294967295 1 []).len ≤ 2 ^ 32 - 1) := by decide

theorem witness_RledecExpandsTheRuns :
    let before := fun (s : State) j => ((List.range j).map fun k => (s.runs.read k).toNat % 2 ^ 32).sum
    (t6.len ≤ 2 ^ 32 - 1 ∧ before t6 t6.nruns.toNat = t6.len) ∧
    (State.reset.len ≤ 2 ^ 32 - 1 ∧ before State.reset State.reset.nruns.toNat = State.reset.len) := by
  decide +kernel

/-- Other samples may be written between the two commands. -/
theorem witness_RleRoundTrip : ∃ t u : State, exec .rleenc (buffer 4 1 [1, 2, 1, 2]) = .next t ∧
    u.w = t.w ∧ u.h = t.h ∧ u.nruns = t.nruns ∧ (∀ j < t.nruns.toNat, u.runs.read j = t.runs.read j) ∧
    u.pix = space [0, 0, 0, 0] :=
  let t := after (exec .rleenc (buffer 4 1 [1, 2, 1, 2]))
  ⟨t, { t with pix := space [0, 0, 0, 0] }, rfl, rfl, rfl, rfl, fun _ _ => rfl, rfl⟩

theorem witness_HfreqCountsTheSymbols : (buffer 0 7 []).len ≤ 2 ^ 32 - 1 ∧
    (buffer 4294967295 1 []).len ≤ 2 ^ 32 - 1 := by decide

theorem witness_LeastComesBeforeAll : ([3, 1] : List Nat) ≠ [] ∧ 3 ∈ ([3, 1] : List Nat) ∧
    3 ≠ least [] [3, 1] := by decide

/-- A table of one symbol, `sym`. -/
def oneSymbol (sym : Nat) : State := frequencies fun a => if a = sym then 5 else 0

/-- A table of two symbols (T20). -/
def twoSymbols : State := frequencies fun a => if a = 0 ∨ a = 255 then 0xFFFFFFFF else 0

theorem witness_HtreeBuildsALawfulTree : (∃ sym < 256, (oneSymbol 255).freq.read sym ≠ 0) ∧
    (∃ sym < 256, twoSymbols.freq.read sym ≠ 0) :=
  ⟨⟨255, by decide, by decide +kernel⟩, ⟨0, by decide, by decide +kernel⟩⟩

theorem witness_HtreeMergesTheTwoLeast :
    2 ≤ ((List.range 256).filter fun sym => twoSymbols.freq.read sym != 0).length := by
  decide +kernel

theorem witness_HtreeOneSymbolTree : 255 < 256 ∧
    ∀ a < 256, (oneSymbol 255).freq.read a ≠ 0 ↔ a = 255 := ⟨by decide, by decide +kernel⟩

theorem witness_HencWritesTheBitstream : 0 < t11.len ∧ t11.len ≤ 2 ^ 32 - 1 := by decide

theorem witness_HencAgreesWithTheStages : (t11.len ≤ 2 ^ 32 - 1 ∧ t11.status.err = false) ∧
    ((buffer 0 0 []).len ≤ 2 ^ 32 - 1 ∧ (buffer 0 0 []).status.err = false) := by decide

theorem witness_HencStreamLength : 0 < (buffer 4 1 [7, 7, 7, 7]).len ∧
    (buffer 4 1 [7, 7, 7, 7]).len ≤ 2 ^ 32 - 1 ∧
    ∀ i < 4, (buffer 4 1 [7, 7, 7, 7]).pix.read i = (buffer 4 1 [7, 7, 7, 7]).pix.read 0 := by decide

/-- T34, and the empty stream of T33. -/
theorem witness_HdecDecodesTheStream :
    (let s := coded 2 1 [(7, 1, 0)] [0, 0]
      let scan := scanBits s.codeTable [] (s.stream s.bitlen.toNat)
      s.len ≤ 2 ^ 32 - 1 ∧ scan.2 = [] ∧ scan.1.length = s.len) ∧
    (let s := coded 0 1 [] []
      let scan := scanBits s.codeTable [] (s.stream s.bitlen.toNat)
      s.len ≤ 2 ^ 32 - 1 ∧ scan.2 = [] ∧ scan.1.length = s.len) := by decide +kernel

theorem witness_MatchIsTheSmallestSymbol : ([true] : Code) ≠ [] := by decide

/-- A table where symbol 0 has the code 10 and no other symbol has one. -/
def shortTable : CodeTable := [(2, 2)]

theorem witness_ScanEmitsTheShortestMatch :
    ([true, false] : Code) ≠ [] ∧
    (∀ p : Code, p ≠ [] → p <+: [true, false] → p ≠ [true, false] → matchSymbol shortTable p = none) ∧
    matchSymbol shortTable [true, false] = some 0 ∧
    matchSymbol shortTable [true] = none := by
  refine ⟨by decide, fun p h0 hp h1 => ?_, by decide +kernel, by decide +kernel⟩
  have : p = [true] := by
    have hl := hp.length_le
    match p, h0, h1 with
    | [b], _, _ => simpa using hp
    | [b, c], _, h => exact absurd (hp.eq_of_length rfl) h
  subst this
  decide +kernel

theorem witness_HuffmanRoundTrip : ∃ t u : State, exec .henc t11 = .next t ∧ 1 ≤ t11.len ∧
    t11.len ≤ 2 ^ 32 - 1 ∧ u.w = t.w ∧ u.h = t.h ∧ u.bitlen = t.bitlen ∧
    (∀ k < t.bitlen.toNat, u.bits.read k = t.bits.read k) ∧
    (∀ sym < 256, u.clen.read sym = t.clen.read sym ∧ u.cval.read sym = t.cval.read sym) ∧
    u.pix = space [0] :=
  let t := after (exec .henc t11)
  ⟨t, { t with pix := space [0] }, rfl, by decide, by decide, rfl, rfl, rfl, fun _ _ => rfl,
    fun _ _ => ⟨rfl, rfl⟩, rfl⟩

/-- A buffer with a full block and a partial column (T45), and the smallest and largest blocks. -/
def t45 : State := blocks 2 0 (buffer 3 2 [10, 20, 99, 30, 40, 77])

theorem witness_XfwdDctWritesTheCoefficients :
    ∀ s ∈ [t45, blocks 1 0 (buffer 1 1 [9]), blocks 64 0 (buffer 64 64 [])],
      s.len ≤ 2 ^ 32 - 1 ∧ 1 ≤ s.blk.toNat ∧ s.blk.toNat ≤ 64 ∧ s.blk.toNat ≤ s.w.toNat ∧
      s.blk.toNat ≤ s.h.toNat := by decide

/-- Sample (1, 2) of T45 lies in the partial region. -/
theorem witness_partial_region : 1 < t45.h.toNat ∧ 2 < t45.w.toNat ∧
    (t45.h.toNat / t45.blk.toNat * t45.blk.toNat ≤ 1 ∨
      t45.w.toNat / t45.blk.toNat * t45.blk.toNat ≤ 2) := by decide

theorem witness_XinvDctWritesTheSamples : t45.len ≤ 2 ^ 32 - 1 ∧ 1 ≤ t45.blk.toNat ∧
    t45.blk.toNat ≤ 64 ∧ t45.blk.toNat ≤ t45.w.toNat ∧ t45.blk.toNat ≤ t45.h.toNat := by decide

/-- Thresholds -0, -1, NaN, +infinity; coefficients NaN and the largest finite value. -/
theorem witness_QuantizationEdges : fltMagnitude 0x8000000000000000 = 0 ∧
    fltNegative 0xBFF0000000000000 = true ∧ fltIsNaN 0x7FF8000000000000 = true ∧
    fltIsNaN 0xFFF0000000000001 = true ∧ fltIsFinite 0x7FEFFFFFFFFFFFFF = true ∧
    (0x4024000000000000 : Flt) = fltAbs 0xC024000000000000 := by decide

theorem witness_LargerThresholdZeroesMore : fltIsNaN 0x3FF0000000000000 = false ∧
    fltIsNaN 0x4000000000000000 = false ∧ fltKey 0x3FF0000000000000 ≤ fltKey 0x4000000000000000 ∧
    quant binary64 0x3FE0000000000000 0x3FF0000000000000 = 0 := by decide

/-- The state after `XFWD.DCT` with other samples written meets the inner hypotheses. -/
theorem witness_PartialRegionIsRestored : ∃ t u : State, exec .xfwdDct t45 = .next t ∧ u.w = t.w ∧
    u.h = t.h ∧ u.blk = t.blk ∧ (∀ i < t45.len, u.coef.read i = t.coef.read i) ∧
    u.pix = space [0] :=
  let t := after (exec .xfwdDct t45)
  ⟨t, { t with pix := space [0] }, rfl, rfl, rfl, rfl, fun _ _ => rfl, rfl⟩

/-- Every pair of samples differs by at most 255. -/
theorem difference_at_most_255 (pairs : List (Byte × Byte)) : meanDifferenceAtMost 255 1 pairs := by
  unfold meanDifferenceAtMost
  induction pairs with
  | nil => simp
  | cons p rest ih =>
    have h1 := p.1.isLt
    have h2 := p.2.isLt
    simp only [List.map_cons, List.sum_cons, List.length_cons]
    omega

/-- Whatever the kernels, the property holds with the tolerance 255, and with the threshold 0, or a NaN
without sign, no coefficient is below it. -/
theorem witness_BlockRoundTripWithinTolerance : 1 ≤ 1 ∧ BlockRoundTrip machineConfig 255 1 ∧
    ∀ s ∈ [t45, { t45 with q := 0x7FF8000000000000 }],
      s.len ≤ 2 ^ 32 - 1 ∧ 1 ≤ s.blk.toNat ∧ s.blk.toNat ≤ 64 ∧ s.blk.toNat ≤ s.w.toNat ∧
      s.blk.toNat ≤ s.h.toNat ∧ ∀ c : Flt, fltLt (fltAbs c) s.q = false := by
  refine ⟨by decide, fun _ _ _ _ _ _ => difference_at_most_255 _, fun s hs => ?_⟩
  simp only [List.mem_cons, List.not_mem_nil, or_false] at hs
  rcases hs with rfl | rfl
  · refine ⟨by decide, by decide, by decide, by decide, by decide, fun c => ?_⟩
    have hq : fltKey t45.q = 0 := by decide
    have hk : ¬ fltKey (fltAbs c) < 0 := by
      rw [fltKey, fltNegative_abs]; simp
    simp [fltLt, hq, hk]
  · refine ⟨by decide, by decide, by decide, by decide, by decide, fun c => ?_⟩
    exact binary64.lt_nan _ _ (.inr (by decide))

theorem witness_DefaultRoundingIsNearestEven : fltIsFinite 0x4004000000000000 = true ∧
    fltIsFinite 0xC004000000000000 = true ∧
    fltKey 0xC004000000000000 ≤ fltKey 0x4004000000000000 := by decide

theorem witness_SampleConversion : machineConfig.flt.isFinite 0x7FEFFFFFFFFFFFFF = true ∧
    fltIsNaN 0xFFF0000000000000 = false ∧ fltIsInf 0xFFF0000000000000 = true ∧ fltIsNaN 0x7FF0000000000001 = true := by decide

theorem witness_XfwdHaarWritesTheSubbands : let s := buffer 2 2 [10, 20, 30, 40]
    s.len ≤ 2 ^ 32 - 1 ∧ 2 ≤ s.w.toNat ∧ 2 ≤ s.h.toNat ∧ s.w.toNat % 2 = 0 ∧ s.h.toNat % 2 = 0 := by
  decide

theorem witness_XinvHaarWritesTheSamples : let s := buffer 2147483646 2 []
    s.len ≤ 2 ^ 32 - 1 ∧ 2 ≤ s.w.toNat ∧ 2 ≤ s.h.toNat ∧ s.w.toNat % 2 = 0 ∧ s.h.toNat % 2 = 0 := by
  decide

theorem witness_HaarRoundTripWithinTolerance : CellRoundTrip machineConfig 255 1 ∧
    ∃ t u : State, exec .xfwdHaar (buffer 2 2 [10, 20, 30, 40]) = .next t ∧ u.w = t.w ∧ u.h = t.h ∧
      (∀ k < 1, u.suba.read k = t.suba.read k ∧ u.subh.read k = t.subh.read k ∧
        u.subv.read k = t.subv.read k ∧ u.subd.read k = t.subd.read k) ∧ u.pix = space [0] :=
  ⟨fun _ _ _ _ _ => difference_at_most_255 _,
    let t := after (exec .xfwdHaar (buffer 2 2 [10, 20, 30, 40]))
    ⟨t, { t with pix := space [0] }, rfl, rfl, rfl, fun _ _ => ⟨rfl, rfl, rfl, rfl⟩, rfl⟩⟩

end Sys2Proof.Tests
end

section
/-! PROOF. What a step can do, said once: the writes of a command that succeeds, and the cases of a move.
An invariant is a predicate that each of these keeps (`StepInvariant`), and every step keeps it. -/

namespace Sys2Proof.Machine

/-- What a command that succeeds has written, before the completion's flags (10_state R49): the update of
its row, with some values. `HTREE`'s values are given, since the tree invariant depends on them. -/
inductive CommandWrites (s : State) : Instr → State → Prop where
  | rleenc (runs : List Run) : CommandWrites s .rleenc (s.putRuns runs)
  | rledec (samples : List Byte) : CommandWrites s .rledec (s.putPix samples)
  | hfreq (count : Nat → Nat) : CommandWrites s .hfreq (s.putFreq count)
  | htree (present : presentSymbols s.count ≠ []) :
      CommandWrites s .htree (s.putTree (buildTree s.count))
  | hcodes (table : CodeTable) : CommandWrites s .hcodes (s.putCodes table)
  | henc (table : CodeTable) (stream : Code) :
      CommandWrites s .henc ((s.putCodes table).putBits stream).dropTree.drawFreq.drawTree
  | hdec (samples : List Byte) : CommandWrites s .hdec (s.putPix samples)
  | xfwdDct (coefficients : List Flt) : CommandWrites s .xfwdDct (s.putCoef coefficients)
  | xinvDct (samples : List Byte) : CommandWrites s .xinvDct (s.putPix samples).tick
  | xfwdHaar (cells : List (Flt × Flt × Flt × Flt)) :
      CommandWrites s .xfwdHaar (s.putSubbands cells)
  | xinvHaar (samples : List Byte) : CommandWrites s .xinvHaar (s.putPix samples).tick

/-- The end of a command whose successes are of its row. -/
theorem conclude_writes {i : Instr} {s t : State} {r : Except FailureKind State}
    (hr : ∀ u, r = .ok u → CommandWrites s i u) (h : conclude i s r = .next t) :
    (∃ u, CommandWrites s i u ∧ t = u.complete) ∨ ∃ k, t = failureEntry (some i) k s := by
  rcases conclude_cases h with ⟨u, hu, rfl⟩ | ⟨k, -, rfl⟩
  · exact .inl ⟨u, hr u hu, rfl⟩
  · exact .inr ⟨k, rfl⟩

/-- All that a command can do: the writes of its row and the completion, or the failure entry on the
state at issue (30_encoding R96, R97). -/
theorem exec_cases {i : Instr} {s t : State} (h : exec i s = .next t) :
    (∃ u, CommandWrites s i u ∧ t = u.complete) ∨ ∃ k, t = failureEntry (some i) k s := by
  cases i with
  | rleenc =>
    refine conclude_writes (fun u hu => ?_) h
    rcases rleenc_cases machineConfig s with ⟨-, e⟩ | ⟨-, -, e⟩ | ⟨-, -, e⟩ <;>
      cases e.symm.trans hu
    exact .rleenc _
  | rledec =>
    refine conclude_writes (fun u hu => ?_) h
    rcases rledec_cases machineConfig s with ⟨-, e⟩ | ⟨-, -, -, e⟩ | ⟨-, -, -, e⟩ <;>
      cases e.symm.trans hu
    exact .rledec _
  | hfreq =>
    refine conclude_writes (fun u hu => ?_) h
    rcases hfreq_cases machineConfig s with ⟨-, e⟩ | ⟨-, e⟩ <;> cases e.symm.trans hu
    exact .hfreq _
  | htree =>
    refine conclude_writes (fun u hu => ?_) h
    rcases htree_cases s with ⟨-, e⟩ | ⟨present, e⟩ <;> cases e.symm.trans hu
    exact .htree present
  | hcodes =>
    refine conclude_writes (fun u hu => ?_) h
    rcases hcodes_cases s with ⟨-, e⟩ | ⟨-, e⟩ <;> cases e.symm.trans hu
    exact .hcodes _
  | henc =>
    refine conclude_writes (fun u hu => ?_) h
    rcases henc_cases machineConfig s with e | e | ⟨-, -, e⟩ <;> cases e.symm.trans hu
    exact .henc _ _
  | hdec =>
    refine conclude_writes (fun u hu => ?_) h
    rcases hdec_cases machineConfig s with e | e | ⟨-, -, -, -, e⟩ <;> cases e.symm.trans hu
    exact .hdec _
  | xfwdDct =>
    refine conclude_writes (fun u hu => ?_) h
    rcases xfwdDct_cases machineConfig s with ⟨-, e⟩ | ⟨-, -, e⟩ | ⟨-, -, e⟩ <;>
      cases e.symm.trans hu
    exact .xfwdDct _
  | xinvDct =>
    refine conclude_writes (fun u hu => ?_) h
    rcases xinvDct_cases machineConfig s with ⟨-, e⟩ | ⟨-, -, e⟩ | ⟨-, -, e⟩ <;>
      cases e.symm.trans hu
    exact .xinvDct _
  | xfwdHaar =>
    refine conclude_writes (fun u hu => ?_) h
    rcases xfwdHaar_cases machineConfig s with ⟨-, e⟩ | ⟨-, -, e⟩ | ⟨-, -, e⟩ <;>
      cases e.symm.trans hu
    exact .xfwdHaar _
  | xinvHaar =>
    refine conclude_writes (fun u hu => ?_) h
    rcases xinvHaar_cases machineConfig s with ⟨-, e⟩ | ⟨-, -, e⟩ | ⟨-, -, e⟩ <;>
      cases e.symm.trans hu
    exact .xinvHaar _

/-- A predicate that everything a step is made of keeps. -/
structure StepInvariant (P : State → Prop) : Prop where
  /-- The next move is taken from the list. -/
  moves : ∀ s rest, P s → P { s with moves := rest }
  /-- Reset is asserted. -/
  assertReset : ∀ s, P s → P { s with inReset := true }
  /-- Reset is released. -/
  afterReset : ∀ draws busData moves, P (State.afterReset draws busData moves)
  /-- A host read answers a value. -/
  answer : ∀ s v, P s → P (s.answer v)
  /-- A host read draws a free value. -/
  tick : ∀ s, P s → P s.tick
  /-- A host access is refused. -/
  setHaz : ∀ s, P s → P s.setHaz
  /-- The host writes a register; index 0 issues a command. -/
  writeSlot : ∀ s v index, P s → P (s.writeSlot machineConfig v index)
  /-- The host writes an element of a data space. -/
  poke : ∀ s sp i v, i < spaceSize machineConfig sp → P s → P (s.poke machineConfig sp i v)
  /-- A command succeeds. -/
  complete : ∀ s i u, s.canStep = true → CommandWrites s i u → P s → P u.complete
  /-- A command fails, or the word is illegal. -/
  failureEntry : ∀ s command kind, s.canStep = true → P s → P (failureEntry command kind s)

namespace StepInvariant

variable {P : State → Prop} {s t : State}

theorem exec (inv : StepInvariant P) {i : Instr} (hc : s.canStep = true) (hs : P s)
    (h : exec i s = .next t) : P t := by
  rcases exec_cases h with ⟨u, hw, rfl⟩ | ⟨k, rfl⟩
  · exact inv.complete s i u hc hw hs
  · exact inv.failureEntry s (some i) k hc hs

theorem engineStep (inv : StepInvariant P) (hs : P s)
    (h : engineStep Machine.exec s = .next t) : P t := by
  rcases engineStep_cases h with ⟨-, rfl⟩ | ⟨hc, i, -, hi⟩ | ⟨hc, -, rfl⟩
  · exact hs
  · exact inv.exec hc hs hi
  · exact inv.failureEntry s none .illegalCommand hc hs

theorem answerUnspecified (inv : StepInvariant P) (hs : P s) (width : Nat) :
    P (s.answerUnspecified width) := inv.tick _ (inv.answer _ _ hs)

theorem hostReadReg (inv : StepInvariant P) (hs : P s) (index : Nat) :
    P (hostReadReg machineConfig s index) := by
  rcases hostReadReg_cases machineConfig s index with ⟨-, -, -, e⟩ | e <;> rw [e]
  · exact inv.setHaz _ (inv.answerUnspecified hs _)
  · exact inv.answer _ _ hs

theorem hostWriteReg (inv : StepInvariant P) (hs : P s) (index : Nat) (v : Slot) :
    P (hostWriteReg machineConfig s index v) := by
  rcases hostWriteReg_cases machineConfig s index v with ⟨-, -, e⟩ | e <;> rw [e]
  · exact inv.setHaz _ hs
  · exact inv.writeSlot _ _ _ hs

theorem hostReadSpace (inv : StepInvariant P) (hs : P s) (sp : SpaceId) (i : Nat) :
    P (hostReadSpace machineConfig s sp i) := by
  rcases hostReadSpace_cases machineConfig s sp i with ⟨-, e⟩ | ⟨-, -, e⟩ | ⟨-, -, e⟩ <;> rw [e]
  · exact inv.setHaz _ (inv.answer _ _ hs)
  · exact inv.setHaz _ (inv.answerUnspecified hs _)
  · exact inv.answer _ _ hs

theorem hostWriteSpace (inv : StepInvariant P) (hs : P s) (sp : SpaceId) (i : Nat) (v : Wide) :
    P (hostWriteSpace machineConfig s sp i v) := by
  rcases hostWriteSpace_cases machineConfig s sp i v with ⟨-, e⟩ | ⟨hi, -, e⟩ <;> rw [e]
  · exact inv.setHaz _ hs
  · exact inv.poke _ _ _ _ hi hs

theorem hostRead (inv : StepInvariant P) (hs : P s) (target : BusTarget) (i : Nat) :
    P (hostRead machineConfig s target i) := by
  cases target with
  | registers => exact inv.hostReadReg hs i
  | space sp => exact inv.hostReadSpace hs sp i

theorem hostWrite (inv : StepInvariant P) (hs : P s) (target : BusTarget) (i : Nat) (v : Wide) :
    P (hostWrite machineConfig s target i v) := by
  cases target with
  | registers => exact inv.hostWriteReg hs i _
  | space sp => exact inv.hostWriteSpace hs sp i v

theorem hostAction (inv : StepInvariant P) (hs : P s) {action : HostAction}
    (h : hostAction machineConfig s action = .next t) : P t := by
  cases action with
  | readReg i => cases h; exact inv.hostReadReg hs i
  | writeReg i v => cases h; exact inv.hostWriteReg hs i v
  | readSpace sp i => cases h; exact inv.hostReadSpace hs sp i
  | writeSpace sp i v => cases h; exact inv.hostWriteSpace hs sp i v
  | busRead target offset size =>
    simp only [Machine.hostAction] at h
    split at h <;> cases h
    exact inv.hostRead hs target _
  | busWrite target offset bytes =>
    simp only [Machine.hostAction] at h
    split at h <;> cases h
    exact inv.hostWrite hs target _ _

theorem hostActionInReset (inv : StepInvariant P) (hs : P s) {action : HostAction}
    (h : hostActionInReset machineConfig s action = .next t) : P t := by
  cases action with
  | readReg i => cases h; exact inv.answerUnspecified hs _
  | writeReg i v => cases h; exact hs
  | readSpace sp i => cases h; exact inv.answerUnspecified hs _
  | writeSpace sp i v => cases h; exact hs
  | busRead target offset size =>
    simp only [Machine.hostActionInReset] at h
    split at h <;> cases h
    exact inv.answerUnspecified hs _
  | busWrite target offset bytes =>
    simp only [Machine.hostActionInReset] at h
    split at h <;> cases h
    exact hs

theorem runMove (inv : StepInvariant P) (hs : P s) {m : Move}
    (h : runMove machineConfig Machine.exec s m = .next t) : P t := by
  cases m with
  | engine => exact inv.engineStep hs h
  | host action =>
    simp only [Machine.runMove, hostMove] at h
    split at h
    · exact inv.hostActionInReset hs h
    · exact inv.hostAction hs h
  | engineWithStatusWrite v =>
    refine inv.engineStep ?_ h
    split
    · exact hs
    · exact inv.writeSlot s v 1 hs
  | assertReset => cases h; exact inv.assertReset s hs
  | releaseReset =>
    cases h
    unfold State.release
    split
    · exact inv.afterReset _ _ _
    · exact hs

/-- Every step keeps a step invariant. -/
theorem step (inv : StepInvariant P) (hs : P s) (h : step s = .next t) : P t := by
  cases hm : s.moves with
  | nil => rw [step_of_no_moves hm] at h; exact inv.engineStep hs h
  | cons m rest => rw [step_of_move hm] at h; exact inv.runMove (inv.moves s rest hs) h

end StepInvariant

end Sys2Proof.Machine
end

section
/-! PROOF. The laws of `STATUS` and `ERRCODE` (10_state R32, R33; 60_exceptions R250) hold at reset and every
step keeps them. -/

namespace Sys2Proof.Machine

theorem FailureKind.code_ne_zero (kind : FailureKind) : kind.code ≠ 0 := by cases kind <;> decide

theorem FailureKind.code_ne_seven (kind : FailureKind) : kind.code ≠ 7 := by cases kind <;> decide

@[simp] theorem State.answer_status (s : State) (v : Wide) : (s.answer v).status = s.status := rfl
@[simp] theorem State.answer_errcode (s : State) (v : Wide) : (s.answer v).errcode = s.errcode := rfl

/-- The writes of a command leave the flags to the completion. -/
theorem CommandWrites.status_eq {s u : State} {i : Instr} (h : CommandWrites s i u) :
    u.status = s.status := by cases h <;> simp

theorem CommandWrites.errcode_eq {s u : State} {i : Instr} (h : CommandWrites s i u) :
    u.errcode = s.errcode := by cases h <;> simp

/-- The host's writes to a data space leave the flags but for `HAZ`. -/
theorem State.poke_status (c : Config) (s : State) (sp : SpaceId) (i : Nat) (v : Wide) :
    (s.poke c sp i v).status = s.status ∨ (s.poke c sp i v).status = s.setHaz.status := by
  cases sp with
  | tree => exact .inr rfl
  | _ => exact .inl rfl

theorem State.poke_errcode (c : Config) (s : State) (sp : SpaceId) (i : Nat) (v : Wide) :
    (s.poke c sp i v).errcode = s.errcode := by
  cases sp <;> rfl

/-- The laws speak of `BUSY`, `DONE`, `ERR` and `ERRCODE` alone. -/
theorem State.statusLaws_congr {s t : State} (hs : s.statusLaws) (hb : t.status.busy = s.status.busy)
    (hd : t.status.done = true → s.status.done = true) (he : t.status.err = s.status.err)
    (hc : t.errcode = s.errcode) : t.statusLaws := by
  obtain ⟨busyDone, errCode, notSeven, busyErr⟩ := hs
  unfold State.statusLaws
  rw [hb, he, hc]
  exact ⟨fun h => busyDone ⟨h.1, hd h.2⟩, errCode, notSeven, busyErr⟩

/-- A write to `STATUS` can only clear `DONE`. -/
theorem State.statusLaws_writeStatus {s : State} (hs : s.statusLaws) (v : Slot) :
    (s.writeStatus v).statusLaws :=
  statusLaws_congr hs rfl (fun h => (Bool.and_eq_true_iff.mp h).1) rfl rfl

/-- An issue clears `DONE`, `ERR` and `ERRCODE` as it sets `BUSY` (10_state R31). -/
theorem State.statusLaws_issue (s : State) (word : CommandWord) : (s.issue word).statusLaws := by
  simp [State.statusLaws]

theorem State.statusLaws_writeSlot {s : State} (hs : s.statusLaws) (c : Config) (v : Slot)
    (index : Nat) : (s.writeSlot c v index).statusLaws := by
  unfold State.writeSlot
  split
  · exact statusLaws_issue s _
  · exact statusLaws_writeStatus hs v
  all_goals exact hs

theorem State.statusLaws_poke {s : State} (hs : s.statusLaws) (c : Config) (sp : SpaceId) (i : Nat)
    (v : Wide) : (s.poke c sp i v).statusLaws := by
  rcases State.poke_status c s sp i v with e | e <;>
    exact statusLaws_congr hs (by simp [e]) (by simp [e]) (by simp [e]) (State.poke_errcode c s sp i v)

/-- A completion follows a busy engine, which has `ERR` 0; it records no failure. -/
theorem State.statusLaws_complete {s u : State} (hs : s.statusLaws) (hstatus : u.status = s.status)
    (herrcode : u.errcode = s.errcode) : u.complete.statusLaws := by
  obtain ⟨-, errCode, notSeven, -⟩ := hs
  simp only [State.statusLaws, State.complete_status, State.complete_errcode, hstatus, herrcode]
  exact ⟨by simp, errCode, notSeven, by simp⟩

/-- A failure records a code of its own, not 0 and not 7. -/
theorem statusLaws_failureEntry (command : Option Instr) (kind : FailureKind) (s : State) :
    (failureEntry command kind s).statusLaws := by
  simp only [failureEntry, State.statusLaws, State.fail_status, State.fail_errcode]
  exact ⟨by simp, iff_of_true trivial kind.code_ne_zero, kind.code_ne_seven, by simp⟩

theorem statusLaws_invariant : StepInvariant State.statusLaws where
  moves _ _ hs := hs
  assertReset _ hs := hs
  afterReset _ _ _ := by simp [State.statusLaws, State.afterReset]
  answer _ _ hs := hs
  tick _ hs := hs
  setHaz _ hs := hs
  writeSlot _ v index hs := State.statusLaws_writeSlot hs machineConfig v index
  poke _ sp i v _ hs := State.statusLaws_poke hs machineConfig sp i v
  complete _ _ _ _ hw hs := State.statusLaws_complete hs hw.status_eq hw.errcode_eq
  failureEntry s command kind _ _ := statusLaws_failureEntry command kind s

/-- Settles O21: each part of a step keeps the laws. -/
theorem stepKeepsStatusLaws : Obligations.StepKeepsStatusLaws :=
  fun _ _ hs h => statusLaws_invariant.step hs h

end Sys2Proof.Machine
end

section
/-! PROOF. The merge loop of `HTREE` (41_huffman_encoder R145 to R151): the nodes made so far form a forest
whose roots are the pool, each pass joins two of its trees, and the last pass leaves one tree. -/

namespace Sys2Proof.Machine

/-! ### The least node of a pool -/

theorem leastFrom_mem (nodes : List Node) (best : Nat) (pool : List Nat) :
    leastFrom nodes best pool ∈ best :: pool := by
  induction pool generalizing best with
  | nil => simp [leastFrom]
  | cons k rest ih =>
    unfold leastFrom
    split
    · exact List.mem_cons_of_mem best (ih k)
    · exact ((List.sublist_cons_self k rest).cons_cons best).subset (ih best)

theorem least_mem (nodes : List Node) {pool : List Nat} (h : pool ≠ []) : least nodes pool ∈ pool := by
  cases pool with
  | nil => exact absurd rfl h
  | cons k rest => exact leastFrom_mem nodes k rest

/-! ### Nodes -/

/-- The node of a list at an index, as the tree derivations look it up. -/
abbrev nodeAt (nodes : List Node) (k : Nat) : Node := nodes.getD k blankNode

theorem nodeAt_append_left {nodes : List Node} {k : Nat} (h : k < nodes.length) (more : List Node) :
    nodeAt (nodes ++ more) k = nodeAt nodes k := List.getD_append _ _ _ _ h

@[simp] theorem nodeAt_append_last (nodes : List Node) (n : Node) :
    nodeAt (nodes ++ [n]) nodes.length = n := by simp [nodeAt]

theorem freqAt_eq (nodes : List Node) (k : Nat) : freqAt nodes k = (nodeAt nodes k).freq.toNat := rfl

theorem childrenOf_leaf {n : Node} (h : n.leaf = true) : childrenOf n = [] := by simp [childrenOf, h]

theorem childrenOf_internal {n : Node} (h : n.leaf = false) (hl : n.left ≠ nilIndex)
    (hr : n.right ≠ nilIndex) : childrenOf n = [n.left.toNat, n.right.toNat] := by
  simp [childrenOf, h, hl, hr]

/-- An index of a node is never `NIL`, which is 511. -/
theorem ofNat_ne_nilIndex {k : Nat} (h : k < 511) : BitVec.ofNat 9 k ≠ nilIndex := by
  intro e
  have := congrArg BitVec.toNat e
  simp [nilIndex] at this
  omega

theorem toNat_ofNat_index {k : Nat} (h : k < 511) : (BitVec.ofNat 9 k).toNat = k := by
  rw [BitVec.toNat_ofNat]; omega

theorem childrenOf_mergedNode (nodes : List Node) {a b : Nat} (ha : a < 511) (hb : b < 511) :
    childrenOf (mergedNode nodes a b) = [a, b] := by
  rw [childrenOf_internal rfl (ofNat_ne_nilIndex ha) (ofNat_ne_nilIndex hb)]
  simp only [mergedNode, toNat_ofNat_index ha, toNat_ofNat_index hb]

/-! ### The forest -/

/-- An internal node of two children, at index `k` among `nodes` (41_huffman_encoder R148, R152). -/
structure MergesTwo (nodes : List Node) (k : Nat) : Prop where
  internal : (nodeAt nodes k).leaf = false
  sym : (nodeAt nodes k).sym = 0
  left : (nodeAt nodes k).left ≠ nilIndex
  right : (nodeAt nodes k).right ≠ nilIndex
  left_lt : (nodeAt nodes k).left.toNat < k
  right_lt : (nodeAt nodes k).right.toNat < k
  freq : freqAt nodes k =
    freqAt nodes (nodeAt nodes k).left.toNat + freqAt nodes (nodeAt nodes k).right.toNat

/-- The children of all the nodes of a list. -/
def allChildren (nodes : List Node) : List Nat :=
  (List.range nodes.length).flatMap fun k => childrenOf (nodeAt nodes k)

/-- The nodes made from `leaves` so far, and the pool (41_huffman_encoder R148, R152): every node is
the child of one node or is in the pool, and the pool's frequencies add up to those of the leaves. -/
structure Forest (leaves nodes : List Node) (pool : List Nat) : Prop where
  leaves_first : leaves <+: nodes
  merged : ∀ k, leaves.length ≤ k → k < nodes.length → MergesTwo nodes k
  one_parent : (allChildren nodes ++ pool).Perm (List.range nodes.length)
  total : (pool.map (freqAt nodes)).sum = (leaves.map fun n => n.freq.toNat).sum

theorem allChildren_append (nodes : List Node) (n : Node) :
    allChildren (nodes ++ [n]) = allChildren nodes ++ childrenOf n := by
  unfold allChildren
  rw [List.length_append, List.length_singleton, List.range_succ, List.flatMap_append]
  congr 1
  · refine List.flatMap_congr fun k hk => ?_
    rw [nodeAt_append_left (List.mem_range.mp hk)]
  · simp only [List.flatMap_cons, List.flatMap_nil, List.append_nil, nodeAt_append_last]

/-- More nodes leave a merged node as it was. -/
theorem MergesTwo.append {nodes : List Node} {k : Nat} (h : MergesTwo nodes k) (hk : k < nodes.length)
    (more : List Node) : MergesTwo (nodes ++ more) k := by
  obtain ⟨internal, sym, left, right, left_lt, right_lt, freq⟩ := h
  constructor <;> simp only [freqAt_eq, nodeAt_append_left hk,
    nodeAt_append_left (left_lt.trans hk), nodeAt_append_left (right_lt.trans hk)] <;> assumption

theorem mergesTwo_mergedNode (nodes : List Node) {a b : Nat} (ha : a < nodes.length)
    (hb : b < nodes.length) (hsize : nodes.length < 511)
    (hfreq : freqAt nodes a + freqAt nodes b < 2 ^ 40) :
    MergesTwo (nodes ++ [mergedNode nodes a b]) nodes.length := by
  have ha' : a < 511 := ha.trans hsize
  have hb' : b < 511 := hb.trans hsize
  constructor <;> simp only [freqAt_eq, nodeAt_append_last, mergedNode, toNat_ofNat_index ha',
    toNat_ofNat_index hb', nodeAt_append_left ha, nodeAt_append_left hb]
  case left => exact ofNat_ne_nilIndex ha'
  case right => exact ofNat_ne_nilIndex hb'
  case left_lt => exact ha
  case right_lt => exact hb
  case freq => rw [BitVec.toNat_ofNat]; exact Nat.mod_eq_of_lt hfreq

theorem freqAt_mergedNode (nodes : List Node) {a b : Nat}
    (h : freqAt nodes a + freqAt nodes b < 2 ^ 40) :
    freqAt (nodes ++ [mergedNode nodes a b]) nodes.length = freqAt nodes a + freqAt nodes b := by
  rw [freqAt_eq, nodeAt_append_last, mergedNode, BitVec.toNat_ofNat, Nat.mod_eq_of_lt h]

namespace Forest

variable {leaves nodes : List Node} {pool : List Nat}

theorem mem_lt (f : Forest leaves nodes pool) {k : Nat} (h : k ∈ pool) : k < nodes.length :=
  List.mem_range.mp (f.one_parent.subset (List.mem_append_right _ h))

/-- A pool is the two nodes a pass removes and the rest. -/
theorem perm_erase_pair {a b : Nat} (ha : a ∈ pool) (hb : b ∈ pool.erase a) :
    pool.Perm (a :: b :: (pool.erase a).erase b) :=
  (List.perm_cons_erase ha).trans ((List.perm_cons_erase hb).cons a)

/-- No frequency of a pair in the pool, nor their sum, exceeds the total. -/
theorem pair_freq_le (f : Forest leaves nodes pool) {a b : Nat} (ha : a ∈ pool) (hb : b ∈ pool.erase a) :
    freqAt nodes a + freqAt nodes b ≤ (leaves.map fun n => n.freq.toNat).sum := by
  have perm := perm_erase_pair ha hb
  rw [← f.total, (perm.map _).sum_eq]
  simp only [List.map_cons, List.sum_cons]
  omega

/-- One pass of the loop: two nodes of the pool become the children of a new node. -/
theorem merge (f : Forest leaves nodes pool) {a b : Nat} (ha : a ∈ pool) (hb : b ∈ pool.erase a)
    (hsize : nodes.length < 511) (htotal : (leaves.map fun n => n.freq.toNat).sum < 2 ^ 40) :
    Forest leaves (nodes ++ [mergedNode nodes a b]) ((pool.erase a).erase b ++ [nodes.length]) := by
  have la := f.mem_lt ha
  have lb := f.mem_lt (List.mem_of_mem_erase hb)
  have merges := mergesTwo_mergedNode nodes la lb hsize
    ((f.pair_freq_le ha hb).trans_lt htotal)
  have perm := perm_erase_pair ha hb
  constructor
  case leaves_first => exact f.leaves_first.trans (List.prefix_append _ _)
  case merged =>
    intro k hk hlt
    rcases Nat.lt_or_ge k nodes.length with h | h
    · exact (f.merged k hk h).append h _
    · rw [List.length_append, List.length_singleton] at hlt
      rw [show k = nodes.length by omega]
      exact merges
  case one_parent =>
    rw [allChildren_append, childrenOf_mergedNode nodes (la.trans hsize) (lb.trans hsize),
      List.length_append, List.length_singleton, List.range_succ, ← List.append_assoc]
    refine List.Perm.append_right _ ?_
    rw [List.append_assoc]
    exact (perm.symm.append_left _).trans f.one_parent
  case total =>
    have keep : ∀ k ∈ (pool.erase a).erase b,
        freqAt (nodes ++ [mergedNode nodes a b]) k = freqAt nodes k := fun k hk => by
      have := f.mem_lt (List.mem_of_mem_erase (List.mem_of_mem_erase hk))
      rw [freqAt_eq, nodeAt_append_left this, freqAt_eq]
    rw [← f.total, (perm.map _).sum_eq, List.map_append, List.map_congr_left keep]
    simp only [List.map_cons, List.map_nil, List.sum_append, List.sum_cons, List.sum_nil,
      freqAt_mergedNode nodes ((f.pair_freq_le ha hb).trans_lt htotal)]
    omega

end Forest

/-- The loop makes one node a pass and ends with one tree. -/
theorem mergeLoop_forest {leaves : List Node}
    (htotal : (leaves.map fun n => n.freq.toNat).sum < 2 ^ 40) {passes : Nat} {nodes : List Node}
    {pool : List Nat} (f : Forest leaves nodes pool) (hpool : pool.length = passes + 1)
    (hsize : nodes.length + passes ≤ 511) :
    (mergeLoop passes nodes pool).length = nodes.length + passes ∧
      ∃ root, Forest leaves (mergeLoop passes nodes pool) [root] := by
  induction passes generalizing nodes pool with
  | zero =>
    obtain ⟨root, rfl⟩ := List.length_eq_one_iff.mp hpool
    exact ⟨rfl, root, f⟩
  | succ passes ih =>
    have ha : least nodes pool ∈ pool :=
      least_mem nodes (List.ne_nil_of_length_pos (by omega))
    have hlen := List.length_erase_of_mem ha
    have hb : least nodes (pool.erase (least nodes pool)) ∈ pool.erase (least nodes pool) :=
      least_mem nodes (List.ne_nil_of_length_pos (by omega))
    have hlen' := List.length_erase_of_mem hb
    have step := ih (f.merge ha hb (by omega) htotal)
      (by simp only [List.length_append, List.length_singleton]; omega)
      (by simp only [List.length_append, List.length_singleton]; omega)
    rw [List.length_append, List.length_singleton] at step
    exact ⟨step.1.trans (by omega), step.2⟩

end Sys2Proof.Machine
end

section
/-! PROOF. The tree `HTREE` builds is lawful (41_huffman_encoder R152), and so every step keeps the tree
invariant (10_state R44). -/

namespace Sys2Proof.Machine

/-! ### A forest of one tree is lawful -/

/-- What the leaves of a tree are (41_huffman_encoder R147, R152): no children, symbols that occur, in
ascending order. -/
structure LeafList (leaves : List Node) : Prop where
  leaf : ∀ n ∈ leaves, n.leaf = true
  left : ∀ n ∈ leaves, n.left = nilIndex
  right : ∀ n ∈ leaves, n.right = nilIndex
  occurs : ∀ n ∈ leaves, 0 < n.freq.toNat
  ascend : leaves.Pairwise fun a b => a.sym.toNat < b.sym.toNat

theorem nodeAt_mem {nodes : List Node} {k : Nat} (h : k < nodes.length) : nodeAt nodes k ∈ nodes := by
  rw [nodeAt, List.getD_eq_getElem _ _ h]
  exact List.getElem_mem h

theorem LeafList.sym_lt {leaves : List Node} (hl : LeafList leaves) {j k : Nat} (hj : j < k)
    (hk : k < leaves.length) : (nodeAt leaves j).sym.toNat < (nodeAt leaves k).sym.toNat := by
  rw [nodeAt, nodeAt, List.getD_eq_getElem _ _ hk, List.getD_eq_getElem _ _ (hj.trans hk)]
  exact List.pairwise_iff_getElem.mp hl.ascend j k (hj.trans hk) hk hj

namespace Forest

variable {leaves nodes : List Node} {pool : List Nat}

theorem leaves_length_le (f : Forest leaves nodes pool) : leaves.length ≤ nodes.length :=
  f.leaves_first.length_le

theorem nodeAt_leaf (f : Forest leaves nodes pool) {k : Nat} (h : k < leaves.length) :
    nodeAt nodes k = nodeAt leaves k := by
  obtain ⟨rest, rfl⟩ := f.leaves_first
  exact nodeAt_append_left h rest

/-- A child's index is smaller than its parent's. -/
theorem child_lt (f : Forest leaves nodes pool) (hl : LeafList leaves) {k c : Nat}
    (hk : k < nodes.length) (hc : c ∈ childrenOf (nodeAt nodes k)) : c < k := by
  rcases Nat.lt_or_ge k leaves.length with h | h
  · rw [f.nodeAt_leaf h, childrenOf_leaf (hl.leaf _ (nodeAt_mem h))] at hc
    exact absurd hc List.not_mem_nil
  · have m := f.merged k h hk
    rw [childrenOf_internal m.internal m.left m.right] at hc
    simp only [List.mem_cons, List.not_mem_nil, or_false] at hc
    rcases hc with rfl | rfl
    · exact m.left_lt
    · exact m.right_lt

/-- The one tree left is rooted in the last node, since that is no node's child. -/
theorem root_last {root : Nat} (f : Forest leaves nodes [root]) (hl : LeafList leaves) :
    root + 1 = nodes.length := by
  have hlt : root < nodes.length := f.mem_lt (List.mem_singleton.mpr rfl)
  have hmem : nodes.length - 1 ∈ allChildren nodes ++ [root] :=
    f.one_parent.symm.subset (List.mem_range.mpr (by omega))
  rcases List.mem_append.mp hmem with h | h
  · obtain ⟨k, hk, hc⟩ := List.mem_flatMap.mp h
    have := f.child_lt hl (List.mem_range.mp hk) hc
    have := List.mem_range.mp hk
    omega
  · have := List.mem_singleton.mp h
    omega

/-- Two leaves or more, joined into one tree. -/
theorem lawful {root : Nat} (f : Forest leaves nodes [root]) (hl : LeafList leaves)
    (h2 : 2 ≤ leaves.length) (h256 : leaves.length ≤ 256)
    (hsize : nodes.length = 2 * leaves.length - 1) : TreeLaws (nodeAt nodes) nodes.length root := by
  have hcount : leafCount nodes.length = leaves.length := by unfold leafCount; omega
  have hroot := f.root_last hl
  constructor
  case size_legal => omega
  case root_last => exact hroot
  case leaves_first =>
    intro k hk
    rw [hcount]
    rcases Nat.lt_or_ge k leaves.length with h | h
    · rw [f.nodeAt_leaf h, hl.leaf _ (nodeAt_mem h), decide_eq_true h]
    · rw [(f.merged k h hk).internal, decide_eq_false (by omega)]
  case leaf_fields =>
    intro k hk
    rw [hcount] at hk
    rw [f.nodeAt_leaf hk]
    have mem := nodeAt_mem hk
    exact ⟨hl.left _ mem, hl.right _ mem, hl.occurs _ mem⟩
  case symbols_ascend =>
    intro j k hj hk
    rw [hcount] at hk
    rw [f.nodeAt_leaf hk, f.nodeAt_leaf (hj.trans hk)]
    exact hl.sym_lt hj hk
  case internal_sym =>
    intro k h hk
    rw [hcount] at h
    exact (f.merged k h hk).sym
  case freq_sum =>
    intro k h hk
    rw [hcount] at h
    have m := f.merged k h hk
    rw [childrenOf_internal m.internal m.left m.right]
    simpa [freqAt_eq] using m.freq
  case one_parent =>
    have perm := f.one_parent
    rw [← hroot, List.range_succ] at perm
    exact (List.perm_append_right_iff [root]).mp perm
  case child_smaller => exact fun k hk c hc => f.child_lt hl hk hc
  case child_count =>
    intro k h hk
    rw [hcount] at h
    have m := f.merged k h hk
    exact ⟨m.left, iff_of_false m.right (by omega)⟩

end Forest

/-- The tree of one symbol (41_huffman_encoder R150). -/
theorem oneSymbolTree_lawful {leaf : Node} (hl : LeafList [leaf]) :
    TreeLaws (nodeAt [leaf, oneSymbolRoot leaf]) 2 1 := by
  have mem : leaf ∈ [leaf] := List.mem_singleton.mpr rfl
  have h0 : nodeAt [leaf, oneSymbolRoot leaf] 0 = leaf := rfl
  have h1 : nodeAt [leaf, oneSymbolRoot leaf] 1 = oneSymbolRoot leaf := rfl
  have c0 : childrenOf leaf = [] := childrenOf_leaf (hl.leaf _ mem)
  have c1 : childrenOf (oneSymbolRoot leaf) = [0] := rfl
  constructor
  case size_legal => exact .inl rfl
  case root_last => rfl
  case leaves_first =>
    intro k hk
    interval_cases k
    · exact hl.leaf _ mem
    · rfl
  case leaf_fields =>
    intro k (hk : k < 1)
    interval_cases k
    exact ⟨hl.left _ mem, hl.right _ mem, hl.occurs _ mem⟩
  case symbols_ascend => intro j k hj (hk : k < 1); omega
  case internal_sym => intro k (h : 1 ≤ k) hk; interval_cases k; rfl
  case freq_sum => intro k (h : 1 ≤ k) hk; interval_cases k; rw [h1, c1]; rfl
  case one_parent => simp [List.range_succ, c0, c1]
  case child_smaller => intro k hk c hc; interval_cases k <;> simp_all
  case child_count =>
    intro k (h : 1 ≤ k) hk
    interval_cases k
    exact ⟨show (0 : BitVec 9) ≠ nilIndex by decide, iff_of_true rfl rfl⟩

/-! ### The tree that is built -/

/-- The leaves of the present symbols (41_huffman_encoder R147). -/
abbrev leavesOf (count : Nat → Nat) : List Node := (presentSymbols count).map (leafNode count)

theorem mem_presentSymbols {count : Nat → Nat} {sym : Nat} :
    sym ∈ presentSymbols count ↔ sym < 256 ∧ 0 < count sym := by
  simp [presentSymbols, mem_symbols]

theorem presentSymbols_pairwise (count : Nat → Nat) : (presentSymbols count).Pairwise (· < ·) := by
  refine List.Pairwise.filter _ ?_
  unfold symbols
  exact List.pairwise_lt_range

theorem length_presentSymbols_le (count : Nat → Nat) : (presentSymbols count).length ≤ 256 :=
  (List.length_filter_le _ _).trans_eq length_symbols

theorem leafNode_sym_toNat (count : Nat → Nat) {sym : Nat} (h : sym < 256) :
    (leafNode count sym).sym.toNat = sym := by
  simp only [leafNode, BitVec.toNat_ofNat]; omega

theorem leafNode_freq_toNat {count : Nat → Nat} {sym : Nat} (h : count sym < 2 ^ 32) :
    (leafNode count sym).freq.toNat = count sym := by
  simp only [leafNode, BitVec.toNat_ofNat]; omega

theorem leafList_leavesOf {count : Nat → Nat} (h : ∀ sym < 256, count sym < 2 ^ 32) :
    LeafList (leavesOf count) := by
  constructor
  case ascend =>
    refine List.pairwise_map.mpr ((presentSymbols_pairwise count).imp_of_mem fun ha hb hlt => ?_)
    rw [leafNode_sym_toNat count (mem_presentSymbols.mp ha).1,
      leafNode_sym_toNat count (mem_presentSymbols.mp hb).1]
    exact hlt
  case occurs =>
    refine List.forall_mem_map.mpr fun sym hs => ?_
    obtain ⟨hsym, hpos⟩ := mem_presentSymbols.mp hs
    rw [leafNode_freq_toNat (h sym hsym)]
    exact hpos
  all_goals exact List.forall_mem_map.mpr fun _ _ => rfl

/-- 256 counts of 32 bits add up to less than 40 bits hold (10_state R38). -/
theorem leavesOf_total_lt {count : Nat → Nat} (h : ∀ sym < 256, count sym < 2 ^ 32) :
    ((leavesOf count).map fun n => n.freq.toNat).sum < 2 ^ 40 := by
  have bound := List.sum_le_card_nsmul ((leavesOf count).map fun n => n.freq.toNat) (2 ^ 32 - 1) (by
    simp only [List.map_map, List.forall_mem_map, Function.comp]
    intro sym hs
    have hlt := h sym (mem_presentSymbols.mp hs).1
    rw [leafNode_freq_toNat hlt]
    omega)
  have few := length_presentSymbols_le count
  simp only [List.length_map, smul_eq_mul] at bound
  omega

/-- Before the first pass every leaf is a tree of its own. -/
theorem forest_of_leaves {leaves : List Node} (hl : LeafList leaves) :
    Forest leaves leaves (List.range leaves.length) := by
  constructor
  case leaves_first => exact List.prefix_refl _
  case merged => intro k h hk; omega
  case one_parent =>
    have childless : allChildren leaves = [] := List.flatMap_eq_nil_iff.mpr fun k hk =>
      childrenOf_leaf (hl.leaf _ (nodeAt_mem (List.mem_range.mp hk)))
    rw [childless, List.nil_append]
  case total =>
    congr 1
    refine List.ext_getElem (by simp) fun k h1 h2 => ?_
    simp only [List.length_map] at h2
    simp [freqAt, h2]

/-- Two present symbols or more: the loop runs from the leaves. -/
theorem buildTree_of_two {count : Nat → Nat} (h2 : 2 ≤ (presentSymbols count).length) :
    buildTree count = mergeLoop ((leavesOf count).length - 1) (leavesOf count)
      (List.range (leavesOf count).length) := by
  unfold buildTree
  dsimp only
  split
  · next e => have := congrArg List.length e; rw [List.length_map, List.length_nil] at this; omega
  · next e =>
    have := congrArg List.length e
    rw [List.length_map, List.length_singleton] at this
    omega
  · rfl

theorem buildTree_of_one {count : Nat → Nat} (h1 : (presentSymbols count).length = 1) :
    ∃ leaf, leavesOf count = [leaf] ∧ buildTree count = [leaf, oneSymbolRoot leaf] := by
  obtain ⟨sym, hs⟩ := List.length_eq_one_iff.mp h1
  exact ⟨leafNode count sym, by simp [hs], by simp [buildTree, hs]⟩

/-- With two present symbols or more the nodes built are one tree over the leaves. -/
theorem buildTree_forest {count : Nat → Nat} (h : ∀ sym < 256, count sym < 2 ^ 32)
    (h2 : 2 ≤ (presentSymbols count).length) :
    (buildTree count).length = 2 * (presentSymbols count).length - 1 ∧
      ∃ root, Forest (leavesOf count) (buildTree count) [root] := by
  have few := length_presentSymbols_le count
  have hlen : (leavesOf count).length = (presentSymbols count).length := List.length_map _
  have loop := mergeLoop_forest (leavesOf_total_lt h) (passes := (leavesOf count).length - 1)
    (forest_of_leaves (leafList_leavesOf h)) (by rw [List.length_range]; omega) (by omega)
  rw [buildTree_of_two h2]
  exact ⟨loop.1.trans (by omega), loop.2⟩

theorem length_buildTree {count : Nat → Nat} (h : ∀ sym < 256, count sym < 2 ^ 32)
    (hp : presentSymbols count ≠ []) : (buildTree count).length =
      if (presentSymbols count).length = 1 then 2 else 2 * (presentSymbols count).length - 1 := by
  have pos := List.length_pos_of_ne_nil hp
  split
  · next h1 => obtain ⟨leaf, -, e⟩ := buildTree_of_one h1; rw [e]; rfl
  · exact (buildTree_forest h (by omega)).1

/-- The tree of any table of 32-bit counts that is not empty (41_huffman_encoder R152). -/
theorem buildTree_lawful {count : Nat → Nat} (h : ∀ sym < 256, count sym < 2 ^ 32)
    (hp : presentSymbols count ≠ []) :
    TreeLaws (nodeAt (buildTree count)) (buildTree count).length ((buildTree count).length - 1) := by
  have hl := leafList_leavesOf h
  have pos := List.length_pos_of_ne_nil hp
  by_cases h1 : (presentSymbols count).length = 1
  · obtain ⟨leaf, hleaf, e⟩ := buildTree_of_one h1
    rw [e]
    exact oneSymbolTree_lawful (hleaf ▸ hl)
  · obtain ⟨hlen, root, f⟩ := buildTree_forest h (by omega)
    have hroot := f.root_last hl
    rw [show (buildTree count).length - 1 = root by omega]
    have hleaves : (leavesOf count).length = (presentSymbols count).length := List.length_map _
    have few := length_presentSymbols_le count
    exact f.lawful hl (by omega) (by omega) (by omega)

/-! ### The tree that is stored -/

/-- The laws speak of the nodes below the size alone. -/
theorem TreeLaws.congr {node node' : Nat → Node} {size root : Nat} (h : TreeLaws node size root)
    (same : ∀ k < size, node' k = node k) : TreeLaws node' size root := by
  have hleaf : leafCount size ≤ size := by unfold leafCount; have := h.size_legal; omega
  constructor
  case size_legal => exact h.size_legal
  case root_last => exact h.root_last
  case leaves_first => intro k hk; rw [same k hk]; exact h.leaves_first k hk
  case leaf_fields => intro k hk; rw [same k (hk.trans_le hleaf)]; exact h.leaf_fields k hk
  case symbols_ascend =>
    intro j k hj hk
    rw [same k (hk.trans_le hleaf), same j ((hj.trans hk).trans_le hleaf)]
    exact h.symbols_ascend j k hj hk
  case internal_sym => intro k hk hlt; rw [same k hlt]; exact h.internal_sym k hk hlt
  case freq_sum =>
    intro k hk hlt
    rw [same k hlt, h.freq_sum k hk hlt]
    refine congrArg List.sum (List.map_congr_left fun c hc => ?_)
    rw [same c ((h.child_smaller k hlt c hc).trans hlt)]
  case one_parent =>
    rw [List.flatMap_congr fun k hk => by rw [same k (List.mem_range.mp hk)]]
    exact h.one_parent
  case child_smaller => intro k hk; rw [same k hk]; exact h.child_smaller k hk
  case child_count => intro k hk hlt; rw [same k hlt]; exact h.child_count k hk hlt

/-- The nodes put in `TREE` are read back from it. -/
theorem State.node_putTree (s : State) {nodes : List Node} {k : Nat} (h : k < nodes.length) :
    (s.putTree nodes).node k = nodeAt nodes k := by
  rw [State.node, State.putTree_tree, Space.read_writeFrom_zero _ _ (by rwa [List.length_map]),
    List.getElem_map, Node.unpack_pack, nodeAt, List.getD_eq_getElem _ _ h]

theorem State.count_lt (s : State) (sym : Nat) : s.count sym < 2 ^ 32 := (s.freq.read sym).isLt

/-- `HTREE` stores a lawful tree. -/
theorem State.treeLaws_putTree (s : State) (hp : presentSymbols s.count ≠ []) :
    (s.putTree (buildTree s.count)).treeLaws := by
  have laws := buildTree_lawful (fun sym _ => s.count_lt sym) hp
  have legal := laws.size_legal
  have hsize : (s.putTree (buildTree s.count)).nnodes.toNat = (buildTree s.count).length := by
    rw [State.putTree_nnodes, BitVec.toNat_ofNat]; omega
  have hroot : (s.putTree (buildTree s.count)).root.toNat = (buildTree s.count).length - 1 := by
    rw [State.putTree_root, BitVec.toNat_ofNat]; omega
  refine ⟨fun h => ?_, fun _ => ?_⟩
  · rw [h] at hsize
    have : (0 : BitVec 10).toNat = 0 := rfl
    omega
  · rw [hsize, hroot]
    exact laws.congr fun k hk => s.node_putTree hk

/-! ### Every step -/

/-- No tree. -/
theorem State.treeLaws_of_none {s : State} (hn : s.nnodes = 0) (hr : s.root = 0) : s.treeLaws :=
  ⟨fun _ => hr, fun h => absurd hn h⟩

/-- The invariant speaks of `NNODES`, `ROOT` and `TREE` alone. -/
theorem State.treeLaws_congr {s t : State} (hs : s.treeLaws) (hn : t.nnodes = s.nnodes)
    (hr : t.root = s.root) (ht : t.tree = s.tree) : t.treeLaws := by
  have hnode : t.node = s.node := by funext k; rw [State.node, State.node, ht]
  unfold State.treeLaws
  rw [hn, hr, hnode]
  exact hs

/-- The host can write neither `NNODES` nor `ROOT` (10_state R29, R30). -/
theorem State.treeLaws_writeSlot {s : State} (hs : s.treeLaws) (c : Config) (v : Slot) (index : Nat) :
    (s.writeSlot c v index).treeLaws := by
  unfold State.writeSlot
  split <;> exact treeLaws_congr hs rfl rfl rfl

/-- The host cannot write `TREE` (20_memory R62). -/
theorem State.treeLaws_poke {s : State} (hs : s.treeLaws) (c : Config) (sp : SpaceId) (i : Nat)
    (v : Wide) : (s.poke c sp i v).treeLaws := by
  cases sp <;> exact treeLaws_congr hs rfl rfl rfl

/-- `HTREE` stores a lawful tree, `HENC` leaves none, and the other commands write no tree. -/
theorem CommandWrites.treeLaws {s u : State} {i : Instr} (h : CommandWrites s i u) (hs : s.treeLaws) :
    u.treeLaws := by
  cases h with
  | htree present => exact s.treeLaws_putTree present
  | henc table stream => exact State.treeLaws_of_none rfl rfl
  | _ => exact State.treeLaws_congr hs rfl rfl rfl

/-- A failed `HTREE` or `HENC` leaves no tree (60_exceptions R257). -/
theorem treeLaws_failureEntry {s : State} (hs : s.treeLaws) (command : Option Instr)
    (kind : FailureKind) : (failureEntry command kind s).treeLaws := by
  rcases command with _ | i
  · exact State.treeLaws_congr hs rfl rfl rfl
  · cases i with
    | htree => exact State.treeLaws_of_none rfl rfl
    | henc => exact State.treeLaws_of_none rfl rfl
    | _ => exact State.treeLaws_congr hs rfl rfl rfl

theorem treeLaws_invariant : StepInvariant State.treeLaws where
  moves _ _ hs := hs
  assertReset _ hs := hs
  afterReset _ _ _ := State.treeLaws_of_none rfl rfl
  answer _ _ hs := hs
  tick _ hs := hs
  setHaz _ hs := hs
  writeSlot _ v index hs := State.treeLaws_writeSlot hs machineConfig v index
  poke _ sp i v _ hs := State.treeLaws_poke hs machineConfig sp i v
  complete _ _ _ _ hw hs := hw.treeLaws hs
  failureEntry _ command kind _ hs := treeLaws_failureEntry hs command kind

/-- Settles O24: `HTREE` alone stores a tree, and what it builds is lawful. -/
theorem stepKeepsTreeLaws : Obligations.StepKeepsTreeLaws :=
  fun _ _ hs h => treeLaws_invariant.step hs h

end Sys2Proof.Machine
end

section
/-! PROOF. The host's register accesses (10_state R21 to R34; 70_reset_and_hazards R297 to R299). -/

namespace Sys2Proof.Machine

/-! ### The step of a host move -/

theorem step_of_host {s : State} {action : HostAction} {rest : List Move} (hr : s.inReset = false)
    (hm : s.moves = .host action :: rest) :
    step s = hostAction machineConfig { s with moves := rest } action := by
  rw [step_of_move hm]
  simp [runMove, hostMove, hr]

theorem step_of_readReg {s : State} {index : Nat} {rest : List Move} (hr : s.inReset = false)
    (hm : s.moves = .host (.readReg index) :: rest) :
    step s = .next (hostReadReg machineConfig { s with moves := rest } index) := step_of_host hr hm

theorem step_of_writeReg {s : State} {index : Nat} {v : Slot} {rest : List Move}
    (hr : s.inReset = false) (hm : s.moves = .host (.writeReg index v) :: rest) :
    step s = .next (hostWriteReg machineConfig { s with moves := rest } index v) := step_of_host hr hm

/-! ### When an access is dropped -/

/-- While the engine is busy the host can write neither `CMD` nor an operand register. -/
theorem hostWriteReg_of_owned {c : Config} {s : State} {index : Nat} (v : Slot)
    (hb : s.status.busy = true) (h : index = 0 ∨ isOperandRegister index = true) :
    hostWriteReg c s index v = s.setHaz := by
  simp [hostWriteReg, hb, h]

theorem hostWriteReg_of_idle {c : Config} {s : State} (index : Nat) (v : Slot)
    (hb : s.status.busy = false) : hostWriteReg c s index v = s.writeSlot c v index := by
  simp [hostWriteReg, hb]

/-- `STATUS`, `ERRCODE`, `CTRL` and indices above 11 are written as ever. -/
theorem hostWriteReg_of_free {c : Config} {s : State} {index : Nat} (v : Slot)
    (h0 : index ≠ 0) (h : isOperandRegister index = false) :
    hostWriteReg c s index v = s.writeSlot c v index := by
  simp [hostWriteReg, h0, h]

/-- What the host reads is the value of the slot, unless the running command owns the register. -/
theorem hostReadReg_of_free {c : Config} {s : State} {index : Nat}
    (h : s.status.busy = true → isOperandRegister index = false) :
    hostReadReg c s index = { s with busData := BitVec.ofNat 256 (s.slot c index).toNat } := by
  have free : (isOperandRegister index && s.status.busy) = false := by
    cases hb : s.status.busy <;> simp_all
  rw [hostReadReg, free, BitVec.ofNat_toNat]
  rfl

theorem isOperandRegister_above {index : Nat} (h : 12 ≤ index) : isOperandRegister index = false := by
  simp [isOperandRegister]; omega

/-! ### What a slot reads as -/

/-- A number of at most 64 bits keeps its value in the slot. -/
theorem toNat_setWidth_slot {width : Nat} (h : width ≤ 64) (x : BitVec width) :
    (x.setWidth 64).toNat = x.toNat := BitVec.toNat_setWidth_of_le h

theorem Status.toNat_toBits (t : Status) : t.toBits.toNat =
    t.busy.toNat + 2 * t.done.toNat + 4 * t.err.toNat + 8 * t.haz.toNat := by
  obtain ⟨busy, done, err, haz⟩ := t
  revert busy done err haz
  decide

/-- 10_state R32: the flags in bits 0 to 3. -/
theorem State.slot_status (s : State) : (s.slot machineConfig 1).toNat =
    s.status.busy.toNat + 2 * s.status.done.toNat + 4 * s.status.err.toNat +
      8 * s.status.haz.toNat :=
  (toNat_setWidth_slot (by decide) _).trans s.status.toNat_toBits

theorem State.slot_errcode (s : State) : (s.slot machineConfig 2).toNat = s.errcode.toNat :=
  toNat_setWidth_slot (by decide) _

theorem State.slot_ctrl (s : State) : (s.slot machineConfig 3).toNat = s.ie.toNat :=
  (toNat_setWidth_slot (by decide) _).trans (BitVec.toNat_ofBool _)

theorem State.slot_empty (s : State) {index : Nat} (h : index = 0 ∨ 12 ≤ index) :
    s.slot machineConfig index = 0 := by
  rcases h with rfl | h
  · rfl
  · obtain ⟨k, rfl⟩ := Nat.exists_eq_add_of_le' h
    rfl

/-- The operand registers read as their values (10_state R23 to R30). -/
theorem State.slot_operand {s : State} {index value : Nat}
    (h : (index = 4 ∧ value = s.w.toNat) ∨ (index = 5 ∧ value = s.h.toNat) ∨
      (index = 6 ∧ value = s.blk.toNat) ∨ (index = 7 ∧ value = s.q.toNat) ∨
      (index = 8 ∧ value = s.nruns.toNat) ∨ (index = 9 ∧ value = s.bitlen.toNat) ∨
      (index = 10 ∧ value = s.nnodes.toNat) ∨ (index = 11 ∧ value = s.root.toNat)) :
    (s.slot machineConfig index).toNat = value := by
  rcases h with ⟨rfl, rfl⟩ | ⟨rfl, rfl⟩ | ⟨rfl, rfl⟩ | ⟨rfl, rfl⟩ | ⟨rfl, rfl⟩ | ⟨rfl, rfl⟩ |
    ⟨rfl, rfl⟩ | ⟨rfl, rfl⟩
  -- `Q` goes through the pattern of the format, which is the identity on binary64.
  case inr.inr.inr.inl => exact congrArg BitVec.toNat (pattern_of_binary64 s.q)
  all_goals exact toNat_setWidth_slot (by decide) _

/-! ### What a slot keeps -/

/-- The read/write registers from `CTRL` on leave the flags alone. -/
theorem State.writeSlot_status (s : State) (c : Config) (v : Slot) {index : Nat} (h : 2 ≤ index) :
    (s.writeSlot c v index).status = s.status := by
  unfold State.writeSlot
  split
  case h_1 => omega
  case h_2 => omega
  all_goals rfl

theorem State.writeSlot_readOnly (s : State) (c : Config) (v : Slot) {index : Nat}
    (h : index = 2 ∨ 10 ≤ index) : s.writeSlot c v index = s := by
  rcases h with rfl | h
  · rfl
  · obtain ⟨k, rfl⟩ := Nat.exists_eq_add_of_le' h
    rfl

/-- A read/write register reads as the low bits of what was written (10_state R21). -/
theorem State.slot_writeSlot (s : State) (v : Slot) {index : Nat} (h3 : 3 ≤ index) (h9 : index ≤ 9) :
    ((s.writeSlot machineConfig v index).slot machineConfig index).toNat =
      v.toNat % 2 ^ registerWidth machineConfig index := by
  have low {width : Nat} (h : width ≤ 64) :
      ((v.setWidth width).setWidth 64).toNat = v.toNat % 2 ^ width :=
    (toNat_setWidth_slot h _).trans (BitVec.toNat_setWidth _ _)
  have ctrl : ((s.writeSlot machineConfig v 3).slot machineConfig 3).toNat = v.toNat % 2 ^ 1 := by
    refine (State.slot_ctrl _).trans ((Nat.toNat_testBit v.toNat 0).trans ?_)
    rw [pow_zero, Nat.div_one, pow_one]
  have threshold : ((s.writeSlot machineConfig v 7).slot machineConfig 7).toNat = v.toNat % 2 ^ 64 := by
    simp only [State.slot, State.writeSlot, machineConfig_flt, pattern_of_binary64]
    exact (Nat.mod_eq_of_lt v.isLt).symm
  interval_cases index
  · exact ctrl
  · exact low (by decide)
  · exact low (by decide)
  · exact low (by decide)
  · exact threshold
  · exact low (by decide)
  · exact low (by decide)

/-! ### The obligations -/

/-- Settles O8. -/
theorem commandWriteIssuesOrIsDropped : Obligations.CommandWriteIssuesOrIsDropped := by
  intro s v rest hr hm
  rw [step_of_writeReg hr hm]
  constructor
  · intro idle
    rw [hostWriteReg_of_idle (s := { s with moves := rest }) 0 v idle]
    rfl
  · intro busy
    rw [hostWriteReg_of_owned (s := { s with moves := rest }) v busy (.inl rfl)]
    rfl

/-- Settles O10. -/
theorem statusWriteOneToClear : Obligations.StatusWriteOneToClear := by
  intro s v rest hr hm
  rw [step_of_writeReg hr hm, hostWriteReg_of_free v (by decide) rfl]
  rfl

/-- An idle engine's `CTRL` and operand registers read back what was written. -/
theorem toNat_busData_read_after_write {s : State} (idle : s.status.busy = false) (v : Slot)
    {index : Nat} (h3 : 3 ≤ index) (h9 : index ≤ 9) :
    (hostReadReg machineConfig (hostWriteReg machineConfig s index v) index).busData.toNat
      = v.toNat % 2 ^ registerWidth machineConfig index := by
  have idle' : (s.writeSlot machineConfig v index).status.busy = false := by
    rw [s.writeSlot_status machineConfig v (by omega)]
    exact idle
  rw [hostWriteReg_of_idle index v idle, hostReadReg_of_free (by simp [idle']),
    BitVec.toNat_ofNat, s.slot_writeSlot v h3 h9]
  exact Nat.mod_eq_of_lt ((Nat.mod_le _ _).trans_lt (v.isLt.trans (by decide)))

/-- Settles O12: a read answers the value of the slot, a write updates it. -/
theorem registerWriteThenRead : Obligations.RegisterWriteThenRead := by
  intro s v
  have read {index value : Nat} (hv : (s.slot machineConfig index).toNat = value)
      (h : s.status.busy = true → isOperandRegister index = false) :
      hostReadReg machineConfig s index = { s with busData := BitVec.ofNat 256 value } := by
    rw [hostReadReg_of_free h, hv]
  have empty (index : Nat) (h : index = 0 ∨ 12 ≤ index) :
      hostReadReg machineConfig s index = { s with busData := 0 } :=
    read (congrArg BitVec.toNat (s.slot_empty h)) fun _ => h.elim (· ▸ rfl) isOperandRegister_above
  have ignored (index : Nat) (h : index = 2 ∨ 12 ≤ index) : hostWriteReg machineConfig s index v = s :=
    (hostWriteReg_of_free v (by omega) (h.elim (· ▸ rfl) isOperandRegister_above)).trans
      (s.writeSlot_readOnly _ v (by omega))
  have write (idle : s.status.busy = false) (index : Nat) :
      hostWriteReg machineConfig s index v = s.writeSlot machineConfig v index :=
    hostWriteReg_of_idle index v idle
  have threshold (idle : s.status.busy = false) :
      hostWriteReg machineConfig s 7 v = { s with q := v } := by
    rw [write idle, State.writeSlot, machineConfig_flt, pattern_of_binary64]
  exact ⟨fun idle => ⟨fun _ h3 h9 => toNat_busData_read_after_write idle v h3 h9, write idle 4,
      write idle 5, write idle 6, threshold idle, write idle 8, write idle 9,
      fun _ _ h => read (State.slot_operand h) (by simp [idle])⟩,
    read s.slot_status fun _ => rfl, read s.slot_errcode fun _ => rfl, read s.slot_ctrl fun _ => rfl,
    hostWriteReg_of_free v (by decide) rfl, empty, ignored,
    fun idle => ⟨write idle 10, write idle 11⟩,
    fun hr _ _ => ⟨step_of_readReg hr, step_of_writeReg hr⟩⟩

end Sys2Proof.Machine
end

section
/-! PROOF. What a command leaves as it was (10_state R49, 60_exceptions R258). -/

namespace Sys2Proof.Machine

/-- The state that belongs to no command's row: the registers no command writes, `HAZ`, the inputs and
the model's own fields but for the draws. -/
structure SameControl (s t : State) : Prop where
  w : t.w = s.w
  h : t.h = s.h
  blk : t.blk = s.blk
  q : t.q = s.q
  ie : t.ie = s.ie
  lcmd : t.lcmd = s.lcmd
  haz : t.status.haz = s.status.haz
  inReset : t.inReset = s.inReset
  busData : t.busData = s.busData
  moves : t.moves = s.moves

/-- The output registers and spaces outside a command's row (10_state R49). -/
structure SameOutsideRow (i : Instr) (s t : State) : Prop where
  runs : i ≠ .rleenc → t.nruns = s.nruns ∧ t.runs = s.runs
  bits : i ≠ .henc → t.bitlen = s.bitlen ∧ t.bits = s.bits
  tree : i ≠ .htree → i ≠ .henc → t.nnodes = s.nnodes ∧ t.root = s.root ∧ t.tree = s.tree
  freq : i ≠ .hfreq → i ≠ .henc → t.freq = s.freq
  codes : i ≠ .hcodes → i ≠ .henc → t.clen = s.clen ∧ t.cval = s.cval
  pix : i ∉ [Instr.rledec, .hdec, .xinvDct, .xinvHaar] → t.pix = s.pix
  coef : i ≠ .xfwdDct → t.coef = s.coef
  subbands : i ≠ .xfwdHaar →
    t.suba = s.suba ∧ t.subh = s.subh ∧ t.subv = s.subv ∧ t.subd = s.subd

theorem CommandWrites.sameControl {s u : State} {i : Instr} (h : CommandWrites s i u) :
    SameControl s u.complete := by
  cases h <;> constructor <;> simp

theorem CommandWrites.sameOutsideRow {s u : State} {i : Instr} (h : CommandWrites s i u) :
    SameOutsideRow i s u.complete := by
  cases h <;> constructor <;> simp

theorem sameControl_failureEntry (i : Instr) (kind : FailureKind) (s : State) :
    SameControl s (failureEntry (some i) kind s) := by
  cases i <;> constructor <;> simp [failureEntry, failureOutputs]

theorem sameOutsideRow_failureEntry (i : Instr) (kind : FailureKind) (s : State) :
    SameOutsideRow i s (failureEntry (some i) kind s) := by
  cases i <;> constructor <;> simp [failureEntry, failureOutputs]

/-- Whatever runs and however it ends (60_exceptions R258). -/
theorem exec_frame {i : Instr} {s t : State} (h : exec i s = .next t) :
    SameControl s t ∧ SameOutsideRow i s t := by
  rcases exec_cases h with ⟨u, hw, rfl⟩ | ⟨kind, rfl⟩
  · exact ⟨hw.sameControl, hw.sameOutsideRow⟩
  · exact ⟨sameControl_failureEntry i kind s, sameOutsideRow_failureEntry i kind s⟩

/-- Settles O31: spaces that are the same read the same. -/
theorem commandTouchesOnlyItsRow : Obligations.CommandTouchesOnlyItsRow := by
  intro i s t h
  obtain ⟨control, row⟩ := exec_frame h
  have reads {width : Nat} {a b : Space width} (e : a = b) (k : Nat) : a.read k = b.read k := e ▸ rfl
  refine ⟨control.w, control.h, control.blk, control.q, control.ie, control.lcmd, control.haz,
    control.inReset, control.busData, control.moves, fun h => ?_, fun h => ?_, fun h h' => ?_,
    fun h h' => reads (row.freq h h'), fun h h' => ?_, fun h => reads (row.pix h),
    fun h => reads (row.coef h), fun h => ?_⟩
  · exact ⟨(row.runs h).1, reads (row.runs h).2⟩
  · exact ⟨(row.bits h).1, reads (row.bits h).2⟩
  · obtain ⟨nnodes, root, tree⟩ := row.tree h h'
    exact ⟨nnodes, root, reads tree⟩
  · exact ⟨reads (row.codes h h').1, reads (row.codes h h').2⟩
  · obtain ⟨suba, subh, subv, subd⟩ := row.subbands h
    exact fun k => ⟨reads suba k, reads subh k, reads subv k, reads subd k⟩

end Sys2Proof.Machine
end

section
/-! PROOF. The state after reset (10_state R48) and the invariants in it. -/

namespace Sys2Proof.Machine

/-- Settles O5. -/
theorem resetState : Obligations.ResetState := by
  simp [Obligations.ResetState, State.reset, State.afterReset, State.irq, Space.fresh]

/-- A space that lists nothing is within any bounds. -/
theorem memoryLaws_afterReset (draws : Nat) (busData : Wide) (moves : List Move) :
    (State.afterReset draws busData moves).memoryLaws :=
  ⟨Memory.wf_afterReset draws busData moves, rfl⟩

/-- The twelve spaces take the next twelve draws (log 3). -/
theorem drawLaws_afterReset (draws : Nat) (busData : Wide) (moves : List Move) :
    (State.afterReset draws busData moves).drawLaws := by
  simp [State.drawLaws, State.epochs, State.afterReset]

/-- Settles O20: `StepInvariant` asks as much of the state in which reset is released. -/
theorem invariantsAtReset : Obligations.InvariantsAtReset :=
  ⟨statusLaws_invariant.afterReset 0 0 [], memoryLaws_afterReset 0 0 [], drawLaws_afterReset 0 0 [],
    treeLaws_invariant.afterReset 0 0 []⟩

end Sys2Proof.Machine
end

section
/-! PROOF. Every step keeps the data spaces canonical and inside their bounds (20_memory R60, R66). The
form is a step invariant; the bounds rest on how much each command writes. -/

namespace Sys2Proof.Machine

/-! ### The canonical form -/

/-- Whatever a command writes, it writes through the operations of `Laws/Form`. -/
theorem CommandWrites.wf {s u : State} {i : Instr} (hw : CommandWrites s i u)
    (h : Memory.wf s = true) : Memory.wf u = true := by
  cases hw with
  | rleenc runs => exact Memory.wf_putRuns h runs
  | rledec samples => exact Memory.wf_putPix h samples
  | hfreq count => exact Memory.wf_putFreq h count
  | htree _ => exact Memory.wf_putTree h _
  | hcodes table => exact Memory.wf_putCodes h table
  | henc table stream =>
    exact Memory.wf_congr (Memory.wf_putBits (Memory.wf_putCodes h table) stream) id id
      (fun _ => rfl) (fun _ => rfl) id id id id id id id id
  | hdec samples => exact Memory.wf_putPix h samples
  | xfwdDct coefficients => exact Memory.wf_putCoef h coefficients
  | xinvDct samples => exact Memory.wf_putPix h samples
  | xfwdHaar cells => exact Memory.wf_putSubbands h cells
  | xinvHaar samples => exact Memory.wf_putPix h samples

theorem Memory.wf_writeSlot {s : State} (h : Memory.wf s = true) (c : Config) (v : Slot)
    (index : Nat) : Memory.wf (s.writeSlot c v index) = true := by
  unfold State.writeSlot
  split <;> exact h

theorem wf_invariant : StepInvariant fun s => Memory.wf s = true where
  moves _ _ h := h
  assertReset _ h := h
  afterReset draws busData moves := Memory.wf_afterReset draws busData moves
  answer _ _ h := h
  tick _ h := h
  setHaz _ h := h
  writeSlot _ v index h := Memory.wf_writeSlot h machineConfig v index
  poke _ sp i v _ h := Memory.wf_poke h machineConfig sp i v
  complete _ _ _ _ hw h := hw.wf h
  failureEntry _ command kind _ h := Memory.wf_failureEntry h command kind

/-! ### The bounds, space by space -/

/-- No data space lists an element it does not have (20_memory R60, R66). -/
structure SpacesWithin (c : Config) (s : State) : Prop where
  pix : s.pix.within (spaceSize c .pix) = true
  runs : s.runs.within (spaceSize c .runs) = true
  freq : s.freq.within (spaceSize c .freq) = true
  tree : s.tree.within (spaceSize c .tree) = true
  clen : s.clen.within (spaceSize c .clen) = true
  cval : s.cval.within (spaceSize c .cval) = true
  bits : s.bits.within (8 * spaceSize c .bits) = true
  coef : s.coef.within (spaceSize c .coef) = true
  suba : s.suba.within (spaceSize c .suba) = true
  subh : s.subh.within (spaceSize c .subh) = true
  subv : s.subv.within (spaceSize c .subv) = true
  subd : s.subd.within (spaceSize c .subd) = true

theorem Memory.inBounds_iff {c : Config} {s : State} :
    Memory.inBounds c s = true ↔ SpacesWithin c s := by
  simp only [Memory.inBounds, Bool.and_eq_true]
  constructor
  · rintro ⟨⟨⟨⟨⟨⟨⟨⟨⟨⟨⟨pix, runs⟩, freq⟩, tree⟩, clen⟩, cval⟩, bits⟩, coef⟩, suba⟩, subh⟩, subv⟩, subd⟩
    exact ⟨pix, runs, freq, tree, clen, cval, bits, coef, suba, subh, subv, subd⟩
  · rintro ⟨pix, runs, freq, tree, clen, cval, bits, coef, suba, subh, subv, subd⟩
    exact ⟨⟨⟨⟨⟨⟨⟨⟨⟨⟨⟨pix, runs⟩, freq⟩, tree⟩, clen⟩, cval⟩, bits⟩, coef⟩, suba⟩, subh⟩, subv⟩, subd⟩

theorem bytesOfBits_mono {m n : Nat} (h : m ≤ n) : bytesOfBits m ≤ bytesOfBits n :=
  Nat.div_le_div_right (Nat.add_le_add_right h 7)

namespace SpacesWithin

variable {c : Config} {s t : State}

theorem putPix (h : SpacesWithin c s) {samples : List Byte} (fits : samples.length ≤ c.maxLen) :
    SpacesWithin c (s.putPix samples) :=
  { h with pix := Space.within_writeFrom h.pix (by rwa [Nat.zero_add]) }

theorem putRuns (h : SpacesWithin c s) {runs : List Run} (fits : runs.length ≤ c.maxLen) :
    SpacesWithin c (s.putRuns runs) :=
  { h with runs := Space.within_writeFrom h.runs (by rwa [Nat.zero_add, List.length_map]) }

theorem putFreq (h : SpacesWithin c s) (count : Nat → Nat) : SpacesWithin c (s.putFreq count) :=
  { h with freq := Space.within_writeFrom h.freq (by simp [spaceSize]) }

theorem putTree (h : SpacesWithin c s) {nodes : List Node} (fits : nodes.length ≤ 511) :
    SpacesWithin c (s.putTree nodes) :=
  { h with tree := Space.within_writeFrom h.tree (by rwa [Nat.zero_add, List.length_map]) }

theorem putCodes (h : SpacesWithin c s) (table : CodeTable) : SpacesWithin c (s.putCodes table) :=
  { h with
    clen := Space.within_writeFrom h.clen (by simp [spaceSize])
    cval := Space.within_writeFrom h.cval (by simp [spaceSize]) }

/-- The stream is padded to whole bytes, and `BITS` holds whole bytes (log 16). -/
theorem putBits (h : SpacesWithin c s) {stream : Code} (fits : stream.length ≤ c.maxBits) :
    SpacesWithin c (s.putBits stream) := by
  have bytes : bytesOfBits stream.length ≤ spaceSize c .bits := bytesOfBits_mono fits
  have padded : stream.length ≤ 8 * bytesOfBits stream.length := by unfold bytesOfBits; omega
  refine { h with bits := Space.within_writeFrom h.bits ?_ }
  simp only [bitElements, List.length_map, List.length_append, List.length_replicate]
  omega

theorem putCoef (h : SpacesWithin c s) {coefficients : List Flt}
    (fits : coefficients.length ≤ c.maxLen) : SpacesWithin c (s.putCoef coefficients) :=
  { h with coef := Space.within_writeFrom h.coef (by rwa [Nat.zero_add]) }

theorem putSubbands (h : SpacesWithin c s) {cells : List (Flt × Flt × Flt × Flt)}
    (fits : cells.length ≤ c.maxLen / 4) : SpacesWithin c (s.putSubbands cells) :=
  have part (f : Flt × Flt × Flt × Flt → Flt) : 0 + (cells.map f).length ≤ c.maxLen / 4 := by
    rwa [Nat.zero_add, List.length_map]
  { h with
    suba := Space.within_writeFrom h.suba (part _)
    subh := Space.within_writeFrom h.subh (part _)
    subv := Space.within_writeFrom h.subv (part _)
    subd := Space.within_writeFrom h.subd (part _) }

/-- A space that becomes unspecified lists nothing. -/
theorem failureEntry (h : SpacesWithin c s) (command : Option Instr) (kind : FailureKind) :
    SpacesWithin c (failureEntry command kind s) := by
  rcases command with _ | i
  · exact { h with }
  · obtain ⟨pix, runs, freq, tree, clen, cval, bits, coef, suba, subh, subv, subd⟩ := h
    cases i <;> constructor <;> simp [Machine.failureEntry, failureOutputs, *]

/-- A host write inside a space; byte `i` of `BITS` is stream bits `8i` to `8i + 7` (20_memory R64). -/
theorem poke (h : SpacesWithin c s) {sp : SpaceId} {i : Nat} (inside : i < spaceSize c sp)
    (v : Wide) : SpacesWithin c (s.poke c sp i v) := by
  cases sp with
  | pix => exact { h with pix := Space.within_write h.pix inside _ }
  | runs => exact { h with runs := Space.within_write h.runs inside _ }
  | freq => exact { h with freq := Space.within_write h.freq inside _ }
  | tree => exact { h with }
  | clen => exact { h with clen := Space.within_write h.clen inside _ }
  | cval => exact { h with cval := Space.within_write h.cval inside _ }
  | bits =>
    have byte : 8 * i + (byteBits (v.setWidth 8)).length ≤ 8 * spaceSize c .bits := by
      simp only [byteBits, bitElements, List.length_map, List.length_range]
      omega
    exact { h with bits := Space.within_writeFrom h.bits byte }
  | coef => exact { h with coef := Space.within_write h.coef inside _ }
  | suba => exact { h with suba := Space.within_write h.suba inside _ }
  | subh => exact { h with subh := Space.within_write h.subh inside _ }
  | subv => exact { h with subv := Space.within_write h.subv inside _ }
  | subd => exact { h with subd := Space.within_write h.subd inside _ }

theorem writeSlot (h : SpacesWithin c s) (v : Slot) (index : Nat) :
    SpacesWithin c (s.writeSlot c v index) := by
  unfold State.writeSlot
  split <;> exact { h with }

theorem afterReset (c : Config) (draws : Nat) (busData : Wide) (moves : List Move) :
    SpacesWithin c (State.afterReset draws busData moves) := by
  constructor <;> rfl

end SpacesWithin

/-! ### How much a command writes -/

@[simp] theorem State.length_samples (s : State) : s.samples.length = s.len :=
  Space.length_readUpTo _ _

theorem length_runsFrom_le (cur : Byte) (cnt : Nat) (samples : List Byte) :
    (runsFrom cur cnt samples).length ≤ samples.length + 1 := by
  induction samples generalizing cur cnt with
  | nil => simp [runsFrom]
  | cons x rest ih =>
    unfold runsFrom
    split
    · exact (ih cur (cnt + 1)).trans (by simp)
    · simpa using ih x 1

/-- There are no more runs than samples (40_rle R121). -/
theorem length_runsOf_le (samples : List Byte) : (runsOf samples).length ≤ samples.length := by
  cases samples with
  | nil => simp [runsOf]
  | cons x rest => exact length_runsFrom_le x 1 rest

/-- The runs expand to as many samples as their counts say (40_rle R126). -/
theorem length_expand (runs : List Run) : (expand runs).length = totalCount runs := by
  simp [expand, totalCount, List.length_flatMap]

/-- The length known from the table alone is the stream's (41_huffman_encoder R165). -/
theorem length_bitstream (table : CodeTable) (samples : List Byte) :
    (bitstream table samples).length = streamLength table samples := by
  simp [bitstream, streamLength, List.length_flatMap, codeOf]

/-- 256 leaves make at most 511 nodes (41_huffman_encoder R149). -/
theorem length_buildTree_le {count : Nat → Nat} (h : ∀ sym < 256, count sym < 2 ^ 32)
    (present : presentSymbols count ≠ []) : (buildTree count).length ≤ 511 := by
  have few := length_presentSymbols_le count
  rw [length_buildTree h present]
  split <;> omega

namespace SpacesWithin

variable {c : Config} {s t : State}

/-- The end of a command whose success keeps the bounds. -/
theorem conclude (h : SpacesWithin c s) {i : Instr} {r : Except FailureKind State}
    (ok : ∀ u, r = .ok u → SpacesWithin c u) (he : conclude i s r = .next t) : SpacesWithin c t := by
  rcases conclude_cases he with ⟨u, hu, rfl⟩ | ⟨kind, -, rfl⟩
  · exact { ok u hu with }
  · exact h.failureEntry (some i) kind

/-- A command that succeeds has checked that its outputs fit (20_memory R66, 60_exceptions R253). -/
theorem exec (h : SpacesWithin machineConfig s) {i : Instr} (he : exec i s = .next t) :
    SpacesWithin machineConfig t := by
  cases i with
  | rleenc =>
    refine h.conclude (fun u hu => ?_) he
    rcases rleenc_cases machineConfig s with ⟨-, e⟩ | ⟨-, -, e⟩ | ⟨hlen, -, e⟩ <;>
      cases e.symm.trans hu
    exact h.putRuns ((length_runsOf_le _).trans (s.length_samples.trans_le hlen))
  | rledec =>
    refine h.conclude (fun u hu => ?_) he
    rcases rledec_cases machineConfig s with ⟨-, e⟩ | ⟨-, -, -, e⟩ | ⟨hlen, -, total, e⟩ <;>
      cases e.symm.trans hu
    exact h.putPix ((length_expand _).trans_le (total.trans_le hlen))
  | hfreq =>
    refine h.conclude (fun u hu => ?_) he
    rcases hfreq_cases machineConfig s with ⟨-, e⟩ | ⟨-, e⟩ <;> cases e.symm.trans hu
    exact h.putFreq _
  | htree =>
    refine h.conclude (fun u hu => ?_) he
    rcases htree_cases s with ⟨-, e⟩ | ⟨present, e⟩ <;> cases e.symm.trans hu
    exact h.putTree (length_buildTree_le (fun sym _ => s.count_lt sym) present)
  | hcodes =>
    refine h.conclude (fun u hu => ?_) he
    rcases hcodes_cases s with ⟨-, e⟩ | ⟨-, e⟩ <;> cases e.symm.trans hu
    exact h.putCodes _
  | henc =>
    refine h.conclude (fun u hu => ?_) he
    rcases henc_cases machineConfig s with e | e | ⟨-, hbits, e⟩ <;> cases e.symm.trans hu
    have stored := (h.putCodes (sampleTable s.samples)).putBits ((length_bitstream _ _).trans_le hbits)
    exact { stored with freq := rfl, tree := rfl }
  | hdec =>
    refine h.conclude (fun u hu => ?_) he
    rcases hdec_cases machineConfig s with e | e | ⟨hlen, -, -, decoded, e⟩ <;>
      cases e.symm.trans hu
    exact h.putPix (decoded.trans_le hlen)
  | xfwdDct =>
    refine h.conclude (fun u hu => ?_) he
    rcases xfwdDct_cases machineConfig s with ⟨-, e⟩ | ⟨-, -, e⟩ | ⟨hlen, -, e⟩ <;>
      cases e.symm.trans hu
    exact h.putCoef (by simpa using hlen)
  | xinvDct =>
    refine h.conclude (fun u hu => ?_) he
    rcases xinvDct_cases machineConfig s with ⟨-, e⟩ | ⟨-, -, e⟩ | ⟨hlen, -, e⟩ <;>
      cases e.symm.trans hu
    exact { h.putPix (samples := (List.range s.len).map _) (by simpa using hlen) with }
  | xfwdHaar =>
    refine h.conclude (fun u hu => ?_) he
    rcases xfwdHaar_cases machineConfig s with ⟨-, e⟩ | ⟨-, -, e⟩ | ⟨hlen, -, e⟩ <;>
      cases e.symm.trans hu
    exact h.putSubbands (by simpa using Nat.div_le_div_right hlen)
  | xinvHaar =>
    refine h.conclude (fun u hu => ?_) he
    rcases xinvHaar_cases machineConfig s with ⟨-, e⟩ | ⟨-, -, e⟩ | ⟨hlen, -, e⟩ <;>
      cases e.symm.trans hu
    exact { h.putPix (samples := (List.range s.len).map _) (by simpa using hlen) with }

/-! ### Every step

`StepInvariant` asks that any list of output values be kept, and the bounds hold of those a command
computes only; so the moves are gone through here. -/

theorem engineStep (h : SpacesWithin machineConfig s)
    (he : engineStep Machine.exec s = .next t) : SpacesWithin machineConfig t := by
  rcases engineStep_cases he with ⟨-, rfl⟩ | ⟨-, i, -, hi⟩ | ⟨-, -, rfl⟩
  · exact h
  · exact h.exec hi
  · exact h.failureEntry none .illegalCommand

/-- A host read changes no space. -/
theorem hostReadReg (h : SpacesWithin c s) (index : Nat) :
    SpacesWithin c (hostReadReg c s index) := by
  rcases hostReadReg_cases c s index with ⟨-, -, -, e⟩ | e <;> rw [e] <;> exact { h with }

theorem hostReadSpace (h : SpacesWithin c s) (sp : SpaceId) (i : Nat) :
    SpacesWithin c (hostReadSpace c s sp i) := by
  rcases hostReadSpace_cases c s sp i with ⟨-, e⟩ | ⟨-, -, e⟩ | ⟨-, -, e⟩ <;> rw [e] <;>
    exact { h with }

theorem hostWriteReg (h : SpacesWithin c s) (index : Nat) (v : Slot) :
    SpacesWithin c (hostWriteReg c s index v) := by
  rcases hostWriteReg_cases c s index v with ⟨-, -, e⟩ | e <;> rw [e]
  · exact { h with }
  · exact h.writeSlot v index

theorem hostWriteSpace (h : SpacesWithin c s) (sp : SpaceId) (i : Nat) (v : Wide) :
    SpacesWithin c (hostWriteSpace c s sp i v) := by
  rcases hostWriteSpace_cases c s sp i v with ⟨-, e⟩ | ⟨inside, -, e⟩ <;> rw [e]
  · exact { h with }
  · exact h.poke inside v

theorem hostAction (h : SpacesWithin c s) {action : HostAction}
    (he : hostAction c s action = .next t) : SpacesWithin c t := by
  cases action with
  | readReg i => cases he; exact h.hostReadReg i
  | writeReg i v => cases he; exact h.hostWriteReg i v
  | readSpace sp i => cases he; exact h.hostReadSpace sp i
  | writeSpace sp i v => cases he; exact h.hostWriteSpace sp i v
  | busRead target offset size =>
    simp only [Machine.hostAction] at he
    split at he <;> cases he
    cases target with
    | registers => exact h.hostReadReg _
    | space sp => exact h.hostReadSpace sp _
  | busWrite target offset bytes =>
    simp only [Machine.hostAction] at he
    split at he <;> cases he
    cases target with
    | registers => exact h.hostWriteReg _ _
    | space sp => exact h.hostWriteSpace sp _ _

/-- While reset is asserted the host writes nothing (log 17). -/
theorem hostActionInReset (h : SpacesWithin c s) {action : HostAction}
    (he : hostActionInReset c s action = .next t) : SpacesWithin c t := by
  cases action with
  | busRead target offset size | busWrite target offset bytes =>
    simp only [Machine.hostActionInReset] at he
    split at he <;> cases he
    exact { h with }
  | _ => cases he; exact { h with }

theorem runMove (h : SpacesWithin machineConfig s) {m : Move}
    (he : runMove machineConfig Machine.exec s m = .next t) : SpacesWithin machineConfig t := by
  cases m with
  | engine => exact h.engineStep he
  | host action =>
    simp only [Machine.runMove, hostMove] at he
    split at he
    · exact h.hostActionInReset he
    · exact h.hostAction he
  | engineWithStatusWrite v =>
    refine engineStep ?_ he
    split <;> exact { h with }
  | assertReset => cases he; exact { h with }
  | releaseReset =>
    cases he
    unfold State.release
    split
    · exact afterReset machineConfig _ _ _
    · exact h

theorem step (h : SpacesWithin machineConfig s) (he : step s = .next t) :
    SpacesWithin machineConfig t := by
  cases hm : s.moves with
  | nil => rw [step_of_no_moves hm] at he; exact h.engineStep he
  | cons m rest =>
    rw [step_of_move hm] at he
    have taken : SpacesWithin machineConfig { s with moves := rest } := { h with }
    exact taken.runMove he

end SpacesWithin

/-- Settles O22: the form and the bounds are kept each by each part of a step. -/
theorem stepKeepsMemoryLaws : Obligations.StepKeepsMemoryLaws := by
  rintro s t ⟨form, bounds⟩ h
  exact ⟨wf_invariant.step form h, Memory.inBounds_iff.mpr ((Memory.inBounds_iff.mp bounds).step h)⟩

end Sys2Proof.Machine
end

section
/-! PROOF. The bytes of a bus: little-endian (20_memory R63), and one whole aligned element an access
(20_memory R65). -/

namespace Sys2Proof.Machine

/-! ### Byte order -/

theorem littleEndian_append (low high : List Byte) :
    littleEndian (low ++ high) = littleEndian low + 2 ^ (8 * low.length) * littleEndian high := by
  induction low with
  | nil => simp [littleEndian]
  | cons b rest ih =>
    simp only [littleEndian, List.cons_append, List.foldr_cons, List.length_cons] at ih ⊢
    rw [ih]
    ring

@[simp] theorem length_busBytes (n : Nat) (v : Wide) : (busBytes n v).length = n := by
  simp [busBytes]

/-- Byte `k` holds bits `8k + 7` to `8k` (20_memory R63). -/
theorem busByte_eq (v : Wide) (k : Nat) :
    v.extractLsb' (8 * k) 8 = BitVec.ofNat 8 (v.toNat / 2 ^ (8 * k)) := by
  rw [BitVec.extractLsb', Nat.shiftRight_eq_div_pow]

theorem busBytes_succ (n : Nat) (v : Wide) :
    busBytes (n + 1) v = busBytes n v ++ [BitVec.ofNat 8 (v.toNat / 2 ^ (8 * n))] := by
  rw [← busByte_eq]
  simp [busBytes, List.range_succ]

theorem littleEndian_busBytes (n : Nat) (v : Wide) :
    littleEndian (busBytes n v) = v.toNat % 2 ^ (8 * n) := by
  induction n with
  | zero => simp [busBytes, littleEndian, Nat.mod_one]
  | succ n ih =>
    have last (b : Byte) : littleEndian [b] = b.toNat := rfl
    rw [busBytes_succ, littleEndian_append, ih, length_busBytes, last, BitVec.toNat_ofNat,
      Nat.mul_succ, Nat.pow_add, Nat.mod_mul]

/-- Settles O17, by induction on the number of bytes. -/
theorem busIsLittleEndian : Obligations.BusIsLittleEndian := by
  intro n v
  refine ⟨length_busBytes n v, littleEndian_busBytes n v, fun k hk => ?_⟩
  rw [← busByte_eq]
  simp [busBytes, hk]

/-! ### Whole elements -/

theorem paddedSize_pos (c : Config) (target : BusTarget) : 0 < paddedSize c target := by
  have width := c.flt.width_range.1
  cases target with
  | registers => exact Nat.succ_pos 7
  | space sp => cases sp <;> simp only [paddedSize] <;> omega

theorem busIndex_of_partial {c : Config} {target : BusTarget} {offset size : Nat}
    (h : size ≠ paddedSize c target ∨ offset % paddedSize c target ≠ 0) :
    busIndex c target offset size = none :=
  if_neg fun whole => h.elim (· whole.1) (· whole.2)

theorem busIndex_of_whole (c : Config) (target : BusTarget) (index : Nat) :
    busIndex c target (index * paddedSize c target) (paddedSize c target) = some index := by
  rw [busIndex, if_pos ⟨rfl, Nat.mul_mod_left _ _⟩, Nat.mul_div_cancel _ (paddedSize_pos c target)]

/-- Settles O16: the access is refused or carried out as `busIndex` finds an element or none. -/
theorem busAccessIsWholeElementOrRefused : Obligations.BusAccessIsWholeElementOrRefused := by
  refine ⟨rfl, fun s target rest hr => ⟨fun offset size hm => ?_, fun offset bytes hm => ?_⟩⟩
  all_goals
    rw [step_of_host hr hm]
    constructor
  · intro broken
    simp only [hostAction, busIndex_of_partial broken]
  · rintro index rfl rfl
    simp only [hostAction, busIndex_of_whole]
  · intro broken
    simp only [hostAction, busIndex_of_partial broken]
  · rintro index whole rfl
    simp only [hostAction, whole, busIndex_of_whole]

end Sys2Proof.Machine
end

section
/-! PROOF. The bytes of `BITS` (20_memory R64): earlier bits higher, read and written. -/

namespace Sys2Proof.Machine

/-- Bit `k` of a sequence stands in its value with the later bits below it (00_scope R12). -/
theorem testBit_codeValue {code : Code} {k : Nat} (h : k < code.length) :
    (codeValue code).testBit (code.length - 1 - k) = code[k] := by
  have spelled : (bitsOf code.length (codeValue code))[k]'(by simpa using h) = code[k] := by
    simp only [bitsOf_codeValue]
  simpa [bitsOf] using spelled

/-- The eight stream bits of a byte. -/
def State.bitsCode (s : State) (j : Nat) : Code :=
  (List.range 8).map fun k => (s.bits.read (8 * j + k)).getLsbD 0

@[simp] theorem State.length_bitsCode (s : State) (j : Nat) : (s.bitsCode j).length = 8 := by
  simp [State.bitsCode]

/-- Eight bits fit a byte. -/
theorem State.toNat_bitsByte (s : State) (j : Nat) :
    (s.bitsByte j).toNat = codeValue (s.bitsCode j) := by
  have fits := codeValue_lt (s.bitsCode j)
  rw [State.length_bitsCode] at fits
  exact (BitVec.toNat_ofNat _ 8).trans (Nat.mod_eq_of_lt fits)

theorem State.getLsbD_bitsByte (s : State) (j : Nat) {m : Nat} (h : m < 8) :
    (s.bitsByte j).getLsbD (7 - m) = (s.bits.read (8 * j + m)).getLsbD 0 := by
  have bit := testBit_codeValue (code := s.bitsCode j) (k := m) (by simpa using h)
  simp only [State.length_bitsCode, ← State.toNat_bitsByte, BitVec.testBit_toNat] at bit
  simpa [State.bitsCode] using bit

theorem getD_byteBits (v : Byte) {m : Nat} (h : m < 8) :
    ((byteBits v).getD m 0).getLsbD 0 = v.getLsbD (7 - m) := by
  simp [byteBits, bitElements, h]

@[simp] theorem length_byteBits (v : Byte) : (byteBits v).length = 8 := by
  simp [byteBits, bitElements]

theorem State.getLsbD_poke_bits (c : Config) (s : State) (j : Nat) (v : Wide) (k : Nat) :
    ((s.poke c .bits j v).bits.read k).getLsbD 0 =
      if k / 8 = j then v.getLsbD (7 - k % 8) else (s.bits.read k).getLsbD 0 := by
  have written : (s.poke c .bits j v).bits = s.bits.writeFrom (8 * j) (byteBits (v.setWidth 8)) := rfl
  rw [written, Space.read_writeFrom, length_byteBits]
  by_cases inByte : k / 8 = j
  · have place : k - 8 * j = k % 8 := by omega
    rw [if_pos inByte, if_pos (by omega), place, getD_byteBits _ (by omega),
      BitVec.getLsbD_setWidth, decide_eq_true (by omega), Bool.true_and]
  · rw [if_neg inByte, if_neg (by omega)]

/-- Settles O15: stream bit `k` is bit `k mod 8` of its byte, counted from the top. -/
theorem bitsBytePacking : Obligations.BitsBytePacking := by
  intro s k
  refine ⟨?_, fun j v => s.getLsbD_poke_bits machineConfig j v k⟩
  rw [s.getLsbD_bitsByte _ (Nat.mod_lt k (by decide)), Nat.div_add_mod]

/-- Two bytes are the same when their bits are, named as stream bits. -/
theorem byte_ext {a b : Byte} (h : ∀ m < 8, a.getLsbD (7 - m) = b.getLsbD (7 - m)) : a = b := by
  refine BitVec.eq_of_getLsbD_eq fun i hi => ?_
  simpa [show 7 - (7 - i) = i by omega] using h (7 - i) (by omega)

theorem State.bitsByte_poke_same (c : Config) (s : State) (j : Nat) (v : Wide) :
    (s.poke c .bits j v).bitsByte j = v.setWidth 8 := by
  refine byte_ext fun m hm => ?_
  rw [State.getLsbD_bitsByte _ _ hm, State.getLsbD_poke_bits, if_pos (by omega),
    BitVec.getLsbD_setWidth, decide_eq_true (by omega), Bool.true_and]
  congr 1
  omega

theorem State.bitsByte_poke_ne (c : Config) (s : State) {j j' : Nat} (h : j' ≠ j) (v : Wide) :
    (s.poke c .bits j v).bitsByte j' = s.bitsByte j' := by
  refine byte_ext fun m hm => ?_
  rw [State.getLsbD_bitsByte _ _ hm, State.getLsbD_bitsByte _ _ hm, State.getLsbD_poke_bits,
    if_neg (by omega)]

end Sys2Proof.Machine
end

section
/-! PROOF. The host's accesses to the data spaces (20_memory R60 to R64). -/

namespace Sys2Proof.Machine

theorem hostReadSpace_of_inside {c : Config} {s : State} (idle : s.status.busy = false)
    {sp : SpaceId} {i : Nat} (inside : i < spaceSize c sp) :
    hostReadSpace c s sp i = s.answer (s.peek c sp i) := by
  rw [hostReadSpace, if_neg (by omega), idle]
  rfl

theorem hostWriteSpace_of_inside {c : Config} {s : State} (idle : s.status.busy = false)
    {sp : SpaceId} {i : Nat} (inside : i < spaceSize c sp) (v : Wide) :
    hostWriteSpace c s sp i v = s.poke c sp i v := by
  simp [hostWriteSpace, idle, inside]

/-! ### What a write changes -/

/-- A write to a space reads as before in every other space. -/
theorem State.peek_poke_of_ne_space (c : Config) (s : State) {sp sp' : SpaceId} (h : sp' ≠ sp)
    (i i' : Nat) (v : Wide) : (s.poke c sp i v).peek c sp' i' = s.peek c sp' i' := by
  cases sp <;> cases sp'
  case pix.pix | runs.runs | freq.freq | tree.tree | clen.clen | cval.cval | bits.bits | coef.coef |
      suba.suba | subh.subh | subv.subv | subd.subd => exact absurd rfl h
  all_goals rfl

theorem State.peek_poke_of_ne_index (c : Config) (s : State) (sp : SpaceId) {i i' : Nat}
    (h : i' ≠ i) (v : Wide) : (s.poke c sp i v).peek c sp i' = s.peek c sp i' := by
  cases sp with
  | bits => exact congrArg (BitVec.setWidth 256) (s.bitsByte_poke_ne c h v)
  | _ => simp [State.peek, State.poke, Space.readFlt, h]

/-- The element written is read back, cut to its width (log 15). -/
theorem State.peek_poke_same (s : State) {sp : SpaceId} (h : sp ≠ .tree) (i : Nat) (v : Wide) :
    ((s.poke machineConfig sp i v).peek machineConfig sp i).toNat =
      v.toNat % 2 ^ elementWidth machineConfig sp := by
  have low {width : Nat} (fits : width ≤ 256) :
      ((v.setWidth width).setWidth 256).toNat = v.toNat % 2 ^ width :=
    (BitVec.toNat_setWidth_of_le fits).trans (BitVec.toNat_setWidth _ _)
  cases sp with
  | tree => exact absurd rfl h
  | bits =>
    have byte := s.bitsByte_poke_same machineConfig i v
    exact (congrArg (fun b => (b.setWidth 256).toNat) byte).trans (low (by decide))
  | cval =>
    have cell := s.cval.read_write_same i v
    exact (congrArg BitVec.toNat cell).trans (Nat.mod_eq_of_lt v.isLt).symm
  | pix | runs | freq | clen =>
    simp only [State.peek, State.poke, Space.read_write_same, elementWidth]
    exact low (by decide)
  | coef | suba | subh | subv | subd =>
    simp only [State.peek, State.poke, machineConfig_flt, readFlt_of_binary64, pattern_of_binary64,
      Space.read_write_same, elementWidth, binary64_width]
    exact low (by decide)

/-- The host reads alike in two states with the same `BUSY` and the same element. -/
theorem busData_hostReadSpace_congr {c : Config} {s t : State} {sp : SpaceId} {i : Nat}
    (idle : s.status.busy = false) (idle' : t.status.busy = false)
    (same : t.peek c sp i = s.peek c sp i) :
    (hostReadSpace c t sp i).busData = (hostReadSpace c s sp i).busData := by
  by_cases inside : i < spaceSize c sp
  · rw [hostReadSpace_of_inside idle inside, hostReadSpace_of_inside idle' inside]
    exact same
  · have outside : spaceSize c sp ≤ i := by omega
    rw [hostReadSpace, hostReadSpace, if_pos outside, if_pos outside]
    rfl

/-- Settles O14: a read answers the element, and a write changes the element it names alone. -/
theorem spaceWriteThenRead : Obligations.SpaceWriteThenRead := by
  intro s idle
  refine ⟨fun sp i inside => ?_, fun sp i v writable inside => ?_,
    fun hr sp i v rest => ⟨step_of_host hr, step_of_host hr⟩⟩
  · rw [hostReadSpace_of_inside idle inside]
    refine congrArg s.answer ?_
    cases sp with
    | bits => exact (BitVec.ofNat_toNat _ _).symm.trans (congrArg _ (s.toNat_bitsByte i))
    | cval => exact (BitVec.setWidth_eq _).symm.trans (BitVec.ofNat_toNat _ _).symm
    | coef | suba | subh | subv | subd =>
      exact (congrArg (BitVec.setWidth 256) (binary64_pattern _)).trans (BitVec.ofNat_toNat _ _).symm
    | _ => exact (BitVec.ofNat_toNat _ _).symm
  · have idle' : (s.poke machineConfig sp i v).status.busy = false := by
      rcases s.poke_status machineConfig sp i v with e | e <;> rw [e] <;> exact idle
    have others (sp' : SpaceId) (i' : Nat) (ne : (sp', i') ≠ (sp, i)) :
        (s.poke machineConfig sp i v).peek machineConfig sp' i' = s.peek machineConfig sp' i' := by
      by_cases hsp : sp' = sp
      · subst hsp
        exact s.peek_poke_of_ne_index machineConfig sp' (fun e => ne (by rw [e])) v
      · exact s.peek_poke_of_ne_space machineConfig hsp i i' v
    rw [hostWriteSpace_of_inside idle inside]
    dsimp only
    rw [hostReadSpace_of_inside idle' inside]
    refine ⟨s.peek_poke_same writable i v,
      fun sp' i' ne => ⟨others sp' i' ne, busData_hostReadSpace_congr idle idle' (others sp' i' ne)⟩, ?_⟩
    cases sp with
    | tree => exact absurd rfl writable
    | _ => rfl

end Sys2Proof.Machine
end

section
/-! PROOF. The opcode map of 30_encoding R93, from the field triple up: the checks of R94 pass the commands'
triples alone, and cutting a word into its fields loses nothing. -/

namespace Sys2Proof

/-- The three checks of 30_encoding R94 hold of exactly the eleven commands' triples. -/
theorem Fields.wellFormed_iff {f : Fields} : f.wellFormed = true ↔ ∃ i : Instr, f = i.fields := by
  constructor
  · intro checks
    obtain ⟨rsv, kind, op⟩ := f
    obtain ⟨⟨rfl, listed⟩, allowed⟩ : (rsv = 0 ∧ op ∈ listedOps) ∧
        (kind = false ∨ op = 0x20 ∨ op = 0x21) := by
      simpa [Fields.wellFormed, Fields.reservedClear, Fields.opListed, Fields.kindAllowed,
        or_assoc] using checks
    cases kind with
    | false =>
      simp only [listedOps, List.mem_cons, List.not_mem_nil, or_false] at listed
      rcases listed with rfl | rfl | rfl | rfl | rfl | rfl | rfl | rfl | rfl
      exacts [⟨.rleenc, rfl⟩, ⟨.rledec, rfl⟩, ⟨.hfreq, rfl⟩, ⟨.htree, rfl⟩, ⟨.hcodes, rfl⟩,
        ⟨.henc, rfl⟩, ⟨.hdec, rfl⟩, ⟨.xfwdDct, rfl⟩, ⟨.xinvDct, rfl⟩]
    | true =>
      rcases allowed with false_eq | rfl | rfl
      exacts [absurd false_eq (by decide), ⟨.xfwdHaar, rfl⟩, ⟨.xinvHaar, rfl⟩]
  · rintro ⟨i, rfl⟩
    cases i <;> decide

/-- The decoder answers a command only for a triple that passes the checks (30_encoding R94). -/
theorem wellFormed_of_decodeFields {f : Fields} {i : Instr} (h : decodeFields f = .ok i) :
    f.wellFormed = true := by
  unfold decodeFields at h
  by_cases reserved : f.reservedClear = false
  · rw [if_pos reserved] at h; cases h
  by_cases unlisted : f.opListed = false
  · rw [if_neg reserved, if_pos unlisted] at h; cases h
  by_cases kind : f.kindAllowed = false
  · rw [if_neg reserved, if_neg unlisted, if_pos kind] at h; cases h
  simp only [Bool.not_eq_false] at reserved unlisted kind
  rw [Fields.wellFormed, reserved, unlisted, kind]
  rfl

@[simp] theorem decodeFields_fields (i : Instr) : decodeFields i.fields = .ok i := by
  cases i <;> rfl

theorem decodeFields_eq_ok_iff {f : Fields} {i : Instr} : decodeFields f = .ok i ↔ f = i.fields := by
  constructor
  · intro h
    obtain ⟨j, rfl⟩ := Fields.wellFormed_iff.mp (wellFormed_of_decodeFields h)
    cases (decodeFields_fields j).symm.trans h
    rfl
  · rintro rfl
    exact decodeFields_fields i

/-- The three fields are the whole word (30_encoding R91). -/
@[simp] theorem Fields.join_split (w : CommandWord) : (Fields.split w).join = w := by
  refine BitVec.eq_of_getLsbD_eq fun k hk => ?_
  rw [Fields.join, Fields.split]
  rcases Nat.lt_trichotomy k 8 with op | rfl | rsv
  · rw [Machine.getLsbD_append_low _ _ (by omega), Machine.getLsbD_append_low _ _ op]
    simp [op]
  · rw [Machine.getLsbD_append_low _ _ (by omega), Machine.getLsbD_append_high _ _ (by omega)]
    simp
  · rw [Machine.getLsbD_append_high _ _ (by omega), BitVec.getLsbD_extractLsb',
      decide_eq_true (by omega), Bool.true_and]
    congr 1
    omega

/-- Each field is read from where it was put (30_encoding R91). -/
@[simp] theorem Fields.split_join (f : Fields) : Fields.split f.join = f := by
  obtain ⟨rsv, kind, op⟩ := f
  have rsv_eq : (rsv ++ (BitVec.ofBool kind ++ op)).extractLsb' 9 23 = rsv := by
    refine Machine.extractLsb'_eq_of_getLsbD fun k _ => ?_
    rw [Machine.getLsbD_append_high _ _ (by omega)]
    congr 1
    omega
  have kind_eq : (rsv ++ (BitVec.ofBool kind ++ op)).getLsbD 8 = kind := by
    rw [Machine.getLsbD_append_low _ _ (by omega), Machine.getLsbD_append_high _ _ (by omega)]
    simp
  have op_eq : (rsv ++ (BitVec.ofBool kind ++ op)).extractLsb' 0 8 = op := by
    refine Machine.extractLsb'_eq_of_getLsbD fun k hk => ?_
    rw [Nat.zero_add, Machine.getLsbD_append_low _ _ (by omega),
      Machine.getLsbD_append_low _ _ hk]
  rw [Fields.split, Fields.join, rsv_eq, kind_eq, op_eq]

theorem decode_eq_ok_iff {w : CommandWord} {i : Instr} : decode w = .ok i ↔ w = encode i := by
  rw [decode, decodeFields_eq_ok_iff, encode]
  constructor
  · intro h
    rw [← h, Fields.join_split]
  · rintro rfl
    exact Fields.split_join _

/-- The rows of the opcode map (30_encoding R93). -/
def opcodeMap : List (CommandWord × Instr) :=
  [(0x00000001, .rleenc), (0x00000002, .rledec), (0x00000010, .hfreq), (0x00000011, .htree),
    (0x00000012, .hcodes), (0x00000013, .henc), (0x00000014, .hdec), (0x00000020, .xfwdDct),
    (0x00000021, .xinvDct), (0x00000120, .xfwdHaar), (0x00000121, .xinvHaar)]

/-- The map has one row for each command, with the encoder's word. -/
theorem mem_opcodeMap_iff {w : CommandWord} {i : Instr} : (w, i) ∈ opcodeMap ↔ w = encode i := by
  constructor
  · intro row
    have written : ∀ r ∈ opcodeMap, r.1 = encode r.2 := by decide
    exact written (w, i) row
  · rintro rfl
    cases i <;> decide

/-- Settles O2: both the map's rows and the decoder's answers are the pairs the encoder writes. -/
theorem decodeAgreesWithEncode : Obligations.DecodeAgreesWithEncode :=
  fun _ _ => ⟨decode_eq_ok_iff.trans mem_opcodeMap_iff.symm, decode_eq_ok_iff⟩

/-- Settles O1: each word is the one the encoder writes for its row. -/
theorem commandWordsDecode : Obligations.CommandWordsDecode :=
  ⟨Laws.Encoding.rleenc.2, Laws.Encoding.rledec.2, Laws.Encoding.hfreq.2, Laws.Encoding.htree.2,
    Laws.Encoding.hcodes.2, Laws.Encoding.henc.2, Laws.Encoding.hdec.2, Laws.Encoding.xfwdDct.2,
    Laws.Encoding.xinvDct.2, Laws.Encoding.xfwdHaar.2, Laws.Encoding.xinvHaar.2⟩

end Sys2Proof
end

section
/-! PROOF. The engine's step: which step runs the latched command, and how every command ends
(30_encoding R96; 60_exceptions R257, R270). -/

namespace Sys2Proof.Machine

theorem State.canStep_of_busy {s : State} (busy : s.status.busy = true) (hr : s.inReset = false) :
    s.canStep = true := by rw [State.canStep, busy, hr]; rfl

theorem State.canStep_of_idle {s : State} (idle : s.status.busy = false) : s.canStep = false := by
  rw [State.canStep, idle]; rfl

/-- With no move scheduled the next event is the engine's step (log 1). -/
theorem nextEvent_of_no_moves (c : Config) (run : Runner) {s : State} (h : s.moves = []) :
    nextEvent c run s = engineStep run s := by rw [nextEvent, h]

theorem nextEvent_of_engine (c : Config) (run : Runner) {s : State} {rest : List Move}
    (h : s.moves = .engine :: rest) :
    nextEvent c run s = engineStep run { s with moves := rest } := by rw [nextEvent, h]; rfl

/-- Settles O3: `step` and `stepWith` are the next event of two runners, and the engine's step runs
either. -/
theorem stepRunsTheDecodedCommand : Obligations.StepRunsTheDecodedCommand := by
  refine ⟨fun s i busy hr hd => ?_, fun s idle _ => ?_, execWith_machineConfig⟩
  · have ready : s.canStep = true := s.canStep_of_busy busy hr
    have atOnce (c : Config) (run : Runner) (hm : s.moves = []) : nextEvent c run s = run i s :=
      (nextEvent_of_no_moves c run hm).trans (engineStep_of_command ready hd)
    have asMove (c : Config) (run : Runner) {rest : List Move} (hm : s.moves = .engine :: rest) :
        nextEvent c run s = run i { s with moves := rest } :=
      (nextEvent_of_engine c run hm).trans (engineStep_of_command ready hd)
    exact ⟨fun hm => ⟨atOnce machineConfig exec hm, fun c => atOnce c (execWith c) hm⟩,
      fun _ hm => ⟨asMove machineConfig exec hm, fun c => asMove c (execWith c) hm⟩⟩
  · have waits : s.canStep = false := s.canStep_of_idle idle
    exact ⟨fun hm => (nextEvent_of_no_moves machineConfig exec hm).trans (engineStep_of_idle waits),
      fun _ hm => (nextEvent_of_engine machineConfig exec hm).trans (engineStep_of_idle waits)⟩

/-- How a command ends: `BUSY` cleared, `DONE` set, and no failure recorded or one with a code of
60_exceptions R250. -/
structure Ended (s t : State) : Prop where
  busy : t.status.busy = false
  done : t.status.done = true
  outcome : (t.status.err = s.status.err ∧ t.errcode = s.errcode) ∨
    (t.status.err = true ∧ 1 ≤ t.errcode.toNat ∧ t.errcode.toNat ≤ 6)

theorem FailureKind.code_range (kind : FailureKind) : 1 ≤ kind.code.toNat ∧ kind.code.toNat ≤ 6 := by
  cases kind <;> decide

theorem CommandWrites.ended {s u : State} {i : Instr} (h : CommandWrites s i u) :
    Ended s u.complete where
  busy := rfl
  done := rfl
  outcome := .inl ⟨congrArg (·.err) h.status_eq, h.errcode_eq⟩

theorem ended_failureEntry (command : Option Instr) (kind : FailureKind) (s : State) :
    Ended s (failureEntry command kind s) where
  busy := rfl
  done := rfl
  outcome := .inr ⟨rfl, kind.code_range⟩

theorem exec_ended {i : Instr} {s t : State} (h : exec i s = .next t) : Ended s t := by
  rcases exec_cases h with ⟨u, hw, rfl⟩ | ⟨kind, rfl⟩
  · exact hw.ended
  · exact ended_failureEntry (some i) kind s

/-- An illegal word has no row, so its failure is all control (60_exceptions R254). -/
theorem sameControl_illegalCommand (s : State) : SameControl s (illegalCommand s) := by
  constructor <;> rfl

/-- The engine's step always answers a next state. -/
theorem engineStep_answers_next (s : State) : ∃ t, engineStep exec s = .next t := by
  cases hc : s.canStep with
  | false => exact ⟨s, engineStep_of_idle hc⟩
  | true =>
    cases hd : decode s.lcmd with
    | ok i => exact engineStep_of_command hc hd ▸ exec_answers_next i s
    | error e => exact ⟨_, engineStep_of_illegal hc hd⟩

/-- Whatever word is latched, a step of an engine that can step ends it (30_encoding R96). -/
theorem engineStep_ended {s t : State} (hc : s.canStep = true) (h : engineStep exec s = .next t) :
    Ended s t ∧ SameControl s t := by
  rcases engineStep_cases h with ⟨waits, -⟩ | ⟨-, i, -, hi⟩ | ⟨-, -, rfl⟩
  · exact absurd (hc.symm.trans waits) (by decide)
  · exact ⟨exec_ended hi, (exec_frame hi).1⟩
  · exact ⟨ended_failureEntry none .illegalCommand s, sameControl_illegalCommand s⟩

/-- Settles O19: the engine's step answers a state in which the command has ended. -/
theorem everyBusyStepCompletes : Obligations.EveryBusyStepCompletes := by
  intro s busy hr hm
  obtain ⟨t, ht⟩ := engineStep_answers_next s
  obtain ⟨ended, control⟩ := engineStep_ended (s.canStep_of_busy busy hr) ht
  exact ⟨t, (step_of_no_moves hm).trans ht, ended.busy, ended.done, control.haz, ended.outcome,
    control.w, control.h, control.blk, control.q, control.ie, control.lcmd,
    control.inReset.trans hr, control.busData, control.moves.trans hm⟩

end Sys2Proof.Machine
end

section
/-! PROOF. The run-length commands (40_rle): `RLEENC` writes the maximal runs of the buffer, `RLEDEC`
expands a list of runs, and the one undoes the other. -/

namespace Sys2Proof.Machine

/-! ### Expanding a list of runs -/

@[simp] theorem expand_nil : expand [] = [] := rfl

@[simp] theorem expand_cons (r : Run) (runs : List Run) :
    expand (r :: runs) = List.replicate r.count.toNat r.value ++ expand runs := rfl

theorem expand_append (xs ys : List Run) : expand (xs ++ ys) = expand xs ++ expand ys :=
  List.flatMap_append

/-- A run's value stands `count` times from the sum of the counts before it on (40_rle R126). -/
theorem getElem?_expand {runs : List Run} {j p : Nat} (hj : j < runs.length)
    (hp : p < runs[j].count.toNat) :
    (expand runs)[totalCount (runs.take j) + p]? = some runs[j].value := by
  have cut : expand runs = expand (runs.take j) ++
      (List.replicate runs[j].count.toNat runs[j].value ++ expand (runs.drop (j + 1))) := by
    rw [← expand_cons, List.getElem_cons_drop, ← expand_append, List.take_append_drop]
  rw [cut, ← length_expand, List.getElem?_append_right (Nat.le_add_right _ _),
    Nat.add_sub_cancel_left, List.getElem?_append_left (by rwa [List.length_replicate]),
    List.getElem?_replicate_of_lt hp]

/-! ### The runs of a buffer -/

/-- The RunList of some samples (40_rle R121, R122): it expands to them, neighbours differ and no run
is empty. -/
structure MaximalRuns (runs : List Run) (samples : List Byte) : Prop where
  expands : expand runs = samples
  neighbours_differ : runs.IsChain fun a b => a.value ≠ b.value
  nonempty : ∀ r ∈ runs, 1 ≤ r.count.toNat

/-- The scan's first run is of the sample it stands on. -/
theorem runsFrom_eq_cons (cur : Byte) (cnt : Nat) (samples : List Byte) :
    ∃ (count : BitVec 32) (rest : List Run), runsFrom cur cnt samples = ⟨cur, count⟩ :: rest := by
  induction samples generalizing cnt with
  | nil => exact ⟨_, _, rfl⟩
  | cons x rest ih =>
    unfold runsFrom
    split
    · exact ih (cnt + 1)
    · exact ⟨_, _, rfl⟩

/-- A scan that stands `cnt` samples into a run of `cur` gives the runs of those and of the rest; no
count leaves its 32 bits when all samples together do not (40_rle R124). -/
theorem maximalRuns_runsFrom (cur : Byte) (cnt : Nat) (samples : List Byte) (started : 1 ≤ cnt)
    (fits : cnt + samples.length < 2 ^ 32) :
    MaximalRuns (runsFrom cur cnt samples) (List.replicate cnt cur ++ samples) := by
  have stored : (BitVec.ofNat 32 cnt).toNat = cnt := by rw [BitVec.toNat_ofNat]; omega
  induction samples generalizing cur cnt with
  | nil => constructor <;> simp [runsFrom, stored, started]
  | cons x rest ih =>
    rw [List.length_cons] at fits
    have one : (BitVec.ofNat 32 1).toNat = 1 := rfl
    unfold runsFrom
    split
    case isTrue same =>
      subst same
      have longer := ih x (cnt + 1) (by omega) (by omega) (by rw [BitVec.toNat_ofNat]; omega)
      rwa [List.replicate_succ', List.append_assoc, List.singleton_append] at longer
    case isFalse differs =>
      have tail := ih x 1 (by omega) (by omega) one
      obtain ⟨count, others, first⟩ := runsFrom_eq_cons x 1 rest
      constructor
      case expands => rw [expand_cons, tail.expands, stored]; rfl
      case neighbours_differ =>
        have chain := tail.neighbours_differ
        rw [first] at chain ⊢
        exact chain.cons_cons (Ne.symm differs)
      case nonempty => exact List.forall_mem_cons.mpr ⟨stored.symm ▸ started, tail.nonempty⟩

/-- The first sample seeds the first run (40_rle R121). -/
theorem maximalRuns_runsOf {samples : List Byte} (fits : samples.length < 2 ^ 32) :
    MaximalRuns (runsOf samples) samples := by
  cases samples with
  | nil => exact ⟨rfl, List.isChain_nil, by simp [runsOf]⟩
  | cons x rest =>
    rw [List.length_cons] at fits
    exact maximalRuns_runsFrom x 1 rest (Nat.le_refl 1) (by omega)

theorem MaximalRuns.totalCount_eq {runs : List Run} {samples : List Byte}
    (h : MaximalRuns runs samples) : totalCount runs = samples.length := by
  rw [← length_expand, h.expands]

/-! ### The two commands -/

/-- `RLEENC` on a non-empty buffer that fits. -/
theorem exec_rleenc_eq {s : State} (nonempty : 0 < s.len) (fits : s.len ≤ 2 ^ 32 - 1) :
    exec .rleenc s = .next (s.putRuns (runsOf s.samples)).complete := by
  rw [exec_rleenc]
  rcases rleenc_cases machineConfig s with ⟨exceeds, -⟩ | ⟨-, empty, -⟩ | ⟨-, -, e⟩
  · exact absurd exceeds (Nat.not_lt.mpr fits)
  · exact absurd empty nonempty.ne'
  · rw [e, conclude_ok]

/-- `RLEDEC` when the counts sum to the buffer's size; `NRUNS` has 32 bits, so it fits by itself. -/
theorem exec_rledec_eq {s : State} (fits : s.len ≤ 2 ^ 32 - 1)
    (total : totalCount s.runList = s.len) :
    exec .rledec s = .next (s.putPix (expand s.runList)).complete := by
  rw [exec_rledec]
  rcases rledec_cases machineConfig s with ⟨exceeds, -⟩ | ⟨-, -, mismatch, -⟩ | ⟨-, -, -, e⟩
  · have few : s.nruns.toNat ≤ 2 ^ 32 - 1 := Nat.le_sub_one_of_lt s.nruns.isLt
    exact absurd exceeds (not_or.mpr ⟨Nat.not_lt.mpr fits, Nat.not_lt.mpr few⟩)
  · exact absurd total mismatch
  · rw [e, conclude_ok]

/-- The runs of a buffer that fits. -/
theorem State.maximalRuns {s : State} (fits : s.len ≤ 2 ^ 32 - 1) :
    MaximalRuns (runsOf s.samples) s.samples :=
  maximalRuns_runsOf (by rw [s.length_samples]; omega)

/-- There are no more runs than samples, so `NRUNS` holds their number. -/
theorem State.length_runsOf_samples_le (s : State) : (runsOf s.samples).length ≤ s.len :=
  (length_runsOf_le _).trans_eq s.length_samples

/-- Settles O32, by `maximalRuns_runsFrom`: what holds of the scan at every sample. -/
theorem rleencEncodesTheBuffer : Obligations.RleencEncodesTheBuffer := by
  intro s nonempty fits
  have runs := s.maximalRuns fits
  have total : totalCount (runsOf s.samples) = s.len := runs.totalCount_eq.trans s.length_samples
  have some_run : runsOf s.samples ≠ [] := by
    intro none
    rw [none] at total
    exact absurd total nonempty.ne
  refine ⟨s.runs.writeFrom 0 ((runsOf s.samples).map Run.pack), runsOf s.samples,
    exec_rleenc_eq nonempty fits, fun j hj => ?_, fun j hj => ?_, runs.expands, total,
    List.isChain_iff_getElem.mp runs.neighbours_differ, runs.nonempty,
    List.length_pos_of_ne_nil some_run, s.length_runsOf_samples_le⟩
  · rw [Space.read_writeFrom_zero _ _ (by rwa [List.length_map]), List.getElem_map, Run.pack]
  · exact Space.read_writeFrom_beyond _ _ (by rwa [List.length_map])

/-! ### The runs that are stored -/

theorem Run.toNat_count_unpack (v : BitVec 40) : (Run.unpack v).count.toNat = v.toNat % 2 ^ 32 := by
  simp [Run.unpack]

theorem Run.toNat_value_unpack (v : BitVec 40) : (Run.unpack v).value.toNat = v.toNat / 2 ^ 32 := by
  have := v.isLt
  rw [Run.unpack, BitVec.extractLsb'_toNat, Nat.shiftRight_eq_div_pow]
  omega

@[simp] theorem State.length_runList (s : State) : s.runList.length = s.nruns.toNat := by
  simp [State.runList]

theorem State.getElem_runList (s : State) {j : Nat} (hj : j < s.runList.length) :
    s.runList[j] = Run.unpack (s.runs.read j) := by
  simp [State.runList]

/-- The sum of the first `j` counts, read from `RUNS`. -/
theorem State.totalCount_take_runList (s : State) {j : Nat} (hj : j ≤ s.nruns.toNat) :
    totalCount (s.runList.take j) =
      ((List.range j).map fun k => (s.runs.read k).toNat % 2 ^ 32).sum := by
  rw [totalCount, State.runList, Space.readUpTo, ← List.map_take, ← List.map_take, List.take_range,
    Nat.min_eq_left hj, List.map_map, List.map_map]
  exact congrArg List.sum (List.map_congr_left fun k _ => Run.toNat_count_unpack _)

/-- Settles O33: the samples written are `expand` of the stored runs, read by `getElem?_expand`. -/
theorem rledecExpandsTheRuns : Obligations.RledecExpandsTheRuns := by
  intro s fits count before sum
  have all : s.runList.take s.nruns.toNat = s.runList := List.take_of_length_le s.length_runList.le
  have total : totalCount s.runList = s.len := by
    rw [← sum, ← all]
    exact s.totalCount_take_runList (Nat.le_refl _)
  refine ⟨s.pix.writeFrom 0 (expand s.runList), exec_rledec_eq fits total, fun j hj p hp => ?_,
    fun i hi => Space.read_writeFrom_beyond _ _ (by rwa [length_expand, total])⟩
  have hj' : j < s.runList.length := by rwa [s.length_runList]
  have written := getElem?_expand (p := p) hj'
    (by rwa [s.getElem_runList hj', Run.toNat_count_unpack])
  rw [s.totalCount_take_runList hj.le] at written
  obtain ⟨inside, value⟩ := List.getElem?_eq_some_iff.mp written
  rw [Space.read_writeFrom_zero _ _ inside, value, s.getElem_runList hj', Run.toNat_value_unpack]

/-! ### The round trip -/

/-- The runs put in `RUNS` are read back from it. -/
theorem State.runList_putRuns (s : State) {list : List Run} (fits : list.length < 2 ^ 32) :
    (s.putRuns list).runList = list := by
  have number : (s.putRuns list).nruns.toNat = (list.map Run.pack).length := by
    rw [State.putRuns_nruns, BitVec.toNat_ofNat, List.length_map, Nat.mod_eq_of_lt fits]
  rw [State.runList, number, State.putRuns_runs, Space.readUpTo_writeFrom, List.map_map]
  simp [Function.comp_def]

/-- The list of runs depends on `NRUNS` and on the elements of `RUNS` below it. -/
theorem State.runList_congr {s t : State} (number : t.nruns = s.nruns)
    (same : ∀ j < s.nruns.toNat, t.runs.read j = s.runs.read j) : t.runList = s.runList := by
  rw [State.runList, State.runList, number, Space.readUpTo_congr same]

/-- Settles O34: the stored runs are those of the buffer, and they expand to it. -/
theorem rleRoundTrip : Obligations.RleRoundTrip := by
  intro s nonempty fits
  have runs := s.maximalRuns fits
  have few : (runsOf s.samples).length < 2 ^ 32 := by have := s.length_runsOf_samples_le; omega
  refine ⟨_, exec_rleenc_eq nonempty fits, rfl, fun u hw hh hn same => ?_⟩
  have list : u.runList = runsOf s.samples :=
    (State.runList_congr hn same).trans (s.runList_putRuns few)
  have size : u.len = s.len := by rw [State.len, hw, hh]; rfl
  have total : totalCount u.runList = u.len := by
    rw [list, runs.totalCount_eq, s.length_samples, size]
  refine ⟨_, exec_rledec_eq (size.trans_le fits) total, rfl, rfl, fun i hi => ?_⟩
  have inside : i < s.samples.length := by rwa [s.length_samples]
  rw [State.complete_pix, State.putPix_pix, list, runs.expands,
    Space.read_writeFrom_zero _ _ inside]
  exact Space.getElem_readUpTo _ _ _ _

end Sys2Proof.Machine
end

section
/-! PROOF. The order of a pool (41_huffman_encoder R151): `least` answers the node that comes before
every other. -/

namespace Sys2Proof.Machine

/-- `a` comes before `b` (41_huffman_encoder R151), for the nodes of a list or of a state alike. -/
def Before (node : Nat → Node) (a b : Nat) : Prop :=
  (node a).freq.toNat < (node b).freq.toNat ∨ ((node a).freq = (node b).freq ∧ a < b)

theorem comesBefore_iff (nodes : List Node) (a b : Nat) :
    comesBefore nodes a b = true ↔ Before (nodeAt nodes) a b := by
  simp [comesBefore, Before, freqAt_eq, BitVec.toNat_inj]

theorem Before.trans {node : Nat → Node} {a b c : Nat} (hab : Before node a b)
    (hbc : Before node b c) : Before node a c := by
  simp only [Before, ← BitVec.toNat_inj] at *
  omega

theorem before_of_not_before {node : Nat → Node} {a b : Nat} (h : ¬ Before node a b) (ne : a ≠ b) :
    Before node b a := by
  simp only [Before, ← BitVec.toNat_inj] at *
  omega

/-- The scan's answer comes before every other index it has seen. -/
theorem leastFrom_before (nodes : List Node) (best : Nat) (pool : List Nat) {k : Nat}
    (hk : k ∈ best :: pool) :
    k = leastFrom nodes best pool ∨ Before (nodeAt nodes) (leastFrom nodes best pool) k := by
  induction pool generalizing best k with
  | nil => exact .inl (List.mem_singleton.mp hk)
  | cons j rest ih =>
    have passes {kept lost : Nat} (wins : Before (nodeAt nodes) kept lost) :
        Before (nodeAt nodes) (leastFrom nodes kept rest) lost := by
      rcases ih kept List.mem_cons_self with same | first
      · rwa [← same]
      · exact first.trans wins
    rw [leastFrom]
    rcases List.mem_cons.mp hk with rfl | hk
    · split
      case isTrue wins => exact .inr (passes ((comesBefore_iff nodes j k).mp wins))
      case isFalse => exact ih k List.mem_cons_self
    · split
      case isTrue => exact ih j hk
      case isFalse loses =>
        rcases List.mem_cons.mp hk with rfl | hk
        · by_cases same : k = best
          · exact ih best (same ▸ List.mem_cons_self)
          · exact .inr (passes (before_of_not_before
              (mt (comesBefore_iff nodes k best).mpr loses) same))
        · exact ih best (List.mem_cons_of_mem best hk)

theorem least_before (nodes : List Node) {pool : List Nat} {k : Nat} (hk : k ∈ pool)
    (ne : k ≠ least nodes pool) : Before (nodeAt nodes) (least nodes pool) k := by
  cases pool with
  | nil => exact absurd hk List.not_mem_nil
  | cons j rest => exact (leastFrom_before nodes j rest hk).resolve_left ne

/-- Settles O36. -/
theorem leastComesBeforeAll : Obligations.LeastComesBeforeAll := by
  intro nodes pool nonempty
  refine ⟨least_mem nodes nonempty, fun k hk ne => ?_⟩
  simpa only [freqAt_eq, BitVec.toNat_inj, Before] using least_before nodes hk ne

end Sys2Proof.Machine
end

section
/-! PROOF. `HFREQ` (41_huffman_encoder R141 to R143): the counts it writes and their sum. -/

namespace Sys2Proof.Machine

/-! ### Counting -/

theorem occurrences_le_length (samples : List Byte) (sym : Nat) :
    occurrences samples sym ≤ samples.length := List.countP_le_length

theorem occurrences_pos_iff {samples : List Byte} {sym : Nat} :
    0 < occurrences samples sym ↔ ∃ x ∈ samples, x.toNat = sym := by
  simp [occurrences, List.countP_pos_iff]

/-- Every sample is one of the 256 symbols, so the counts sum to the number of samples. -/
theorem sum_occurrences (samples : List Byte) :
    ((List.range 256).map (occurrences samples)).sum = samples.length := by
  have count_eq : ∀ sym, occurrences samples sym = (samples.map BitVec.toNat).count sym := fun sym => by
    rw [List.count, List.countP_map]; rfl
  have values : ∀ a ∈ (↑(samples.map BitVec.toNat) : Multiset Nat), a ∈ Finset.range 256 := by
    intro a ha
    obtain ⟨x, -, rfl⟩ := List.mem_map.mp (Multiset.mem_coe.mp ha)
    exact Finset.mem_range.mpr x.isLt
  rw [← List.sum_toFinset _ List.nodup_range, List.toFinset_range]
  simpa [count_eq] using Multiset.sum_count_eq_card values

/-- What does not count does not add to a sum. -/
theorem sum_map_filter_pos (f : Nat → Nat) (l : List Nat) :
    ((l.filter fun k => decide (0 < f k)).map f).sum = (l.map f).sum := by
  induction l with
  | nil => rfl
  | cons k rest ih =>
    by_cases h : 0 < f k
    · simp [h, ih]
    · have zero : f k = 0 := by omega
      simp [zero, ih]

/-- The counts of the present symbols sum to those of all 256. -/
theorem sum_presentSymbols (count : Nat → Nat) :
    ((presentSymbols count).map count).sum = ((List.range 256).map count).sum := by
  unfold presentSymbols symbols
  exact sum_map_filter_pos count _

/-- Each present symbol takes one of the counted at least. -/
theorem length_presentSymbols_le_sum (count : Nat → Nat) :
    (presentSymbols count).length ≤ ((List.range 256).map count).sum := by
  have one : ∀ n ∈ (presentSymbols count).map count, 1 ≤ n :=
    List.forall_mem_map.mpr fun _ hs => (mem_presentSymbols.mp hs).2
  simpa [sum_presentSymbols] using List.length_le_sum_of_one_le _ one

/-- The present symbols of the table in `FREQ`. -/
theorem State.presentSymbols_count (s : State) :
    presentSymbols s.count = (List.range 256).filter fun sym => s.freq.read sym != 0 := by
  unfold presentSymbols symbols
  refine List.filter_congr fun sym _ => ?_
  rw [Bool.eq_iff_iff, decide_eq_true_iff, bne_iff_ne, ne_eq, ← BitVec.toNat_inj]
  exact Nat.pos_iff_ne_zero

/-! ### The command -/

theorem exec_hfreq_eq {s : State} (fits : s.len ≤ 2 ^ 32 - 1) :
    exec .hfreq s = .next (s.putFreq (occurrences s.samples)).complete := by
  rw [exec_hfreq]
  rcases hfreq_cases machineConfig s with ⟨exceeds, -⟩ | ⟨-, e⟩
  · exact absurd exceeds (Nat.not_lt.mpr fits)
  · rw [e, conclude_ok]

@[simp] theorem getElem_symbols {sym : Nat} (h : sym < symbols.length) : symbols[sym] = sym :=
  (List.getElem_eq_iff h).mpr (getElem?_symbols (by simpa using h))

/-- A space written for all 256 symbols holds each symbol's value at its place. -/
theorem Space.read_writeFrom_symbols {width : Nat} (sp : Space width) (f : Nat → BitVec width)
    {sym : Nat} (hs : sym < 256) : (sp.writeFrom 0 (symbols.map f)).read sym = f sym := by
  rw [Space.read_writeFrom_zero _ _ (by simpa using hs), List.getElem_map, getElem_symbols]

theorem State.count_putFreq (s : State) {count : Nat → Nat} {sym : Nat} (hs : sym < 256)
    (small : count sym < 2 ^ 32) : (s.putFreq count).count sym = count sym := by
  rw [State.count, State.putFreq_freq, Space.read_writeFrom_symbols _ _ hs, BitVec.toNat_ofNat,
    Nat.mod_eq_of_lt small]

/-- No count of a buffer that fits leaves its 32 bits. -/
theorem State.occurrences_lt {s : State} (fits : s.len ≤ 2 ^ 32 - 1) (sym : Nat) :
    occurrences s.samples sym < 2 ^ 32 := by
  have := occurrences_le_length s.samples sym
  rw [s.length_samples] at this
  omega

theorem State.count_afterHfreq {s : State} (fits : s.len ≤ 2 ^ 32 - 1) {sym : Nat} (hs : sym < 256) :
    (s.putFreq (occurrences s.samples)).count sym = occurrences s.samples sym :=
  s.count_putFreq hs (State.occurrences_lt fits sym)

/-- Settles O35: `FREQ` holds `occurrences`, which `sum_occurrences` adds up. -/
theorem hfreqCountsTheSymbols : Obligations.HfreqCountsTheSymbols := by
  intro s fits
  have sum : ((List.range 256).map (s.putFreq (occurrences s.samples)).count).sum = s.len := by
    rw [List.map_congr_left fun sym hs => State.count_afterHfreq fits (List.mem_range.mp hs),
      sum_occurrences, s.length_samples]
  refine ⟨(s.putFreq (occurrences s.samples)).freq, exec_hfreq_eq fits, fun sym hs => ?_, sum,
    le_min ?_ ?_⟩
  · refine (State.count_afterHfreq fits hs).trans ?_
    rw [occurrences, List.countP_eq_length_filter, State.samples, Space.readUpTo,
      List.filter_map, List.length_map]
    rfl
  · rw [← State.presentSymbols_count, ← sum]
    exact length_presentSymbols_le_sum _
  · exact (List.length_filter_le _ _).trans_eq List.length_range

end Sys2Proof.Machine
end

section
/-! PROOF. `HTREE` (41_huffman_encoder R145 to R152): each pass of its loop joins the two nodes of the pool
that come first, and the tree it stores has the present symbols for leaves and the total for the
root's frequency. -/

namespace Sys2Proof.Machine

/-! ### The pool of an internal node -/

/-- The pool from which node `k` is made: the nodes before it that are no child of a node before it
(41_huffman_encoder R148). -/
def InPool (node : Nat → Node) (k j : Nat) : Prop := j < k ∧ ∀ p < k, j ∉ childrenOf (node p)

/-- Node `k` merges the two nodes of its pool that come first, the first of them as the left child
(41_huffman_encoder R148, R151). -/
structure MergesLeast (node : Nat → Node) (k : Nat) : Prop where
  left_mem : InPool node k (node k).left.toNat
  right_mem : InPool node k (node k).right.toNat
  distinct : (node k).left.toNat ≠ (node k).right.toNat
  left_first : ∀ j, InPool node k j → j ≠ (node k).left.toNat → Before node (node k).left.toNat j
  right_first : ∀ j, InPool node k j → j ≠ (node k).left.toNat → j ≠ (node k).right.toNat →
    Before node (node k).right.toNat j

theorem InPool.congr {node node' : Nat → Node} {k : Nat} (same : ∀ j < k, node' j = node j) (j : Nat) :
    InPool node' k j ↔ InPool node k j :=
  and_congr_right fun _ => forall₂_congr fun p hp => by rw [same p hp]

/-- What node `k` merges depends on the nodes up to it alone. -/
theorem MergesLeast.congr {node node' : Nat → Node} {k : Nat} (h : MergesLeast node k)
    (same : ∀ j ≤ k, node' j = node j) : MergesLeast node' k := by
  have pool := InPool.congr fun j hj => same j (le_of_lt hj)
  have before {a b : Nat} (ha : InPool node k a) (hb : InPool node k b) (hab : Before node a b) :
      Before node' a b := by rwa [Before, same a ha.1.le, same b hb.1.le]
  obtain ⟨left_mem, right_mem, distinct, left_first, right_first⟩ := h
  constructor <;> simp only [same k le_rfl, pool]
  case left_mem => exact left_mem
  case right_mem => exact right_mem
  case distinct => exact distinct
  case left_first => exact fun j hj ne => before left_mem hj (left_first j hj ne)
  case right_first => exact fun j hj ne ne' => before right_mem hj (right_first j hj ne ne')

namespace Forest

variable {leaves nodes : List Node} {pool : List Nat}

theorem nodup (f : Forest leaves nodes pool) : (allChildren nodes ++ pool).Nodup :=
  f.one_parent.nodup_iff.mpr List.nodup_range

/-- The loop's pool is the pool of the node it makes next. -/
theorem inPool_iff (f : Forest leaves nodes pool) (j : Nat) :
    InPool (nodeAt nodes) nodes.length j ↔ j ∈ pool := by
  constructor
  · intro ⟨hj, childless⟩
    rcases List.mem_append.mp (f.one_parent.symm.subset (List.mem_range.mpr hj)) with h | h
    · obtain ⟨p, hp, hc⟩ := List.mem_flatMap.mp h
      exact absurd hc (childless p (List.mem_range.mp hp))
    · exact h
  · intro hj
    refine ⟨f.mem_lt hj, fun p hp hc => ?_⟩
    exact List.disjoint_of_nodup_append f.nodup
      (List.mem_flatMap.mpr ⟨p, List.mem_range.mpr hp, hc⟩) hj

/-- One pass removes the least of the pool and then the least of the rest. -/
theorem merge_mergesLeast (f : Forest leaves nodes pool) {a b : Nat} (ha : a = least nodes pool)
    (hb : b = least nodes (pool.erase a)) (amem : a ∈ pool) (bmem : b ∈ pool.erase a)
    (hsize : nodes.length < 511) :
    MergesLeast (nodeAt (nodes ++ [mergedNode nodes a b])) nodes.length := by
  have nodup : pool.Nodup := f.nodup.of_append_right
  have old : ∀ j < nodes.length, nodeAt (nodes ++ [mergedNode nodes a b]) j = nodeAt nodes j :=
    fun j hj => nodeAt_append_left hj _
  have bmem' := List.mem_of_mem_erase bmem
  have left : (mergedNode nodes a b).left.toNat = a :=
    toNat_ofNat_index ((f.mem_lt amem).trans hsize)
  have right : (mergedNode nodes a b).right.toNat = b :=
    toNat_ofNat_index ((f.mem_lt bmem').trans hsize)
  have before {i j : Nat} (hi : i ∈ pool) (hj : j ∈ pool) (h : Before (nodeAt nodes) i j) :
      Before (nodeAt (nodes ++ [mergedNode nodes a b])) i j := by
    rwa [Before, old i (f.mem_lt hi), old j (f.mem_lt hj)]
  constructor <;> simp only [InPool.congr old, f.inPool_iff, nodeAt_append_last, left, right]
  case left_mem => exact amem
  case right_mem => exact bmem'
  case distinct => exact (nodup.mem_erase_iff.mp bmem).1.symm
  case left_first =>
    exact fun j hj ne => before amem hj (ha ▸ least_before nodes hj (ha ▸ ne))
  case right_first =>
    intro j hj ne ne'
    have rest : j ∈ pool.erase a := nodup.mem_erase_iff.mpr ⟨ne, hj⟩
    exact before bmem' hj (hb ▸ least_before nodes rest (hb ▸ ne'))

end Forest

/-- The loop keeps what its passes have merged, and each pass merges the two least. -/
theorem mergeLoop_mergesLeast {leaves : List Node}
    (htotal : (leaves.map fun n => n.freq.toNat).sum < 2 ^ 40) {passes : Nat} {nodes : List Node}
    {pool : List Nat} (f : Forest leaves nodes pool) (hpool : pool.length = passes + 1)
    (hsize : nodes.length + passes ≤ 511)
    (sofar : ∀ k, leaves.length ≤ k → k < nodes.length → MergesLeast (nodeAt nodes) k) :
    ∀ k, leaves.length ≤ k → k < nodes.length + passes →
      MergesLeast (nodeAt (mergeLoop passes nodes pool)) k := by
  induction passes generalizing nodes pool with
  | zero => exact sofar
  | succ passes ih =>
    have amem : least nodes pool ∈ pool := least_mem nodes (List.ne_nil_of_length_pos (by omega))
    have hlen := List.length_erase_of_mem amem
    have bmem : least nodes (pool.erase (least nodes pool)) ∈ pool.erase (least nodes pool) :=
      least_mem nodes (List.ne_nil_of_length_pos (by omega))
    have hlen' := List.length_erase_of_mem bmem
    intro k first last
    refine ih (f.merge amem bmem (by omega) htotal)
      (by rw [List.length_append, List.length_singleton]; omega)
      (by rw [List.length_append, List.length_singleton]; omega) (fun k first last => ?_) k first
      (by rw [List.length_append, List.length_singleton]; omega)
    rw [List.length_append, List.length_singleton] at last
    rcases Nat.lt_or_ge k nodes.length with h | h
    · exact (sofar k first h).congr fun j hj => nodeAt_append_left (hj.trans_lt h) _
    · rw [show k = nodes.length by omega]
      exact f.merge_mergesLeast rfl rfl amem bmem (by omega)

/-! ### The tree that is built -/

section

variable {count : Nat → Nat} (h : ∀ sym < 256, count sym < 2 ^ 32)

include h

theorem buildTree_mergesLeast (h2 : 2 ≤ (presentSymbols count).length) {k : Nat}
    (first : (presentSymbols count).length ≤ k) (last : k < 2 * (presentSymbols count).length - 1) :
    MergesLeast (nodeAt (buildTree count)) k := by
  have few := length_presentSymbols_le count
  have hlen : (leavesOf count).length = (presentSymbols count).length := List.length_map _
  rw [buildTree_of_two h2]
  exact mergeLoop_mergesLeast (leavesOf_total_lt h) (forest_of_leaves (leafList_leavesOf h))
    (by rw [List.length_range]; omega) (by omega) (fun k hk hk' => by omega) k (by omega) (by omega)

/-- The first nodes are the leaves (41_huffman_encoder R147). -/
theorem nodeAt_buildTree_leaf {k : Nat} (hk : k < (presentSymbols count).length) :
    nodeAt (buildTree count) k = leafNode count (presentSymbols count)[k] := by
  have hlen : (leavesOf count).length = (presentSymbols count).length := List.length_map _
  have leaf : nodeAt (leavesOf count) k = leafNode count (presentSymbols count)[k] := by
    simp [nodeAt, hk]
  rw [← leaf]
  by_cases h1 : (presentSymbols count).length = 1
  · obtain ⟨n, hn, e⟩ := buildTree_of_one h1
    rw [hn, e, show k = 0 by omega]
    rfl
  · obtain ⟨-, root, f⟩ := buildTree_forest h (by omega)
    exact f.nodeAt_leaf (by omega)

theorem sum_leavesOf : ((leavesOf count).map fun n => n.freq.toNat).sum =
    ((List.range 256).map count).sum := by
  rw [← sum_presentSymbols, List.map_map]
  refine congrArg List.sum (List.map_congr_left fun sym hs => ?_)
  exact leafNode_freq_toNat (h sym (mem_presentSymbols.mp hs).1)

/-- The root's frequency is the total (41_huffman_encoder R152). -/
theorem freq_root_buildTree (present : presentSymbols count ≠ []) :
    (nodeAt (buildTree count) ((buildTree count).length - 1)).freq.toNat =
      ((List.range 256).map count).sum := by
  have pos := List.length_pos_of_ne_nil present
  rw [← sum_leavesOf h]
  by_cases h1 : (presentSymbols count).length = 1
  · obtain ⟨leaf, hleaf, e⟩ := buildTree_of_one h1
    rw [hleaf, e]
    simp [oneSymbolRoot]
  · obtain ⟨-, root, f⟩ := buildTree_forest h (by omega)
    have last := f.root_last (leafList_leavesOf h)
    rw [show (buildTree count).length - 1 = root by omega, ← f.total]
    simp [freqAt]

end

/-! ### The command -/

theorem exec_htree_eq {s : State} (present : presentSymbols s.count ≠ []) :
    exec .htree s = .next (s.putTree (buildTree s.count)).complete := by
  rw [exec_htree]
  rcases htree_cases s with ⟨none, -⟩ | ⟨-, e⟩
  · exact absurd none present
  · rw [e, conclude_ok]

/-- `HTREE` on a table with no present symbol. -/
theorem exec_htree_empty {s : State} (none : presentSymbols s.count = []) :
    exec .htree s = .next (failureEntry (some .htree) .emptyInput s) := by
  rw [exec_htree]
  rcases htree_cases s with ⟨-, e⟩ | ⟨present, -⟩
  · rw [e, conclude_error]
  · exact absurd none present

theorem State.buildTree_count_lawful {s : State} (present : presentSymbols s.count ≠ []) :
    TreeLaws (nodeAt (buildTree s.count)) (buildTree s.count).length
      ((buildTree s.count).length - 1) :=
  buildTree_lawful (fun sym _ => s.count_lt sym) present

/-- Settles O37: `buildTree_lawful` and what `buildTree` makes of the leaves and the root, read back
from `TREE`. -/
theorem htreeBuildsALawfulTree : Obligations.HtreeBuildsALawfulTree := by
  intro s ⟨sym, hs, occurs⟩ present size
  have list : presentSymbols s.count = present := s.presentSymbols_count
  have nonempty : presentSymbols s.count ≠ [] := by
    rw [list]
    exact List.ne_nil_of_mem (List.mem_filter.mpr ⟨List.mem_range.mpr hs, by simpa using occurs⟩)
  have small : ∀ sym < 256, s.count sym < 2 ^ 32 := fun sym _ => s.count_lt sym
  have length : (buildTree s.count).length = size := by
    rw [length_buildTree small nonempty, list]
  have laws := State.buildTree_count_lawful nonempty
  have pos : 0 < present.length := List.length_pos_of_ne_nil (list ▸ nonempty)
  have node : ∀ k < size, (s.putTree (buildTree s.count)).node k = nodeAt (buildTree s.count) k :=
    fun k hk => s.node_putTree (hk.trans_eq length.symm)
  rw [length] at laws
  have root := laws.root_last
  have leaves_le : present.length ≤ size := by simp only [size]; split <;> omega
  refine ⟨(s.putTree (buildTree s.count)).tree, ?_, laws.congr node, fun k hk => ?_, ?_,
    fun k hk => Space.read_writeFrom_beyond _ _ (by rwa [List.length_map, length])⟩
  · rw [exec_htree_eq nonempty, ← length]
    rfl
  · have leaf : (s.putTree (buildTree s.count)).node k = leafNode s.count present[k] := by
      rw [node k (by omega), nodeAt_buildTree_leaf small (by rwa [list])]
      simp only [list]
    have hsym : present[k] < 256 :=
      List.mem_range.mp (List.mem_of_mem_filter (List.getElem_mem hk))
    exact ⟨(congrArg (·.sym.toNat) leaf).trans (leafNode_sym_toNat _ hsym),
      (congrArg (·.freq.toNat) leaf).trans (leafNode_freq_toNat (s.count_lt _))⟩
  · have total := freq_root_buildTree small nonempty
    rw [length, ← node (size - 1) (by omega)] at total
    exact total

/-- Settles O38: `buildTree_mergesLeast`, read back from `TREE`. -/
theorem htreeMergesTheTwoLeast : Obligations.HtreeMergesTheTwoLeast := by
  intro s n two
  have number : (presentSymbols s.count).length = n := by rw [s.presentSymbols_count]
  have small : ∀ sym < 256, s.count sym < 2 ^ 32 := fun sym _ => s.count_lt sym
  have nonempty : presentSymbols s.count ≠ [] := List.ne_nil_of_length_pos (by omega)
  have length : (buildTree s.count).length = 2 * n - 1 := by
    rw [length_buildTree small nonempty, number, if_neg (by omega)]
  have few := length_presentSymbols_le s.count
  refine ⟨_, exec_htree_eq nonempty, ?_, fun k first last => ?_⟩
  · rw [State.complete_nnodes, State.putTree_nnodes, BitVec.toNat_ofNat, length]
    omega
  · have merged := (buildTree_mergesLeast small (k := k) (by omega) (by omega) (by omega)).congr
      (node' := (s.putTree (buildTree s.count)).complete.node)
      fun j hj => s.node_putTree (by omega)
    exact ⟨merged.left_mem, merged.right_mem, merged.distinct, merged.left_first, merged.right_first⟩

/-- The list of present symbols when there is one. -/
theorem presentSymbols_eq_singleton {count : Nat → Nat} {sym : Nat}
    (only : ∀ a, a ∈ presentSymbols count ↔ a = sym) : presentSymbols count = [sym] := by
  have nodup : (presentSymbols count).Nodup := (presentSymbols_pairwise count).imp ne_of_lt
  refine List.perm_singleton.mp
    ((List.perm_ext_iff_of_nodup nodup (List.nodup_singleton sym)).mpr fun a => ?_)
  rw [only, List.mem_singleton]

/-- Settles O39: the table with one present symbol, by `buildTree_of_one`. -/
theorem htreeOneSymbolTree : Obligations.HtreeOneSymbolTree := by
  intro s sym hs only
  have list : presentSymbols s.count = [sym] := presentSymbols_eq_singleton fun a => by
    rw [s.presentSymbols_count, List.mem_filter, List.mem_range, bne_iff_ne]
    exact ⟨fun ⟨ha, occurs⟩ => (only a ha).mp occurs,
      fun same => ⟨same ▸ hs, (only a (same ▸ hs)).mpr same⟩⟩
  have tree : buildTree s.count = [leafNode s.count sym, oneSymbolRoot (leafNode s.count sym)] := by
    simp [buildTree, list]
  have freq : BitVec.ofNat 40 (s.count sym) = (s.freq.read sym).setWidth 40 :=
    BitVec.ofNat_toNat 40 _
  have node (k : Nat) (hk : k < 2) := s.node_putTree (nodes := buildTree s.count) (k := k)
    (by rwa [tree])
  refine ⟨_, exec_htree_eq (by simp [list]), ?_, ?_, (node 0 (by decide)).trans ?_,
    (node 1 (by decide)).trans ?_⟩
  · simp [tree]
  · simp [tree]
  · rw [tree, ← freq]; rfl
  · rw [tree, ← freq]; rfl

end Sys2Proof.Machine
end

section
/-! PROOF. The paths of a lawful tree (41_huffman_encoder R152, R155, R158): every node has one, of a bounded
length, and no path to a leaf goes on to another leaf. -/

namespace Sys2Proof.Machine

variable {node : Nat → Node} {size root : Nat}

/-! ### Paths in any tree -/

/-- The node that some steps lead to. -/
def descend (node : Nat → Node) (root : Nat) (code : Code) : Nat :=
  code.foldl (fun k step => if step then (node k).right.toNat else (node k).left.toNat) root

/-- The steps determine the node. -/
theorem Path.descend_eq {k : Nat} {code : Code} (h : Path node root k code) :
    descend node root code = k := by
  have step (code : Code) (b : Bool) : descend node root (code ++ [b]) =
      if b then (node (descend node root code)).right.toNat
      else (node (descend node root code)).left.toNat := List.foldl_concat _ _ _ _
  induction h with
  | here => rfl
  | left _ _ _ ih => rw [step, ih]; rfl
  | right _ _ _ ih => rw [step, ih]; rfl

/-- A path of one step ends in a child of the root. -/
theorem Path.of_length_one {k : Nat} {code : Code} (h : Path node root k code)
    (one : code.length = 1) : (code = [false] ∧ k = (node root).left.toNat) ∨
      (code = [true] ∧ (node root).right ≠ nilIndex ∧ k = (node root).right.toNat) := by
  have from_root {p : Nat} {front : Code} {b : Bool} (h : Path node root p front)
      (one : (front ++ [b]).length = 1) : front = [] ∧ p = root := by
    rw [List.length_append, List.length_singleton] at one
    have empty := List.eq_nil_of_length_eq_zero (by omega : front.length = 0)
    exact ⟨empty, by rw [← h.descend_eq, empty]; rfl⟩
  cases h with
  | here => exact absurd one (by decide)
  | left h _ _ =>
    obtain ⟨rfl, rfl⟩ := from_root h one
    exact .inl ⟨rfl, rfl⟩
  | right h _ child =>
    obtain ⟨rfl, rfl⟩ := from_root h one
    exact .inr ⟨rfl, child, rfl⟩

theorem mem_childrenOf_iff {n : Node} {c : Nat} : c ∈ childrenOf n ↔ n.leaf = false ∧
    ((n.left ≠ nilIndex ∧ c = n.left.toNat) ∨ (n.right ≠ nilIndex ∧ c = n.right.toNat)) := by
  unfold childrenOf
  split
  · next leaf => simp [leaf]
  · next internal => split <;> split <;> simp_all

theorem left_mem_childrenOf {n : Node} (internal : n.leaf = false) (child : n.left ≠ nilIndex) :
    n.left.toNat ∈ childrenOf n := mem_childrenOf_iff.mpr ⟨internal, .inl ⟨child, rfl⟩⟩

theorem right_mem_childrenOf {n : Node} (internal : n.leaf = false) (child : n.right ≠ nilIndex) :
    n.right.toNat ∈ childrenOf n := mem_childrenOf_iff.mpr ⟨internal, .inr ⟨child, rfl⟩⟩

/-- A path goes on to every child of its node. -/
theorem Path.exists_step {p c : Nat} {code : Code} (h : Path node root p code)
    (child : c ∈ childrenOf (node p)) : ∃ step, Path node root c (code ++ [step]) := by
  obtain ⟨internal, ⟨exist, rfl⟩ | ⟨exist, rfl⟩⟩ := mem_childrenOf_iff.mp child
  · exact ⟨false, h.left internal exist⟩
  · exact ⟨true, h.right internal exist⟩

/-- Whatever a path begins with leads to an internal node, unless it is the whole path. -/
theorem Path.internal_of_begins {k : Nat} {code : Code} (h : Path node root k code) {front : Code}
    (begins : front <+: code) (ne : front ≠ code) :
    ∃ p, Path node root p front ∧ (node p).leaf = false := by
  have step {p : Nat} {code : Code} {b : Bool} (h : Path node root p code)
      (internal : (node p).leaf = false) (begins : front <+: code ++ [b])
      (ne : front ≠ code ++ [b])
      (ih : front <+: code → front ≠ code → ∃ p, Path node root p front ∧ (node p).leaf = false) :
      ∃ p, Path node root p front ∧ (node p).leaf = false := by
    have shorter : front <+: code := (List.prefix_concat_iff.mp begins).resolve_left ne
    by_cases same : front = code
    · exact ⟨p, same ▸ h, internal⟩
    · exact ih shorter same
  induction h with
  | here => exact absurd (List.prefix_nil.mp begins) ne
  | left h internal _ ih => exact step h internal begins ne ih
  | right h internal _ ih => exact step h internal begins ne ih

/-- The path to a leaf goes on to no other leaf (41_huffman_encoder R157). -/
theorem Path.eq_of_begins {j k : Nat} {front code : Code} (hj : Path node root j front)
    (leaf : (node j).leaf = true) (hk : Path node root k code) (begins : front <+: code) : j = k := by
  by_cases same : front = code
  · rw [← hj.descend_eq, same, hk.descend_eq]
  · obtain ⟨p, hp, internal⟩ := hk.internal_of_begins begins same
    rw [← hj.descend_eq, hp.descend_eq, internal] at leaf
    exact absurd leaf Bool.false_ne_true

/-! ### Paths in a lawful tree -/

namespace TreeLaws

theorem leafCount_le_root (laws : TreeLaws node size root) : leafCount size ≤ root := by
  have := laws.size_legal
  have := laws.root_last
  unfold leafCount
  omega

theorem leaf_iff (laws : TreeLaws node size root) {k : Nat} (hk : k < size) :
    (node k).leaf = true ↔ k < leafCount size := by
  rw [laws.leaves_first k hk, decide_eq_true_iff]

/-- Each step descends to a smaller index. -/
theorem path_add_length_le (laws : TreeLaws node size root) {k : Nat} {code : Code}
    (h : Path node root k code) : k + code.length ≤ root := by
  have last := laws.root_last
  have step {p c : Nat} {code : Code} {b : Bool} (ih : p + code.length ≤ root)
      (child : c ∈ childrenOf (node p)) : c + (code ++ [b]).length ≤ root := by
    have := laws.child_smaller p (by omega) c child
    rw [List.length_append, List.length_singleton]
    omega
  induction h with
  | here => rfl
  | left _ internal child ih => exact step ih (left_mem_childrenOf internal child)
  | right _ internal child ih => exact step ih (right_mem_childrenOf internal child)

theorem path_lt (laws : TreeLaws node size root) {k : Nat} {code : Code}
    (h : Path node root k code) : k < size := by
  have := laws.path_add_length_le h
  have := laws.root_last
  omega

/-- Every node has a path, since every node but the root is a child (41_huffman_encoder R155). -/
theorem exists_path (laws : TreeLaws node size root) {k : Nat} (hk : k ≤ root) :
    ∃ code, Path node root k code := by
  induction hd : root - k using Nat.strong_induction_on generalizing k with
  | _ d ih =>
    rcases Nat.eq_or_lt_of_le hk with rfl | below
    · exact ⟨[], .here⟩
    · obtain ⟨p, hp, hc⟩ := List.mem_flatMap.mp
        (laws.one_parent.symm.subset (List.mem_range.mpr below))
      have hp := List.mem_range.mp hp
      have smaller := laws.child_smaller p hp k hc
      have last := laws.root_last
      obtain ⟨code, path⟩ := ih (root - p) (by omega) (k := p) (by omega) rfl
      obtain ⟨step, path⟩ := path.exists_step hc
      exact ⟨_, path⟩

/-- A leaf's path passes internal nodes alone, of which there are `size - leafCount size`
(41_huffman_encoder R158). -/
theorem leaf_path_length (laws : TreeLaws node size root) {k : Nat} {code : Code}
    (h : Path node root k code) (leaf : (node k).leaf = true) :
    1 ≤ code.length ∧ code.length ≤ size - leafCount size := by
  have hk := (laws.leaf_iff (laws.path_lt h)).mp leaf
  have inner := laws.leafCount_le_root
  have last := laws.root_last
  have through {p : Nat} {front : Code} {b : Bool} (path : Path node root p front)
      (internal : (node p).leaf = false) :
      1 ≤ (front ++ [b]).length ∧ (front ++ [b]).length ≤ size - leafCount size := by
    have above : ¬ p < leafCount size := by
      rw [← laws.leaf_iff (laws.path_lt path), internal]
      exact Bool.false_ne_true
    have := laws.path_add_length_le path
    rw [List.length_append, List.length_singleton]
    omega
  cases h with
  | here => omega
  | left path internal _ => exact through path internal
  | right path internal _ => exact through path internal

theorem leaf_path_length_le (laws : TreeLaws node size root) {k : Nat} {code : Code}
    (h : Path node root k code) (leaf : (node k).leaf = true) : code.length ≤ 255 := by
  have bound := (laws.leaf_path_length h leaf).2
  have legal := laws.size_legal
  unfold leafCount at bound
  omega

/-- A symbol names its leaf. -/
theorem eq_of_sym_eq (laws : TreeLaws node size root) {j k : Nat} (hj : j < leafCount size)
    (hk : k < leafCount size) (same : (node j).sym.toNat = (node k).sym.toNat) : j = k := by
  rcases Nat.lt_trichotomy j k with h | h | h
  · exact absurd same (laws.symbols_ascend j k h hk).ne
  · exact h
  · exact absurd same (laws.symbols_ascend k j h hj).ne'

end TreeLaws

end Sys2Proof.Machine
end

section
/-! PROOF. The code table of a lawful tree (41_huffman_encoder R154 to R159): the descent finds the leaves
with their paths, and the table stores these. -/

namespace Sys2Proof.Machine

variable {node : Nat → Node} {size root : Nat}

/-! ### The descent -/

/-- Whatever the descent finds is a leaf with its path. -/
theorem leafCodes_sound {depth k : Nat} {path : Code} (h : Path node root k path)
    {e : Nat × Code} (he : e ∈ leafCodes node depth k path) :
    ∃ j, Path node root j e.2 ∧ (node j).leaf = true ∧ e.1 = (node j).sym.toNat := by
  induction depth generalizing k path with
  | zero => exact absurd he List.not_mem_nil
  | succ depth ih =>
    simp only [leafCodes] at he
    split at he
    case isTrue leaf =>
      obtain rfl := List.mem_singleton.mp he
      exact ⟨k, h, leaf, rfl⟩
    case isFalse notLeaf =>
      have internal := Bool.eq_false_of_not_eq_true notLeaf
      rcases List.mem_append.mp he with he | he <;> split at he
      case inl.isTrue | inr.isTrue => exact absurd he List.not_mem_nil
      case inl.isFalse child => exact ih (h.left internal child) he
      case inr.isFalse child => exact ih (h.right internal child) he

theorem leafCodes_of_leaf {depth k : Nat} (leaf : (node k).leaf = true) (path : Code) :
    leafCodes node (depth + 1) k path = [((node k).sym.toNat, path)] := by
  simp [leafCodes, leaf]

theorem leafCodes_left_subset {depth k : Nat} (internal : (node k).leaf = false)
    (child : (node k).left ≠ nilIndex) (path : Code) :
    leafCodes node depth (node k).left.toNat (path ++ [false]) ⊆
      leafCodes node (depth + 1) k path := by
  simp [leafCodes, internal, child]

theorem leafCodes_right_subset {depth k : Nat} (internal : (node k).leaf = false)
    (child : (node k).right ≠ nilIndex) (path : Code) :
    leafCodes node depth (node k).right.toNat (path ++ [true]) ⊆
      leafCodes node (depth + 1) k path := by
  simp [leafCodes, internal, child]

/-- The descent comes along every path, with as many levels left as the index at least, so the bound
of log 19 is never reached. -/
theorem TreeLaws.leafCodes_subset (laws : TreeLaws node size root) {k : Nat} {path : Code}
    (h : Path node root k path) :
    ∃ depth, k < depth ∧ leafCodes node depth k path ⊆ leafCodes node size root [] := by
  have onward {p c : Nat} {front : Code} {b : Bool} (path : Path node root p front)
      (child : c ∈ childrenOf (node p))
      (within : ∀ depth, leafCodes node depth c (front ++ [b]) ⊆ leafCodes node (depth + 1) p front)
      (ih : ∃ depth, p < depth ∧ leafCodes node depth p front ⊆ leafCodes node size root []) :
      ∃ depth, c < depth ∧ leafCodes node depth c (front ++ [b]) ⊆ leafCodes node size root [] := by
    have smaller := laws.child_smaller p (laws.path_lt path) c child
    obtain ⟨_ | depth, enough, found⟩ := ih
    · exact absurd enough (Nat.not_lt_zero _)
    · exact ⟨depth, by omega, List.Subset.trans (within depth) found⟩
  induction h with
  | here => exact ⟨size, laws.root_last ▸ Nat.lt_succ_self root, List.Subset.refl _⟩
  | left path internal child ih =>
    exact onward path (left_mem_childrenOf internal child)
      (fun _ => leafCodes_left_subset internal child _) ih
  | right path internal child ih =>
    exact onward path (right_mem_childrenOf internal child)
      (fun _ => leafCodes_right_subset internal child _) ih

theorem TreeLaws.mem_leafCodes (laws : TreeLaws node size root) {k : Nat} {path : Code}
    (h : Path node root k path) (leaf : (node k).leaf = true) :
    ((node k).sym.toNat, path) ∈ leafCodes node size root [] := by
  obtain ⟨_ | depth, enough, found⟩ := laws.leafCodes_subset h
  · exact absurd enough (Nat.not_lt_zero _)
  · exact found (by rw [leafCodes_of_leaf leaf]; exact List.mem_singleton.mpr rfl)

/-! ### The table -/

/-- A table made for all 256 symbols has each symbol's entry. -/
theorem entryOf_map_symbols (f : Nat → Nat × Nat) {sym : Nat} (hs : sym < 256) :
    entryOf (symbols.map f) sym = f sym := by
  simp [entryOf, hs]

/-- The entry of a symbol is that of a code found for it, if there is one. -/
theorem entryOf_tableOf {codes : List (Nat × Code)} {sym : Nat} (hs : sym < 256) :
    (∃ e ∈ codes, e.1 = sym ∧ entryOf (tableOf codes) sym = (e.2.length, codeValue e.2)) ∨
      ((∀ e ∈ codes, e.1 ≠ sym) ∧ entryOf (tableOf codes) sym = (0, 0)) := by
  rw [tableOf, entryOf_map_symbols _ hs]
  split
  case h_1 e found =>
    exact .inl ⟨e, List.mem_of_find?_eq_some found, by simpa using List.find?_some found, rfl⟩
  case h_2 none => exact .inr ⟨by simpa using none, rfl⟩

namespace TreeLaws

/-- A leaf's symbol has the leaf's path for a code (41_huffman_encoder R155). -/
theorem treeTable_leaf (laws : TreeLaws node size root) {k : Nat} (hk : k < size)
    (leaf : (node k).leaf = true) : ∃ code, Path node root k code ∧
      entryOf (treeTable node size root) (node k).sym.toNat = (code.length, codeValue code) := by
  obtain ⟨path, hpath⟩ := laws.exists_path (k := k) (by have := laws.root_last; omega)
  rcases entryOf_tableOf (codes := leafCodes node size root []) (node k).sym.isLt with
    ⟨e, he, sym, entry⟩ | ⟨none, -⟩
  · obtain ⟨j, hj, leaf', sym'⟩ := leafCodes_sound .here he
    have same : j = k := laws.eq_of_sym_eq ((laws.leaf_iff (laws.path_lt hj)).mp leaf')
      ((laws.leaf_iff hk).mp leaf) (sym'.symm.trans sym)
    exact ⟨e.2, same ▸ hj, entry⟩
  · exact absurd rfl (none _ (laws.mem_leafCodes hpath leaf))

/-- A symbol of no leaf has no code (41_huffman_encoder R159). -/
theorem treeTable_absent (laws : TreeLaws node size root) {sym : Nat} (hs : sym < 256)
    (absent : ∀ k < size, (node k).leaf = true → (node k).sym.toNat ≠ sym) :
    entryOf (treeTable node size root) sym = (0, 0) := by
  rcases entryOf_tableOf (codes := leafCodes node size root []) hs with ⟨e, he, rfl, -⟩ | ⟨-, entry⟩
  · obtain ⟨j, hj, leaf, sym⟩ := leafCodes_sound .here he
    exact absurd sym.symm (absent j (laws.path_lt hj) leaf)
  · exact entry

/-- A symbol is a leaf's or has no code. -/
theorem treeTable_cases (laws : TreeLaws node size root) {sym : Nat} (hs : sym < 256) :
    (∃ k code, Path node root k code ∧ (node k).leaf = true ∧ (node k).sym.toNat = sym ∧
      entryOf (treeTable node size root) sym = (code.length, codeValue code)) ∨
    entryOf (treeTable node size root) sym = (0, 0) := by
  by_cases h : ∃ k < size, (node k).leaf = true ∧ (node k).sym.toNat = sym
  · obtain ⟨k, hk, leaf, rfl⟩ := h
    obtain ⟨code, path, entry⟩ := laws.treeTable_leaf hk leaf
    exact .inl ⟨k, code, path, leaf, rfl, entry⟩
  · exact .inr (laws.treeTable_absent hs fun k hk leaf sym => h ⟨k, hk, leaf, sym⟩)

end TreeLaws

theorem codeOf_of_entryOf {table : CodeTable} {sym : Nat} {code : Code}
    (h : entryOf table sym = (code.length, codeValue code)) : codeOf table sym = code := by
  rw [codeOf, h, bitsOf_codeValue]

/-- No code of a lawful tree's table begins another (41_huffman_encoder R157). -/
theorem TreeLaws.prefixFree_treeTable (laws : TreeLaws node size root) :
    PrefixFree (treeTable node size root) := by
  intro a ha b hb ne coded coded' begins
  rcases laws.treeTable_cases ha with ⟨j, code, hj, leaf, rfl, entry⟩ | none
  · rcases laws.treeTable_cases hb with ⟨k, code', hk, -, rfl, entry'⟩ | none
    · rw [codeOf_of_entryOf entry, codeOf_of_entryOf entry'] at begins
      exact ne (by rw [hj.eq_of_begins leaf hk begins])
    · rw [none] at coded'
      exact absurd coded' (by decide)
  · rw [none] at coded
    exact absurd coded (by decide)

/-! ### The stored table -/

theorem State.read_clen_putCodes (s : State) (table : CodeTable) {sym : Nat} (hs : sym < 256) :
    (s.putCodes table).clen.read sym = BitVec.ofNat 8 (entryOf table sym).1 :=
  s.clen.read_writeFrom_symbols (fun sym => BitVec.ofNat 8 (entryOf table sym).1) hs

theorem State.read_cval_putCodes (s : State) (table : CodeTable) {sym : Nat} (hs : sym < 256) :
    (s.putCodes table).cval.read sym = BitVec.ofNat 256 (entryOf table sym).2 :=
  s.cval.read_writeFrom_symbols (fun sym => BitVec.ofNat 256 (entryOf table sym).2) hs

/-- A table that the elements of `CLEN` and `CVAL` hold without loss (10_state R39). -/
def FitsElements (table : CodeTable) : Prop :=
  ∀ sym < 256, (entryOf table sym).1 ≤ 255 ∧ (entryOf table sym).2 < 2 ^ (entryOf table sym).1

theorem TreeLaws.fitsElements_treeTable (laws : TreeLaws node size root) :
    FitsElements (treeTable node size root) := by
  intro sym hs
  rcases laws.treeTable_cases hs with ⟨k, code, path, leaf, -, entry⟩ | none
  · rw [entry]
    exact ⟨laws.leaf_path_length_le path leaf, codeValue_lt code⟩
  · rw [none]
    decide

namespace FitsElements

variable {table : CodeTable} {sym : Nat}

theorem value_lt (fits : FitsElements table) (hs : sym < 256) : (entryOf table sym).2 < 2 ^ 255 :=
  (fits sym hs).2.trans_le (Nat.pow_le_pow_right (by decide) (fits sym hs).1)

theorem clen_putCodes (fits : FitsElements table) (s : State) (hs : sym < 256) :
    ((s.putCodes table).clen.read sym).toNat = (entryOf table sym).1 := by
  have := (fits sym hs).1
  rw [s.read_clen_putCodes table hs, BitVec.toNat_ofNat, Nat.mod_eq_of_lt (by omega)]

theorem cval_putCodes (fits : FitsElements table) (s : State) (hs : sym < 256) :
    ((s.putCodes table).cval.read sym).toNat = (entryOf table sym).2 := by
  have := fits.value_lt hs
  rw [s.read_cval_putCodes table hs, BitVec.toNat_ofNat, Nat.mod_eq_of_lt (by omega)]

/-- The table put in `CLEN` and `CVAL` is read back from them. -/
theorem entryOf_codeTable (fits : FitsElements table) (s : State) (hs : sym < 256) :
    entryOf (s.putCodes table).codeTable sym = entryOf table sym := by
  rw [State.codeTable, entryOf_map_symbols _ hs, fits.clen_putCodes s hs, fits.cval_putCodes s hs,
    Nat.mod_eq_of_lt (fits sym hs).2]

end FitsElements

theorem PrefixFree.congr {table table' : CodeTable} (h : PrefixFree table)
    (same : ∀ sym < 256, entryOf table' sym = entryOf table sym) : PrefixFree table' := by
  intro a ha b hb
  simp only [codeOf, same a ha, same b hb]
  exact h a ha b hb

/-! ### The command -/

theorem exec_hcodes_eq {s : State} (tree : s.nnodes ≠ 0) :
    exec .hcodes s =
      .next (s.putCodes (treeTable s.node s.nnodes.toNat s.root.toNat)).complete := by
  rw [exec_hcodes]
  rcases hcodes_cases s with ⟨none, -⟩ | ⟨-, e⟩
  · exact absurd none tree
  · rw [e, conclude_ok]

/-- Settles O40: the entries of `treeTable`, read back from `CLEN` and `CVAL`. -/
theorem hcodesAssignsThePaths : Obligations.HcodesAssignsThePaths := by
  intro s tree treeLaws
  have laws := treeLaws.2 tree
  have fits := laws.fitsElements_treeTable
  refine ⟨_, _, exec_hcodes_eq tree, fun k hk leaf => ?_, fun sym hs absent => ?_,
    fun sym hs => ⟨?_, ?_⟩⟩
  · obtain ⟨code, path, entry⟩ := laws.treeTable_leaf hk leaf
    refine ⟨code, path, (fits.clen_putCodes s (BitVec.isLt _)).trans ?_,
      (fits.cval_putCodes s (BitVec.isLt _)).trans ?_⟩ <;> rw [entry]
  · have entry := laws.treeTable_absent hs absent
    constructor <;> apply BitVec.eq_of_toNat_eq
    · exact (fits.clen_putCodes s hs).trans (by rw [entry]; rfl)
    · exact (fits.cval_putCodes s hs).trans (by rw [entry]; rfl)
  · exact Space.read_writeFrom_beyond _ _ (by simpa using hs)
  · exact Space.read_writeFrom_beyond _ _ (by simpa using hs)

namespace TreeLaws

/-- The bounds of a leaf's code (41_huffman_encoder R158). -/
theorem treeTable_leaf_bounds (laws : TreeLaws node size root) {k : Nat} (hk : k < size)
    (leaf : (node k).leaf = true) :
    1 ≤ (entryOf (treeTable node size root) (node k).sym.toNat).1 ∧
      (entryOf (treeTable node size root) (node k).sym.toNat).1 ≤ size - leafCount size := by
  obtain ⟨code, path, entry⟩ := laws.treeTable_leaf hk leaf
  rw [entry]
  exact laws.leaf_path_length path leaf

/-- With one internal node, the root, a leaf's code is one step. -/
theorem codeOf_of_one_internal (laws : TreeLaws node size root) (one : size - leafCount size = 1)
    {k : Nat} (hk : k < size) (leaf : (node k).leaf = true) :
    (codeOf (treeTable node size root) (node k).sym.toNat = [false] ∧ k = (node root).left.toNat) ∨
    (codeOf (treeTable node size root) (node k).sym.toNat = [true] ∧
      (node root).right ≠ nilIndex ∧ k = (node root).right.toNat) := by
  obtain ⟨code, path, entry⟩ := laws.treeTable_leaf hk leaf
  rw [codeOf_of_entryOf entry]
  have length := laws.leaf_path_length path leaf
  exact path.of_length_one (by omega)

/-- The one code of a one-symbol tree (41_huffman_encoder R158). -/
theorem codeOf_one_symbol (laws : TreeLaws node 2 root) {k : Nat} (hk : k < 2)
    (leaf : (node k).leaf = true) : codeOf (treeTable node 2 root) (node k).sym.toNat = [false] := by
  rcases laws.codeOf_of_one_internal rfl hk leaf with ⟨code, -⟩ | ⟨-, child, -⟩
  · exact code
  · have last := laws.root_last
    exact absurd ((laws.child_count root laws.leafCount_le_root (by omega)).2.mpr rfl) child

/-- The two codes of a two-symbol tree (41_huffman_encoder R158). -/
theorem codeOf_two_symbols (laws : TreeLaws node 3 2) :
    codeOf (treeTable node 3 2) (node (node 2).left.toNat).sym.toNat = [false] ∧
      codeOf (treeTable node 3 2) (node (node 2).right.toNat).sym.toNat = [true] := by
  have internal : (node 2).leaf = false := laws.leaves_first 2 (by decide)
  obtain ⟨left, right⟩ := laws.child_count 2 (by decide) (by decide)
  have right : (node 2).right ≠ nilIndex := mt right.mp (by decide)
  have children := childrenOf_internal internal left right
  have child {c : Nat} (hc : c ∈ childrenOf (node 2)) : c < 3 ∧ (node c).leaf = true := by
    have := laws.child_smaller 2 (by decide) c hc
    exact ⟨by omega, (laws.leaf_iff (by omega)).mpr this⟩
  have nodup : (childrenOf (node 2)).Nodup :=
    (List.nodup_flatMap.mp (laws.one_parent.nodup_iff.mpr List.nodup_range)).1 2
      (List.mem_range.mpr (by decide))
  rw [children] at child nodup
  have ne : (node 2).left.toNat ≠ (node 2).right.toNat := by simpa using nodup
  obtain ⟨hl, leafL⟩ := child (c := (node 2).left.toNat) (by simp)
  obtain ⟨hr, leafR⟩ := child (c := (node 2).right.toNat) (by simp)
  constructor
  · rcases laws.codeOf_of_one_internal rfl hl leafL with ⟨code, -⟩ | ⟨-, -, same⟩
    · exact code
    · exact absurd same ne
  · rcases laws.codeOf_of_one_internal rfl hr leafR with ⟨-, same⟩ | ⟨code, -⟩
    · exact absurd same.symm ne
    · exact code

end TreeLaws

/-- Settles O41: `prefixFree_treeTable` and the bounds of the paths, read back from `CLEN` and `CVAL`. -/
theorem hcodesTableIsPrefixFree : Obligations.HcodesTableIsPrefixFree := by
  intro s tree treeLaws
  have laws := treeLaws.2 tree
  have fits := laws.fitsElements_treeTable
  have entry (sym : Nat) (hs : sym < 256) := fits.entryOf_codeTable s hs
  have code (sym : Byte) : codeOf
      (s.putCodes (treeTable s.node s.nnodes.toNat s.root.toNat)).complete.codeTable sym.toNat =
      codeOf (treeTable s.node s.nnodes.toNat s.root.toNat) sym.toNat :=
    congrArg (fun e : Nat × Nat => bitsOf e.1 e.2) (entry sym.toNat sym.isLt)
  refine ⟨_, exec_hcodes_eq tree, laws.prefixFree_treeTable.congr entry, fun k hk leaf => ?_,
    fun one => ?_, fun two => ?_⟩
  · have length := fits.clen_putCodes s (s.node k).sym.isLt
    have value := fits.cval_putCodes s (s.node k).sym.isLt
    have bounds := laws.treeTable_leaf_bounds hk leaf
    have small := (fits _ (s.node k).sym.isLt).1
    have odd := laws.size_legal
    rw [State.complete_clen, State.complete_cval, length, value]
    refine ⟨bounds.1, small, fun three => ?_, fits.value_lt (s.node k).sym.isLt⟩
    unfold leafCount at *
    omega
  · have number : s.nnodes.toNat = 2 := congrArg BitVec.toNat one
    rw [code]
    rw [number] at laws ⊢
    exact laws.codeOf_one_symbol (by decide) ((laws.leaf_iff (by decide)).mpr (by decide))
  · have number : s.nnodes.toNat = 3 := congrArg BitVec.toNat two
    rw [code, code]
    rw [number] at laws ⊢
    obtain last : s.root.toNat = 2 := by have := laws.root_last; omega
    rw [last] at laws ⊢
    exact laws.codeOf_two_symbols

end Sys2Proof.Machine
end

section
/-! PROOF. `HENC` (41_huffman_encoder R161 to R166): every sample has a code of 1 to 255 bits, so the bitstream
fits; what is written is the table of the three stages and the codes of the samples in order. -/

namespace Sys2Proof.Machine

/-! ### The tree and the table of the samples -/

/-- The tree the samples' counts give. -/
abbrev sampleTree (samples : List Byte) : List Node := buildTree (occurrences samples)

theorem sampleTable_eq (samples : List Byte) : sampleTable samples =
    treeTable (nodeAt (sampleTree samples)) (sampleTree samples).length
      ((sampleTree samples).length - 1) := rfl

theorem mem_presentSymbols_occurrences {samples : List Byte} {sym : Nat} :
    sym ∈ presentSymbols (occurrences samples) ↔ ∃ x ∈ samples, x.toNat = sym := by
  rw [mem_presentSymbols, occurrences_pos_iff]
  exact and_iff_right_of_imp fun ⟨x, _, same⟩ => same ▸ x.isLt

theorem presentSymbols_occurrences_eq_nil_iff {samples : List Byte} :
    presentSymbols (occurrences samples) = [] ↔ samples = [] := by
  constructor
  · intro none
    refine List.eq_nil_iff_forall_not_mem.mpr fun x hx => ?_
    have : x.toNat ∈ presentSymbols (occurrences samples) :=
      mem_presentSymbols_occurrences.mpr ⟨x, hx, rfl⟩
    exact absurd (none ▸ this) List.not_mem_nil
  · rintro rfl
    refine List.eq_nil_iff_forall_not_mem.mpr fun sym hs => ?_
    obtain ⟨x, hx, -⟩ := mem_presentSymbols_occurrences.mp hs
    exact absurd hx List.not_mem_nil

theorem State.presentSymbols_samples_eq_nil_iff (s : State) :
    presentSymbols (occurrences s.samples) = [] ↔ s.len = 0 := by
  rw [presentSymbols_occurrences_eq_nil_iff, ← s.length_samples, List.length_eq_zero_iff]

section

variable {samples : List Byte} (nonempty : presentSymbols (occurrences samples) ≠ [])
  (small : samples.length < 2 ^ 32)

include nonempty small

theorem sampleTree_lawful : TreeLaws (nodeAt (sampleTree samples)) (sampleTree samples).length
    ((sampleTree samples).length - 1) :=
  buildTree_lawful (fun sym _ => (occurrences_le_length samples sym).trans_lt small) nonempty

/-- Every sample's symbol has a leaf. -/
theorem exists_leaf_of_mem {x : Byte} (hx : x ∈ samples) : ∃ k < (sampleTree samples).length,
    (nodeAt (sampleTree samples) k).leaf = true ∧ (nodeAt (sampleTree samples) k).sym = x := by
  have counts : ∀ sym < 256, occurrences samples sym < 2 ^ 32 := fun sym _ =>
    (occurrences_le_length samples sym).trans_lt small
  obtain ⟨k, hk, sym⟩ := List.getElem_of_mem (mem_presentSymbols_occurrences.mpr ⟨x, hx, rfl⟩)
  have leaf := nodeAt_buildTree_leaf counts hk
  refine ⟨k, ?_, ?_, ?_⟩
  · have length : (sampleTree samples).length = _ := length_buildTree counts nonempty
    split at length <;> omega
  · rw [leaf]; rfl
  · rw [leaf, sym]; simp [leafNode]

/-- A sample's code has 1 to 255 bits (41_huffman_encoder R158). -/
theorem sampleTable_length_range {x : Byte} (hx : x ∈ samples) :
    1 ≤ (entryOf (sampleTable samples) x.toNat).1 ∧
      (entryOf (sampleTable samples) x.toNat).1 ≤ 255 := by
  have laws := sampleTree_lawful nonempty small
  obtain ⟨k, hk, leaf, rfl⟩ := exists_leaf_of_mem nonempty small hx
  exact ⟨(laws.treeTable_leaf_bounds hk leaf).1, (laws.fitsElements_treeTable _ (BitVec.isLt _)).1⟩

/-- The bounds of the bitstream's length (41_huffman_encoder R165). -/
theorem streamLength_range : samples.length ≤ streamLength (sampleTable samples) samples ∧
    streamLength (sampleTable samples) samples ≤ 255 * samples.length := by
  have range := fun x (hx : x ∈ samples) => sampleTable_length_range nonempty small hx
  constructor
  · simpa [streamLength] using List.length_le_sum_of_one_le
      (samples.map fun x => (entryOf (sampleTable samples) x.toNat).1)
      (List.forall_mem_map.mpr fun x hx => (range x hx).1)
  · simpa [streamLength, Nat.mul_comm] using List.sum_le_card_nsmul
      (samples.map fun x => (entryOf (sampleTable samples) x.toNat).1) 255
      (List.forall_mem_map.mpr fun x hx => (range x hx).2)

/-- When all samples are alike, the code of each is "0" (41_huffman_encoder R158, R165). -/
theorem codeOf_of_one_symbol {x : Byte} (only : ∀ y ∈ samples, y = x) (hx : x ∈ samples) :
    codeOf (sampleTable samples) x.toNat = [false] := by
  have list : presentSymbols (occurrences samples) = [x.toNat] :=
    presentSymbols_eq_singleton fun sym => by
      rw [mem_presentSymbols_occurrences]
      exact ⟨fun ⟨y, hy, same⟩ => only y hy ▸ same.symm, fun same => ⟨x, hx, same.symm⟩⟩
  have two : (sampleTree samples).length = 2 := by
    rw [length_buildTree (fun sym _ => (occurrences_le_length samples sym).trans_lt small) nonempty,
      list]
    rfl
  obtain ⟨k, hk, leaf, rfl⟩ := exists_leaf_of_mem nonempty small hx
  have laws := sampleTree_lawful nonempty small
  rw [sampleTable_eq]
  rw [two] at laws hk ⊢
  exact laws.codeOf_one_symbol hk leaf

end

/-! ### The stored bitstream -/

theorem State.bits_putBits_stream (s : State) {stream : Code} {k : Nat} (hk : k < stream.length) :
    (s.putBits stream).bits.read k = BitVec.ofBool stream[k] := by
  rw [State.putBits_bits, Space.read_writeFrom_zero _ _ (by simp [bitElements]; omega)]
  simp [bitElements, hk]

theorem State.bits_putBits_padding (s : State) {stream : Code} {k : Nat} (hk : stream.length ≤ k)
    (last : k < 8 * ((stream.length + 7) / 8)) : (s.putBits stream).bits.read k = 0 := by
  rw [State.putBits_bits, Space.read_writeFrom_zero _ _ (by simp [bitElements, bytesOfBits]; omega)]
  simp [bitElements, List.getElem_append, Nat.not_lt.mpr hk]

theorem State.bits_putBits_beyond (s : State) {stream : Code} {k : Nat}
    (hk : 8 * ((stream.length + 7) / 8) ≤ k) : (s.putBits stream).bits.read k = s.bits.read k := by
  rw [State.putBits_bits, Space.read_writeFrom_beyond]
  simp [bitElements, bytesOfBits]
  omega

/-! ### The command -/

/-- The state in which `HENC` completes (41_huffman_encoder R161, R166). -/
abbrev State.afterHenc (s : State) : State :=
  (((s.putCodes (sampleTable s.samples)).putBits
    (bitstream (sampleTable s.samples) s.samples)).dropTree.drawFreq.drawTree).complete

/-- What `HENC` leaves, field by field. -/
theorem State.afterHenc_eq (s : State) : s.afterHenc = { s with
    clen := (s.putCodes (sampleTable s.samples)).clen
    cval := (s.putCodes (sampleTable s.samples)).cval
    bits := (s.putBits (bitstream (sampleTable s.samples) s.samples)).bits
    bitlen := BitVec.ofNat 40 (bitstream (sampleTable s.samples) s.samples).length
    nnodes := 0
    root := 0
    freq := Space.fresh s.draws
    tree := Space.fresh (s.draws + 1)
    draws := s.draws + 2
    status := { s.status with busy := false, done := true } } := by
  simp only [State.afterHenc, State.complete, State.drawTree, State.drawFreq, State.dropTree,
    State.putBits, State.putCodes]

/-- `HENC` on the empty buffer. -/
theorem exec_henc_empty {s : State} (empty : s.len = 0) :
    exec .henc s = .next (failureEntry (some .henc) .emptyInput s) := by
  rw [exec_henc, henc, if_neg (by simp [empty]),
    if_pos (s.presentSymbols_samples_eq_nil_iff.mpr empty), conclude_error]

section

variable {s : State} (nonempty : 0 < s.len) (fits : s.len ≤ 2 ^ 32 - 1)

include nonempty fits

theorem State.samples_present_small :
    presentSymbols (occurrences s.samples) ≠ [] ∧ s.samples.length < 2 ^ 32 :=
  ⟨mt s.presentSymbols_samples_eq_nil_iff.mp nonempty.ne', by rw [s.length_samples]; omega⟩

theorem State.sampleTree_lawful : TreeLaws (nodeAt (sampleTree s.samples))
    (sampleTree s.samples).length ((sampleTree s.samples).length - 1) :=
  have ⟨present, small⟩ := State.samples_present_small nonempty fits
  Machine.sampleTree_lawful present small

theorem State.fitsElements_sampleTable : FitsElements (sampleTable s.samples) :=
  (State.sampleTree_lawful nonempty fits).fitsElements_treeTable

theorem State.streamLength_range : s.len ≤ streamLength (sampleTable s.samples) s.samples ∧
    streamLength (sampleTable s.samples) s.samples ≤ 255 * s.len := by
  obtain ⟨present, small⟩ := State.samples_present_small nonempty fits
  have range := Machine.streamLength_range present small
  rwa [s.length_samples] at range

/-- `HENC` on a non-empty buffer that fits: 255 bits a sample never exceed `MAXBITS`. -/
theorem exec_henc_eq : exec .henc s = .next s.afterHenc := by
  have range := State.streamLength_range nonempty fits
  rw [exec_henc, henc, if_neg (show ¬ s.len > machineConfig.maxLen from Nat.not_lt.mpr fits),
    if_neg (State.samples_present_small nonempty fits).1]
  dsimp only
  rw [if_neg (by rw [machineConfig_maxBits]; omega), conclude_ok]

end

/-- The stream is the codes of the samples, as `CLEN` and `CVAL` give them. -/
theorem State.bitstream_samples (s : State) {table : CodeTable} (h : FitsElements table) :
    bitstream table s.samples = (List.range s.len).flatMap fun i =>
      bitsOf ((s.putCodes table).clen.read (s.pix.read i).toNat).toNat
        ((s.putCodes table).cval.read (s.pix.read i).toNat).toNat := by
  rw [bitstream, State.samples, Space.readUpTo, List.flatMap_map]
  refine List.flatMap_congr fun i _ => ?_
  rw [codeOf, h.clen_putCodes s (BitVec.isLt _), h.cval_putCodes s (BitVec.isLt _)]

/-- Settles O42: what `putCodes` and `putBits` leave, for the table of the samples. -/
theorem hencWritesTheBitstream : Obligations.HencWritesTheBitstream := by
  intro s nonempty fits
  have range := State.streamLength_range nonempty fits
  refine ⟨_, _, _, _, _, _, _,
    (exec_henc_eq nonempty fits).trans (congrArg Host.Outcome.next s.afterHenc_eq), ?_,
    s.bitstream_samples (State.fitsElements_sampleTable nonempty fits), fun k hk => ?_,
    fun _ => s.bits_putBits_padding, fun _ => s.bits_putBits_beyond⟩
  · rw [length_bitstream]
    omega
  · rw [s.bits_putBits_stream hk]
    simp

/-- A stream in which each sample is the bit 0. -/
theorem bitstream_of_one_code {table : CodeTable} {samples : List Byte}
    (code : ∀ x ∈ samples, codeOf table x.toNat = [false]) :
    bitstream table samples = List.replicate samples.length false := by
  rw [bitstream, List.flatMap_congr code, ← List.map_const']
  exact List.flatMap_pure_eq_map (fun _ => false) samples

/-- Settles O44: the length is `streamLength`, and the one code of a buffer of one symbol is "0". -/
theorem hencStreamLength : Obligations.HencStreamLength := by
  intro s nonempty fits
  have table := State.fitsElements_sampleTable nonempty fits
  have range := State.streamLength_range nonempty fits
  have length : s.afterHenc.bitlen.toNat = streamLength (sampleTable s.samples) s.samples := by
    rw [s.afterHenc_eq, BitVec.toNat_ofNat, length_bitstream, Nat.mod_eq_of_lt (by omega)]
  refine ⟨_, exec_henc_eq nonempty fits, rfl, ?_, length ▸ range.1, length ▸ range.2, fun only => ?_⟩
  · rw [length, s.afterHenc_eq, streamLength, State.samples, Space.readUpTo, List.map_map]
    exact congrArg List.sum (List.map_congr_left fun i _ =>
      (table.clen_putCodes s (s.pix.read i).isLt).symm)
  · obtain ⟨present, small⟩ := State.samples_present_small nonempty fits
    have only' : ∀ x ∈ s.samples, x = s.pix.read 0 := by
      intro x hx
      obtain ⟨i, hi, rfl⟩ := List.mem_map.mp hx
      exact only i (List.mem_range.mp hi)
    have first : s.pix.read 0 ∈ s.samples :=
      List.mem_map.mpr ⟨0, List.mem_range.mpr nonempty, rfl⟩
    have code := codeOf_of_one_symbol present small only' first
    have stream : bitstream (sampleTable s.samples) s.samples = List.replicate s.len false := by
      rw [bitstream_of_one_code fun x hx => only' x hx ▸ code, s.length_samples]
    have number : streamLength (sampleTable s.samples) s.samples = s.len := by
      rw [← length_bitstream, stream, List.length_replicate]
    refine ⟨length.trans number, fun k hk => ?_⟩
    rw [s.afterHenc_eq, s.bits_putBits_stream (by rwa [length_bitstream, number])]
    simp [stream]

/-! ### The three stages -/

theorem presentSymbols_congr {count count' : Nat → Nat} (same : ∀ sym < 256, count sym = count' sym) :
    presentSymbols count = presentSymbols count' :=
  List.filter_congr fun sym hs => by rw [same sym (mem_symbols.mp hs)]

/-- The tree depends on the counts of the 256 symbols alone. -/
theorem buildTree_congr {count count' : Nat → Nat} (same : ∀ sym < 256, count sym = count' sym) :
    buildTree count = buildTree count' := by
  have leaves : (presentSymbols count).map (leafNode count) =
      (presentSymbols count').map (leafNode count') := by
    rw [presentSymbols_congr same]
    refine List.map_congr_left fun sym hs => ?_
    rw [leafNode, leafNode, same sym (mem_presentSymbols.mp hs).1]
  unfold buildTree
  rw [leaves]

/-- The descent reads the nodes of the tree alone. -/
theorem TreeLaws.treeTable_congr {node node' : Nat → Node} {size root : Nat}
    (laws : TreeLaws node size root) (same : ∀ k < size, node' k = node k) :
    treeTable node' size root = treeTable node size root := by
  have descent (depth : Nat) : ∀ k < size, ∀ path,
      leafCodes node' depth k path = leafCodes node depth k path := by
    induction depth with
    | zero => exact fun _ _ _ => rfl
    | succ depth ih =>
      intro k hk path
      have child {c : Nat} (hc : c ∈ childrenOf (node k)) (path : Code) :
          leafCodes node' depth c path = leafCodes node depth c path :=
        ih c ((laws.child_smaller k hk c hc).trans hk) path
      simp only [leafCodes, same k hk]
      split
      · rfl
      · next notLeaf =>
        have internal := Bool.eq_false_of_not_eq_true notLeaf
        exact congrArg₂ _
          (ite_congr rfl (fun _ => rfl) fun exist =>
            child (left_mem_childrenOf internal exist) _)
          (ite_congr rfl (fun _ => rfl) fun exist =>
            child (right_mem_childrenOf internal exist) _)
  rw [treeTable, treeTable, descent size root (by have := laws.root_last; omega)]

section

variable (s : State) {nodes : List Node}
  (laws : TreeLaws (nodeAt nodes) nodes.length (nodes.length - 1))

include laws

theorem State.toNat_nnodes_putTree : (s.putTree nodes).nnodes.toNat = nodes.length := by
  have legal := laws.size_legal
  rw [State.putTree_nnodes, BitVec.toNat_ofNat]
  omega

theorem State.nnodes_putTree_ne_zero : (s.putTree nodes).nnodes ≠ 0 := by
  have legal := laws.size_legal
  rw [← BitVec.toNat_ne_iff_ne, s.toNat_nnodes_putTree laws]
  exact fun none => by have : nodes.length = 0 := none; omega

/-- The table of a tree just stored. -/
theorem State.treeTable_putTree :
    treeTable (s.putTree nodes).node (s.putTree nodes).nnodes.toNat (s.putTree nodes).root.toNat =
      treeTable (nodeAt nodes) nodes.length (nodes.length - 1) := by
  have legal := laws.size_legal
  have root : (s.putTree nodes).root.toNat = nodes.length - 1 := by
    rw [State.putTree_root, BitVec.toNat_ofNat]
    omega
  rw [s.toNat_nnodes_putTree laws, root]
  exact laws.treeTable_congr fun k hk => s.node_putTree hk

/-- `HCODES` right after `HTREE`. -/
theorem exec_hcodes_of_putTree : exec .hcodes (s.putTree nodes).complete =
    .next ((s.putTree nodes).complete.putCodes
      (treeTable (nodeAt nodes) nodes.length (nodes.length - 1))).complete := by
  rw [← s.treeTable_putTree laws]
  exact exec_hcodes_eq (s := (s.putTree nodes).complete) (s.nnodes_putTree_ne_zero laws)

end

/-- Settles O43: the stages build the tree of the same counts. -/
theorem hencAgreesWithTheStages : Obligations.HencAgreesWithTheStages := by
  intro s fits noError
  have counts : ∀ sym < 256,
      (s.putFreq (occurrences s.samples)).complete.count sym = occurrences s.samples sym :=
    fun sym hs => State.count_afterHfreq fits hs
  have present := presentSymbols_congr counts
  rcases Nat.eq_zero_or_pos s.len with empty | nonempty
  · have none : presentSymbols (s.putFreq (occurrences s.samples)).complete.count = [] :=
      present.trans (s.presentSymbols_samples_eq_nil_iff.mpr empty)
    have failed (i : Instr) (t : State) : (failureEntry (some i) .emptyInput t).status.err = true ∧
        (failureEntry (some i) .emptyInput t).errcode = 1 := ⟨rfl, rfl⟩
    exact ⟨_, _, _, exec_hfreq_eq fits, exec_htree_empty none, exec_henc_empty empty,
      iff_of_true (failed _ _) (failed _ _), fun success => absurd success (by simp [failed])⟩
  · have laws := State.sampleTree_lawful nonempty fits
    have counted : presentSymbols (s.putFreq (occurrences s.samples)).complete.count ≠ [] :=
      present ▸ (State.samples_present_small nonempty fits).1
    have noError' {t : State} (same : t.status.err = s.status.err) :
        ¬ (t.status.err = true ∧ t.errcode = 1) := by simp [same, noError]
    refine ⟨_, _, _, exec_hfreq_eq fits, exec_htree_eq counted, exec_henc_eq nonempty fits,
      iff_of_false (noError' rfl) (noError' rfl), fun _ => ?_⟩
    rw [buildTree_congr counts]
    refine ⟨_, exec_hcodes_of_putTree _ laws, noError, noError, noError, fun sym hs => ⟨?_, ?_⟩⟩
    · exact (s.read_clen_putCodes _ hs).trans (State.read_clen_putCodes _ _ hs).symm
    · exact (s.read_cval_putCodes _ hs).trans (State.read_cval_putCodes _ _ hs).symm

end Sys2Proof.Machine
end

section
/-! PROOF. `HDEC` (42_huffman_decoder R181 to R186): what a candidate matches, where the scan emits, and why the
scan of an encoder's bitstream gives back the samples. -/

namespace Sys2Proof.Machine

/-! ### Matching -/

/-- `code` is the known code of `sym` (42_huffman_decoder R182). -/
def KnownCode (table : CodeTable) (sym : Nat) (code : Code) : Prop :=
  sym < 256 ∧ code ≠ [] ∧ entryOf table sym = (code.length, codeValue code)

variable {table : CodeTable} {code : Code}

theorem KnownCode.codeOf_eq {sym : Nat} (known : KnownCode table sym code) :
    codeOf table sym = code := by
  obtain ⟨-, -, entry⟩ := known
  exact codeOf_of_entryOf entry

theorem KnownCode.one_le_length {sym : Nat} (known : KnownCode table sym code) :
    1 ≤ (entryOf table sym).1 := by
  obtain ⟨-, nonempty, entry⟩ := known
  rw [entry]
  exact List.length_pos_iff.mpr nonempty

/-- What `matchSymbol` tests of a symbol. -/
theorem knownCode_iff {sym : Nat} : KnownCode table sym code ↔ sym < 256 ∧
    (decide (1 ≤ (entryOf table sym).1) && (entryOf table sym).1 == code.length &&
      (entryOf table sym).2 == codeValue code) = true := by
  rw [KnownCode, Prod.ext_iff, ← List.length_pos_iff]
  simp only [Bool.and_eq_true, decide_eq_true_eq, beq_iff_eq]
  constructor
  · rintro ⟨hs, nonempty, length, value⟩
    exact ⟨hs, ⟨length ▸ nonempty, length⟩, value⟩
  · rintro ⟨hs, ⟨coded, length⟩, value⟩
    exact ⟨hs, length ▸ coded, length, value⟩

/-- The search is in ascending order (42_huffman_decoder R182, R184). -/
theorem matchSymbol_eq_some_iff {sym : Nat} : matchSymbol table code = some sym ↔
    KnownCode table sym code ∧ ∀ a < sym, ¬ KnownCode table a code := by
  unfold matchSymbol symbols
  rw [List.find?_range_eq_some, List.mem_range, knownCode_iff]
  constructor
  · rintro ⟨found, hs, first⟩
    refine ⟨⟨hs, found⟩, fun a ha known => ?_⟩
    obtain ⟨-, test⟩ := knownCode_iff.mp known
    simpa [test] using first a ha
  · rintro ⟨⟨hs, found⟩, first⟩
    refine ⟨found, hs, fun a ha => ?_⟩
    rw [Bool.not_eq_true']
    exact Bool.eq_false_of_not_eq_true fun test =>
      first a ha (knownCode_iff.mpr ⟨ha.trans hs, test⟩)

theorem matchSymbol_eq_none_iff :
    matchSymbol table code = none ↔ ∀ sym, ¬ KnownCode table sym code := by
  simp only [matchSymbol, List.find?_eq_none, mem_symbols, knownCode_iff, not_and]

/-- A sequence is given by its length and value; bits of `val` above the length are ignored
(00_scope R12, 42_huffman_decoder R182). -/
theorem bitsOf_eq_iff {len val : Nat} :
    bitsOf len val = code ↔ (len, val % 2 ^ len) = (code.length, codeValue code) := by
  rw [Prod.mk.injEq]
  constructor
  · rintro rfl
    exact ⟨(length_bitsOf _ _).symm, (codeValue_bitsOf _ _).symm⟩
  · rintro ⟨length, value⟩
    rw [← bitsOf_mod, value, length, bitsOf_codeValue]

/-- A known code of `CLEN` and `CVAL`. -/
theorem State.knownCode_codeTable_iff (s : State) (nonempty : code ≠ []) {sym : Nat} :
    KnownCode s.codeTable sym code ↔ sym < 256 ∧ 1 ≤ (s.clen.read sym).toNat ∧
      bitsOf (s.clen.read sym).toNat (s.cval.read sym).toNat = code := by
  refine and_congr_right fun hs => ?_
  rw [State.codeTable, entryOf_map_symbols _ hs, bitsOf_eq_iff]
  refine and_congr_left fun entry => iff_of_true nonempty ?_
  have length : (s.clen.read sym).toNat = code.length := congrArg Prod.fst entry
  rw [length]
  exact List.length_pos_iff.mpr nonempty

/-- Settles O46: the symbols with the candidate as known code, read from `CLEN` and `CVAL`. -/
theorem matchIsTheSmallestSymbol : Obligations.MatchIsTheSmallestSymbol := by
  intro s acc nonempty
  dsimp only
  simp only [← s.knownCode_codeTable_iff nonempty]
  exact ⟨fun _ => matchSymbol_eq_some_iff, matchSymbol_eq_none_iff⟩

/-! ### The scan -/

/-- No proper initial part of the bits matches (42_huffman_decoder R183). -/
def NoEarlierMatch (table : CodeTable) (code : Code) : Prop :=
  ∀ p, p ≠ [] → p <+: code → p ≠ code → matchSymbol table p = none

/-- The scan takes in bits as long as the candidate matches nothing. -/
theorem scanBits_append_of_no_match {acc bits : Code} (rest : Code)
    (pending : ∀ p, p ≠ [] → p <+: bits → matchSymbol table (acc ++ p) = none) :
    scanBits table acc (bits ++ rest) = scanBits table (acc ++ bits) rest := by
  induction bits generalizing acc with
  | nil => rw [List.nil_append, List.append_nil]
  | cons b bits ih =>
    have first := pending [b] (List.cons_ne_nil _ _) (List.prefix_append [b] bits)
    have later : ∀ p, p ≠ [] → p <+: bits → matchSymbol table (acc ++ [b] ++ p) = none := by
      intro p _ begins
      rw [List.append_assoc]
      exact pending _ (List.cons_ne_nil _ _) (List.prefix_cons_inj b |>.mpr begins)
    rw [List.cons_append, scanBits, first]
    dsimp only
    rw [ih later, List.append_assoc, List.singleton_append]

/-- The scan emits at the first match and starts again (42_huffman_decoder R183). -/
theorem scanBits_of_match (rest : Code) (nonempty : code ≠ []) (earliest : NoEarlierMatch table code)
    {sym : Nat} (found : matchSymbol table code = some sym) :
    scanBits table [] (code ++ rest) =
      (BitVec.ofNat 8 sym :: (scanBits table [] rest).1, (scanBits table [] rest).2) := by
  obtain ⟨front, b, rfl⟩ := List.eq_nil_or_concat' code |>.resolve_left nonempty
  have pending : ∀ p, p ≠ [] → p <+: front → matchSymbol table ([] ++ p) = none := by
    intro p some_bit begins
    refine earliest p some_bit (begins.trans (List.prefix_append _ _)) ?_
    rintro rfl
    simpa using begins.length_le
  rw [List.append_assoc, scanBits_append_of_no_match _ pending, List.nil_append,
    List.singleton_append, scanBits, found]

/-- Settles O47: the last bit is the first that can end a match. -/
theorem scanEmitsTheShortestMatch : Obligations.ScanEmitsTheShortestMatch := by
  intro table code rest nonempty earliest
  refine ⟨fun sym found => scanBits_of_match rest nonempty earliest found, fun none => ?_⟩
  have pending : ∀ p, p ≠ [] → p <+: code → matchSymbol table ([] ++ p) = .none := by
    intro p some_bit begins
    by_cases whole : p = code
    · rwa [whole]
    · exact earliest p some_bit begins whole
  have scan := scanBits_append_of_no_match [] pending
  rwa [List.append_nil] at scan

/-! ### The command -/

/-- `HDEC` when neither condition of 42_huffman_decoder R185 fails it; `BITLEN` has 40 bits, so it
fits by itself. -/
theorem exec_hdec_eq {s : State} (fits : s.len ≤ 2 ^ 32 - 1)
    (nothing_pending : (scanBits s.codeTable [] (s.stream s.bitlen.toNat)).2 = [])
    (number : (scanBits s.codeTable [] (s.stream s.bitlen.toNat)).1.length = s.len) :
    exec .hdec s =
      .next (s.putPix (scanBits s.codeTable [] (s.stream s.bitlen.toNat)).1).complete := by
  have few : s.bitlen.toNat ≤ 2 ^ 40 - 1 := Nat.le_sub_one_of_lt s.bitlen.isLt
  have within : ¬ (s.len > machineConfig.maxLen ∨ s.bitlen.toNat > machineConfig.maxBits) :=
    not_or.mpr ⟨Nat.not_lt.mpr fits, Nat.not_lt.mpr few⟩
  rw [exec_hdec, hdec, if_neg within]
  dsimp only
  rw [if_neg (not_not.mpr nothing_pending), if_neg (not_not.mpr number), conclude_ok]

/-- Settles O45: the symbols of the scan are written from sample 0 on. -/
theorem hdecDecodesTheStream : Obligations.HdecDecodesTheStream := by
  intro s fits scan nothing_pending number
  exact ⟨s.pix.writeFrom 0 scan.1, exec_hdec_eq fits nothing_pending number,
    fun i hi => Space.read_writeFrom_zero _ _ hi,
    fun i hi => Space.read_writeFrom_beyond _ _ (number.trans_le hi)⟩

/-! ### Decoding where no code begins another -/

theorem length_codeOf (table : CodeTable) (sym : Nat) :
    (codeOf table sym).length = (entryOf table sym).1 :=
  length_bitsOf _ _

section

variable (prefixFree : PrefixFree table) (fits : FitsElements table) {x : Byte}
  (coded : 1 ≤ (entryOf table x.toNat).1)

include coded in
theorem codeOf_ne_nil : codeOf table x.toNat ≠ [] :=
  List.length_pos_iff.mp ((length_codeOf table x.toNat).symm ▸ coded)

include fits coded in
theorem knownCode_codeOf : KnownCode table x.toNat (codeOf table x.toNat) := by
  refine ⟨x.isLt, codeOf_ne_nil coded, Prod.ext (length_codeOf _ _).symm ?_⟩
  rw [codeOf, codeValue_bitsOf, Nat.mod_eq_of_lt (fits _ x.isLt).2]

include prefixFree coded

/-- Where a code begins with a known code, it is the symbol's own. -/
theorem KnownCode.eq_of_begins {a : Nat} (known : KnownCode table a code)
    (begins : code <+: codeOf table x.toNat) : a = x.toNat := by
  have ha : a < 256 := known.1
  by_contra other
  refine prefixFree a ha x.toNat x.isLt other known.one_le_length coded ?_
  rwa [known.codeOf_eq]

theorem noEarlierMatch_codeOf : NoEarlierMatch table (codeOf table x.toNat) := by
  refine fun p _ begins proper => matchSymbol_eq_none_iff.mpr fun a known => proper ?_
  rw [← known.eq_of_begins prefixFree coded begins, known.codeOf_eq]

include fits in
theorem matchSymbol_codeOf : matchSymbol table (codeOf table x.toNat) = some x.toNat :=
  matchSymbol_eq_some_iff.mpr ⟨knownCode_codeOf fits coded, fun _ smaller known =>
    smaller.ne (known.eq_of_begins prefixFree coded (List.prefix_refl _))⟩

end

/-- Where no code begins another, the scan of a bitstream gives the samples back (42_huffman_decoder
R186). -/
theorem scanBits_bitstream (prefixFree : PrefixFree table) (fits : FitsElements table)
    {samples : List Byte} (coded : ∀ x ∈ samples, 1 ≤ (entryOf table x.toNat).1) :
    scanBits table [] (bitstream table samples) = (samples, []) := by
  induction samples with
  | nil => rfl
  | cons x samples ih =>
    obtain ⟨coded, others⟩ := List.forall_mem_cons.mp coded
    rw [bitstream, List.flatMap_cons, ← bitstream,
      scanBits_of_match _ (codeOf_ne_nil coded) (noEarlierMatch_codeOf prefixFree coded)
        (matchSymbol_codeOf prefixFree fits coded), ih others, BitVec.ofNat_toNat,
      BitVec.setWidth_eq]

/-! ### The stored stream and table -/

/-- The bits put in `BITS` are read back from it. -/
theorem State.stream_putBits (s : State) (bits : Code) :
    (s.putBits bits).stream bits.length = bits := by
  refine List.ext_getElem (by simp [State.stream]) fun k _ hk => ?_
  simp only [State.stream, List.getElem_map, Space.getElem_readUpTo]
  rw [s.bits_putBits_stream hk]
  simp

theorem State.stream_congr {s t : State} {n : Nat} (same : ∀ k < n, t.bits.read k = s.bits.read k) :
    t.stream n = s.stream n := by
  rw [State.stream, State.stream, Space.readUpTo_congr same]

theorem State.codeTable_congr {s t : State} (same : ∀ sym < 256,
    t.clen.read sym = s.clen.read sym ∧ t.cval.read sym = s.cval.read sym) :
    t.codeTable = s.codeTable := by
  refine List.map_congr_left fun sym hs => ?_
  obtain ⟨length, value⟩ := same sym (mem_symbols.mp hs)
  rw [length, value]

/-- The table of a list of codes, put in `CLEN` and `CVAL`, is read back from them. -/
theorem State.codeTable_putCodes (s : State) {codes : List (Nat × Code)}
    (fits : FitsElements (tableOf codes)) : (s.putCodes (tableOf codes)).codeTable = tableOf codes := by
  refine List.map_congr_left fun sym hs => ?_
  have hs := mem_symbols.mp hs
  have entry := fits.entryOf_codeTable s hs
  rwa [State.codeTable, tableOf, entryOf_map_symbols _ hs, entryOf_map_symbols _ hs] at entry

section

variable {s : State} (nonempty : 0 < s.len) (fits : s.len ≤ 2 ^ 32 - 1)

include nonempty fits

theorem State.codeTable_afterHenc : s.afterHenc.codeTable = sampleTable s.samples :=
  s.codeTable_putCodes (State.fitsElements_sampleTable nonempty fits)

/-- The scan with the table `HENC` derives, of the stream it writes. -/
theorem State.scanBits_bitstream_samples :
    scanBits (sampleTable s.samples) [] (bitstream (sampleTable s.samples) s.samples) =
      (s.samples, []) := by
  obtain ⟨present, small⟩ := State.samples_present_small nonempty fits
  exact scanBits_bitstream (State.sampleTree_lawful nonempty fits).prefixFree_treeTable
    (State.fitsElements_sampleTable nonempty fits)
    fun _ hx => (sampleTable_length_range present small hx).1

theorem State.toNat_bitlen_afterHenc :
    s.afterHenc.bitlen.toNat = (bitstream (sampleTable s.samples) s.samples).length := by
  have range := State.streamLength_range nonempty fits
  rw [s.afterHenc_eq, BitVec.toNat_ofNat, length_bitstream, Nat.mod_eq_of_lt (by omega)]

theorem State.stream_afterHenc : s.afterHenc.stream s.afterHenc.bitlen.toNat =
    bitstream (sampleTable s.samples) s.samples := by
  rw [State.toNat_bitlen_afterHenc nonempty fits]
  exact (s.putCodes _).stream_putBits _

end

/-- Settles O48: `HDEC` scans the stored stream with the stored table, which gives the samples. -/
theorem huffmanRoundTrip : Obligations.HuffmanRoundTrip := by
  intro s nonempty fits
  refine ⟨_, exec_henc_eq nonempty fits, rfl, fun u hw hh bitlen bits codes => ?_⟩
  have size : u.len = s.len := by rw [State.len, hw, hh]; rfl
  have scan : scanBits u.codeTable [] (u.stream u.bitlen.toNat) = (s.samples, []) := by
    rw [bitlen, State.codeTable_congr codes, State.stream_congr bits,
      State.codeTable_afterHenc nonempty fits, State.stream_afterHenc nonempty fits,
      State.scanBits_bitstream_samples nonempty fits]
  have number : s.samples.length = u.len := s.length_samples.trans size.symm
  refine ⟨_, exec_hdec_eq (size.trans_le fits) (by rw [scan]) (by rw [scan, number]), rfl, rfl,
    fun i hi => ?_⟩
  have inside : i < s.samples.length := by rwa [s.length_samples]
  rw [State.complete_pix, State.putPix_pix, scan, Space.read_writeFrom_zero _ _ inside]
  exact Space.getElem_readUpTo _ _ _ _

end Sys2Proof.Machine
end

section
/-! PROOF. The numbers of the block transform: the threshold (43_block_transform R206, R207, R209) and the
conversion of a value to a sample (R211). -/

namespace Sys2Proof.Machine

/-! ### The threshold -/

theorem finite_iff_not_special {x : Flt} :
    fltIsFinite x = true ↔ fltIsNaN x = false ∧ fltIsInf x = false := by
  unfold fltIsFinite fltIsNaN fltIsInf
  by_cases special : fltExponent x = 2047 <;> simp [special]

/-- A magnitude has no sign, so its key is its bits. -/
theorem fltKey_abs (x : Flt) : fltKey (fltAbs x) = fltMagnitude x := by
  rw [fltKey, fltNegative_abs, if_neg Bool.false_ne_true, fltMagnitude_abs]

/-- A threshold of either zero, or with the sign set, is above no magnitude (43_block_transform R207). -/
theorem fltKey_nonpos {q : Flt} (h : fltMagnitude q = 0 ∨ fltNegative q = true) : fltKey q ≤ 0 := by
  unfold fltKey
  rcases h with zero | negative
  · simp [zero]
  · simp [negative]

/-- The coefficients that a threshold zeroes (43_block_transform R206). -/
def Suppressed (c q : Flt) : Prop :=
  fltIsNaN c = false ∧ fltIsNaN q = false ∧ (fltMagnitude c : Int) < fltKey q

theorem fltLt_abs_iff {c q : Flt} : fltLt (fltAbs c) q = true ↔ Suppressed c q := by
  simp [fltLt, Suppressed, fltIsNaN_abs, fltKey_abs, and_assoc]

theorem quant_of_suppressed {c q : Flt} (h : Suppressed c q) : quant binary64 c q = 0 :=
  if_pos (fltLt_abs_iff.mpr h)

theorem quant_of_not_suppressed {c q : Flt} (h : ¬ Suppressed c q) : quant binary64 c q = c :=
  if_neg (fltLt_abs_iff.not.mpr h)

theorem quant_eq_zero_iff {c q : Flt} : quant binary64 c q = 0 ↔ c = 0 ∨ Suppressed c q := by
  by_cases h : Suppressed c q
  · simp [quant_of_suppressed h, h]
  · simp [quant_of_not_suppressed h, h]

/-- A larger threshold suppresses what a smaller one does (43_block_transform R209). -/
theorem Suppressed.mono {c q₁ q₂ : Flt} (h : Suppressed c q₁) (ordered : fltIsNaN q₂ = false)
    (larger : fltKey q₁ ≤ fltKey q₂) : Suppressed c q₂ := by
  obtain ⟨number, -, below⟩ := h
  exact ⟨number, ordered, below.trans_le larger⟩

/-- `+infinity` is above every finite magnitude. -/
theorem suppressed_by_infinity {c : Flt} (finite : fltIsFinite c = true) :
    Suppressed c 0x7FF0000000000000 := by
  obtain ⟨number, bounded⟩ := finite_iff_not_special.mp finite
  have key : fltKey 0x7FF0000000000000 = 2047 * 2 ^ 52 := by decide
  have small := fltMagnitude_of_finite number bounded
  exact ⟨number, by decide, by rw [key]; omega⟩

/-- Settles O51: each edge of the threshold is a way to be suppressed or not. -/
theorem quantizationEdges : Obligations.QuantizationEdges := by
  intro c q
  have kept_if_nonpos (h : fltKey q ≤ 0) : quant binary64 c q = c :=
    quant_of_not_suppressed fun ⟨_, _, below⟩ => by omega
  refine ⟨fun zero => kept_if_nonpos (fltKey_nonpos (.inl zero)),
    fun negative => kept_if_nonpos (fltKey_nonpos (.inr negative)),
    fun nan => quant_of_not_suppressed fun ⟨_, number, _⟩ => by simp [nan] at number,
    fun nan => quant_of_not_suppressed fun ⟨number, _, _⟩ => by simp [nan] at number, ?_, ?_, ?_⟩
  · rintro rfl finite
    exact quant_of_suppressed (suppressed_by_infinity finite)
  · rintro rfl
    exact quant_of_not_suppressed fun ⟨_, _, below⟩ => by simp [fltKey_abs] at below
  · by_cases h : Suppressed c q
    · exact .inl (quant_of_suppressed h)
    · exact .inr (quant_of_not_suppressed h)

/-- Settles O52: what is zero under the smaller threshold was zero before or is suppressed by both. -/
theorem largerThresholdZeroesMore : Obligations.LargerThresholdZeroesMore := by
  intro coefficients q₁ q₂ _ ordered larger
  have zeroed (c : Flt) (h : quant binary64 c q₁ = 0) : quant binary64 c q₂ = 0 :=
    quant_eq_zero_iff.mpr ((quant_eq_zero_iff.mp h).imp_right fun s => s.mono ordered larger)
  refine ⟨zeroed, (coefficients.monotone_filter_right fun c h => ?_).length_le⟩
  exact beq_iff_eq.mpr (zeroed c (beq_iff_eq.mp h))

/-! ### Rounding to the nearest integer -/

/-- `rounded` is an integer nearest to `value / unit`, and even if there are two. -/
def NearestEven (value rounded : Int) (unit : Nat) : Prop :=
  2 * (value - rounded * unit).natAbs ≤ unit ∧
    (2 * (value - rounded * unit).natAbs = unit → rounded % 2 = 0)

theorem NearestEven.neg {value rounded : Int} {unit : Nat} (h : NearestEven value rounded unit) :
    NearestEven (-value) (-rounded) unit := by
  unfold NearestEven at h ⊢
  rw [neg_mul]
  omega

theorem nearestEven_roundNearestEven (m : Nat) {d : Nat} (positive : 0 < d) :
    NearestEven m (roundNearestEven m d) d := by
  have whole : (m : Int) = (m / d : Nat) * d + (m % d : Nat) := by
    exact_mod_cast (Nat.div_add_mod' m d).symm
  have rest := Nat.mod_lt m positive
  have up : ((m / d + 1 : Nat) : Int) * d = (m / d : Nat) * d + d := by push_cast; ring
  rw [NearestEven, roundNearestEven]
  split
  · rw [up]
    omega
  · omega

/-- The rounding is that of the magnitude, with the sign put back. -/
theorem nearestEven_fltRoundNearestEven (x : Flt) :
    NearestEven (fltFixed x) (fltRoundNearestEven x) (2 ^ 1074) := by
  have magnitude : NearestEven (fixedMagnitude (fltMagnitude x))
      (roundNearestEven (fixedMagnitude (fltMagnitude x)) (2 ^ 1074)) (2 ^ 1074) :=
    nearestEven_roundNearestEven _ (by positivity)
  by_cases negative : fltNegative x = true
  · have value : fltFixed x = -(fixedMagnitude (fltMagnitude x) : Int) := by
      rw [fltFixed_eq, if_pos negative]
    rw [fltRoundNearestEven, if_pos negative, value, Int.natAbs_neg, Int.natAbs_natCast]
    exact magnitude.neg
  · have value : fltFixed x = fixedMagnitude (fltMagnitude x) := by
      rw [fltFixed_eq, if_neg negative]
    rw [fltRoundNearestEven, if_neg negative, value, Int.natAbs_natCast]
    exact magnitude

theorem isFinite_iff {f : FltFormat} {x : Flt} :
    f.isFinite x = true ↔ f.isNaN x = false ∧ f.isInf x = false := by
  simp [FltFormat.isFinite]

/-- Any `round8` leaves the values of samples unchanged. -/
theorem round8_ofByte (c : Config) (b : Byte) : c.round8 (c.flt.ofByte b) = b.toNat := by
  obtain ⟨number, bounded, value⟩ := c.flt.exact_byte b
  exact c.round8_integer _ _ (isFinite_iff.mpr ⟨number, bounded⟩) value

/-- Settles O55: the three properties, the first at the unit of binary64. -/
theorem defaultRoundingIsNearestEven : Obligations.DefaultRoundingIsNearestEven := by
  refine ⟨fun x _ => ?_, fun x y _ _ ordered => ?_, round8_ofByte machineConfig⟩
  · have unit : ((2 ^ 1074 : Nat) : Int) = 2 ^ 1074 := Nat.cast_pow 2 1074
    rw [← unit]
    exact nearestEven_fltRoundNearestEven x
  · refine fltRoundNearestEven_mono x y (not_lt.mp ?_)
    rw [fltFixed_lt_iff]
    exact not_lt.mpr ordered

/-! ### The conversion to a sample -/

theorem sat8_of_nan {c : Config} {x : Flt} (free : Byte) (nan : c.flt.isNaN x = true) :
    sat8 c free x = free := if_pos nan

theorem sat8_of_inf {c : Config} {x : Flt} (free : Byte) (number : c.flt.isNaN x = false)
    (infinite : c.flt.isInf x = true) :
    sat8 c free x = if c.flt.isNegative x then 0 else 255 := by
  rw [sat8, number, infinite]
  rfl

theorem toNat_sat8_of_finite {c : Config} {x : Flt} (free : Byte) (finite : c.flt.isFinite x = true) :
    ((sat8 c free x).toNat : Int) = min 255 (max 0 (c.round8 x)) := by
  obtain ⟨number, bounded⟩ := isFinite_iff.mp finite
  rw [sat8, number, bounded]
  simp only [Bool.false_eq_true, if_false, BitVec.toNat_ofNat]
  omega

/-- Settles O56: `sat8` by the class of the value. -/
theorem sampleConversion : Obligations.SampleConversion := by
  intro c free x
  refine ⟨toNat_sat8_of_finite free, sat8_of_inf free, sat8_of_nan free, ?_⟩
  cases nan : c.flt.isNaN x
  · cases infinite : c.flt.isInf x
    · exact .inl (isFinite_iff.mpr ⟨nan, infinite⟩)
    · exact .inr (.inl rfl)
  · exact .inr (.inr rfl)

end Sys2Proof.Machine
end

section
/-! PROOF. `XFWD.DCT` and `XINV.DCT` (43_block_transform R202 to R212): where the samples of a block and of the
partial region stand, what the two commands write there, and what comes back after both. -/

namespace Sys2Proof.Machine

/-! ### The shape of a buffer -/

/-- The buffer has a full block of a legal edge and fits `PIX`: what the two commands check
(43_block_transform R204). -/
structure HasFullBlock (c : Config) (s : State) : Prop where
  fits : s.len ≤ c.maxLen
  edge_pos : 1 ≤ s.blk.toNat
  edge_le : s.blk.toNat ≤ c.blkMax
  width : s.blk.toNat ≤ s.w.toNat
  height : s.blk.toNat ≤ s.h.toNat

theorem HasFullBlock.badBlockShape_eq {c : Config} {s : State} (shape : HasFullBlock c s) :
    badBlockShape c s = false := by
  obtain ⟨-, edge_pos, edge_le, width, height⟩ := shape
  simp only [badBlockShape, Bool.or_eq_false_iff, decide_eq_false_iff_not]
  omega

/-- The shape is that of `W`, `H` and `BLK`. -/
structure SameShape (u s : State) : Prop where
  w : u.w = s.w
  h : u.h = s.h
  blk : u.blk = s.blk

section

variable {u s : State} (same : SameShape u s)

include same

theorem SameShape.len : u.len = s.len := by rw [State.len, State.len, same.w, same.h]

theorem SameShape.hasFullBlock {c : Config} (shape : HasFullBlock c s) : HasFullBlock c u := by
  obtain ⟨fits, edge_pos, edge_le, width, height⟩ := shape
  constructor <;> simpa only [same.len, same.w, same.h, same.blk]

end

/-! ### The places of a buffer -/

/-- Row `r` and column `col` are inside the buffer. -/
theorem State.index_lt_len {s : State} {r col : Nat} (hr : r < s.h.toNat) (hc : col < s.w.toNat) :
    r * s.w.toNat + col < s.len := by
  calc r * s.w.toNat + col < (r + 1) * s.w.toNat := by rw [Nat.succ_mul]; omega
    _ ≤ s.h.toNat * s.w.toNat := Nat.mul_le_mul_right _ hr
    _ = s.len := Nat.mul_comm _ _

/-- The quotient and the remainder of an index are its row and column. -/
theorem mul_add_div_mod {n x : Nat} (hx : x < n) (b : Nat) :
    (b * n + x) / n = b ∧ (b * n + x) % n = x := by
  constructor
  · rw [Nat.mul_comm, Nat.mul_add_div (by omega), Nat.div_eq_of_lt hx, Nat.add_zero]
  · rw [Nat.mul_comm, Nat.mul_add_mod, Nat.mod_eq_of_lt hx]

theorem State.inFullBlock_iff {s : State} {r col : Nat} (hc : col < s.w.toNat) :
    s.inFullBlock (r * s.w.toNat + col) = true ↔
      r < s.h.toNat / s.blk.toNat * s.blk.toNat ∧ col < s.w.toNat / s.blk.toNat * s.blk.toNat := by
  obtain ⟨row, column⟩ := mul_add_div_mod hc r
  simp only [State.inFullBlock, row, column, Bool.and_eq_true, decide_eq_true_eq]

/-- The partial region (43_block_transform R202). -/
theorem State.inFullBlock_partial {s : State} {r col : Nat} (hc : col < s.w.toNat)
    (outside : s.h.toNat / s.blk.toNat * s.blk.toNat ≤ r ∨
      s.w.toNat / s.blk.toNat * s.blk.toNat ≤ col) :
    s.inFullBlock (r * s.w.toNat + col) = false := by
  rw [Bool.eq_false_iff, ne_eq, State.inFullBlock_iff hc]
  omega

/-- A place of a whole block lies below the last whole block's end. -/
theorem place_lt {b count n x : Nat} (hb : b < count) (hx : x < n) : b * n + x < count * n := by
  calc b * n + x < (b + 1) * n := by rw [Nat.succ_mul]; omega
    _ ≤ count * n := Nat.mul_le_mul_right n hb

/-- Sample `(x, y)` of block `(bi, bj)` is one of a full block (43_block_transform R202). -/
structure InBlock (s : State) (bi bj x y : Nat) : Prop where
  block_row : bi < s.h.toNat / s.blk.toNat
  block_col : bj < s.w.toNat / s.blk.toNat
  row : x < s.blk.toNat
  col : y < s.blk.toNat

namespace InBlock

variable {s : State} {bi bj x y : Nat} (place : InBlock s bi bj x y)

include place

theorem row_lt : bi * s.blk.toNat + x < s.h.toNat / s.blk.toNat * s.blk.toNat :=
  place_lt place.block_row place.row

theorem col_lt : bj * s.blk.toNat + y < s.w.toNat / s.blk.toNat * s.blk.toNat :=
  place_lt place.block_col place.col

theorem col_lt_width : bj * s.blk.toNat + y < s.w.toNat :=
  place.col_lt.trans_le (Nat.div_mul_le_self _ _)

theorem index_lt : s.blockIndex bi bj x y < s.len :=
  State.index_lt_len (place.row_lt.trans_le (Nat.div_mul_le_self _ _)) place.col_lt_width

theorem inFullBlock : s.inFullBlock (s.blockIndex bi bj x y) = true :=
  (State.inFullBlock_iff place.col_lt_width).mpr ⟨place.row_lt, place.col_lt⟩

/-- The block and the place in it that an index names are those it was formed from. -/
theorem blockValue (kernel : Nat → List Flt → Nat → Nat → Flt) (value : Nat → Flt) :
    s.blockValue kernel value (s.blockIndex bi bj x y) =
      kernel s.blk.toNat (s.block value bi bj) x y := by
  obtain ⟨row, col⟩ := mul_add_div_mod place.col_lt_width (bi * s.blk.toNat + x)
  obtain ⟨block_row, x_eq⟩ := mul_add_div_mod place.row bi
  obtain ⟨block_col, y_eq⟩ := mul_add_div_mod place.col bj
  simp only [State.blockValue, State.blockIndex, row, col, block_row, x_eq, block_col, y_eq]

end InBlock

theorem SameShape.blockIndex {u s : State} (same : SameShape u s) (bi bj x y : Nat) :
    u.blockIndex bi bj x y = s.blockIndex bi bj x y := by
  rw [State.blockIndex, State.blockIndex, same.w, same.blk]

theorem SameShape.inBlock {u s : State} (same : SameShape u s) {bi bj x y : Nat}
    (place : InBlock s bi bj x y) : InBlock u bi bj x y := by
  obtain ⟨block_row, block_col, row, col⟩ := place
  constructor <;> simpa only [same.w, same.h, same.blk]

/-- The places of a block, in row-major order. -/
theorem InBlock.of_lt {s : State} {bi bj k : Nat} (hi : bi < s.h.toNat / s.blk.toNat)
    (hj : bj < s.w.toNat / s.blk.toNat) (hk : k < s.blk.toNat * s.blk.toNat) :
    InBlock s bi bj (k / s.blk.toNat) (k % s.blk.toNat) :=
  ⟨hi, hj, Nat.div_lt_of_lt_mul hk, Nat.mod_lt _ (Nat.pos_of_mul_pos_left (Nat.zero_lt_of_lt hk))⟩

/-! ### The two commands -/

/-- A range write of a function's values, read at an index of the range. -/
theorem Space.read_writeFrom_range {width : Nat} (sp : Space width) (f : Nat → BitVec width)
    {n k : Nat} (hk : k < n) : (sp.writeFrom 0 ((List.range n).map f)).read k = f k := by
  rw [Space.read_writeFrom_zero _ _ (by simpa using hk), List.getElem_map, List.getElem_range]

theorem Space.read_writeFrom_range_beyond {width : Nat} (sp : Space width) (f : Nat → BitVec width)
    {n k : Nat} (hk : n ≤ k) : (sp.writeFrom 0 ((List.range n).map f)).read k = sp.read k :=
  Space.read_writeFrom_beyond _ _ (by simpa using hk)

/-- The state after an `XFWD.DCT` that succeeds. -/
def State.afterXfwdDct (s : State) : State :=
  (s.putCoef ((List.range s.len).map (s.forwardDct machineConfig))).complete

/-- The state after an `XINV.DCT` that succeeds. -/
def State.afterXinvDct (s : State) : State :=
  (s.putPix ((List.range s.len).map (s.inverseDct machineConfig))).tick.complete

section

variable {s : State} (shape : HasFullBlock machineConfig s)

include shape

theorem exec_xfwdDct_eq : exec .xfwdDct s = .next s.afterXfwdDct := by
  rw [exec_xfwdDct]
  rcases xfwdDct_cases machineConfig s with ⟨exceeds, -⟩ | ⟨-, bad, -⟩ | ⟨-, -, e⟩
  · exact absurd exceeds (Nat.not_lt.mpr shape.fits)
  · exact absurd bad (Bool.eq_false_iff.mp shape.badBlockShape_eq)
  · rw [e, conclude_ok]
    rfl

theorem exec_xinvDct_eq : exec .xinvDct s = .next s.afterXinvDct := by
  rw [exec_xinvDct]
  rcases xinvDct_cases machineConfig s with ⟨exceeds, -⟩ | ⟨-, bad, -⟩ | ⟨-, -, e⟩
  · exact absurd exceeds (Nat.not_lt.mpr shape.fits)
  · exact absurd bad (Bool.eq_false_iff.mp shape.badBlockShape_eq)
  · rw [e, conclude_ok]
    rfl

end

theorem State.read_coef_afterXfwdDct {s : State} {i : Nat} (hi : i < s.len) :
    s.afterXfwdDct.coef.read i = s.forwardDct machineConfig i :=
  Space.read_writeFrom_range _ _ hi

theorem State.read_pix_afterXinvDct {s : State} {i : Nat} (hi : i < s.len) :
    s.afterXinvDct.pix.read i = s.inverseDct machineConfig i :=
  Space.read_writeFrom_range _ _ hi

/-! ### What is written -/

/-- The value of a sample (43_block_transform R201). -/
def State.sampleValue (s : State) (i : Nat) : Flt := fltOfByte (s.pix.read i)

/-- The coefficient before quantization at place `(u, v)` of block `(bi, bj)` (43_block_transform R205). -/
def State.blockCoefficient (s : State) (bi bj u v : Nat) : Flt :=
  machineConfig.dctFwd s.blk.toNat (s.block s.sampleValue bi bj) u v

theorem State.readFlt_coef (s : State) : s.coef.readFlt machineConfig.flt = s.coef.read :=
  funext fun i => readFlt_of_binary64 s.coef i

theorem State.forwardDct_eq (s : State) (i : Nat) : s.forwardDct machineConfig i =
    if s.inFullBlock i then quant binary64 (s.blockValue machineConfig.dctFwd s.sampleValue i) s.q
    else s.sampleValue i := by
  rw [State.forwardDct, machineConfig_flt, pattern_of_binary64]
  rfl

theorem State.inverseDct_eq (s : State) (i : Nat) : s.inverseDct machineConfig i =
    sat8 machineConfig (s.nanSample i) (if s.inFullBlock i then
      s.blockValue machineConfig.dctInv s.coef.read i else s.coef.read i) := by
  rw [State.inverseDct, State.readFlt_coef]

section

variable {s : State} {bi bj x y : Nat} (place : InBlock s bi bj x y)

include place

theorem InBlock.read_coef : s.afterXfwdDct.coef.read (s.blockIndex bi bj x y) =
    quant binary64 (s.blockCoefficient bi bj x y) s.q := by
  rw [State.read_coef_afterXfwdDct place.index_lt, State.forwardDct_eq, if_pos place.inFullBlock,
    place.blockValue]
  rfl

theorem InBlock.read_pix : s.afterXinvDct.pix.read (s.blockIndex bi bj x y) =
    sat8 machineConfig (s.nanSample (s.blockIndex bi bj x y))
      (machineConfig.dctInv s.blk.toNat (s.block s.coef.read bi bj) x y) := by
  rw [State.read_pix_afterXinvDct place.index_lt, State.inverseDct_eq, if_pos place.inFullBlock,
    place.blockValue]

end

section

variable {s : State} {r col : Nat} (hr : r < s.h.toNat) (hc : col < s.w.toNat)
  (outside : s.h.toNat / s.blk.toNat * s.blk.toNat ≤ r ∨
    s.w.toNat / s.blk.toNat * s.blk.toNat ≤ col)

include hr hc outside

theorem State.read_coef_partial : s.afterXfwdDct.coef.read (r * s.w.toNat + col) =
    fltOfByte (s.pix.read (r * s.w.toNat + col)) := by
  rw [State.read_coef_afterXfwdDct (State.index_lt_len hr hc), State.forwardDct_eq,
    State.inFullBlock_partial hc outside, if_neg Bool.false_ne_true, State.sampleValue]

theorem State.read_pix_partial : s.afterXinvDct.pix.read (r * s.w.toNat + col) =
    sat8 machineConfig (s.nanSample (r * s.w.toNat + col)) (s.coef.read (r * s.w.toNat + col)) := by
  rw [State.read_pix_afterXinvDct (State.index_lt_len hr hc), State.inverseDct_eq,
    State.inFullBlock_partial hc outside, if_neg Bool.false_ne_true]

end

/-- Settles O49: `COEF` by the places of the full blocks and those of the partial region. -/
theorem xfwdDctWritesTheCoefficients : Obligations.XfwdDctWritesTheCoefficients := by
  intro s fits edge_pos edge_le width height n at' block
  refine ⟨s.afterXfwdDct.coef, exec_xfwdDct_eq ⟨fits, edge_pos, edge_le, width, height⟩,
    fun bi hi bj hj u hu v hv => InBlock.read_coef ⟨hi, hj, hu, hv⟩,
    fun r hr col hc => State.read_coef_partial hr hc, fun i => Space.read_writeFrom_range_beyond _ _⟩

/-- Settles O50: `PIX` by the places of the full blocks and those of the partial region. -/
theorem xinvDctWritesTheSamples : Obligations.XinvDctWritesTheSamples := by
  intro s fits edge_pos edge_le width height n at' block
  refine ⟨s.afterXinvDct.pix, s.draws + 1, s.nanSample,
    exec_xinvDct_eq ⟨fits, edge_pos, edge_le, width, height⟩,
    fun bi hi bj hj u hu v hv => InBlock.read_pix ⟨hi, hj, hu, hv⟩,
    fun r hr col hc => State.read_pix_partial hr hc, fun i => Space.read_writeFrom_range_beyond _ _⟩

/-! ### The round trip -/

/-- Settles O53: a sample of the partial region is converted exactly both ways. -/
theorem partialRegionIsRestored : Obligations.PartialRegionIsRestored := by
  intro s fits edge_pos edge_le width height
  have shape : HasFullBlock machineConfig s := ⟨fits, edge_pos, edge_le, width, height⟩
  refine ⟨_, exec_xfwdDct_eq shape, fun u hw hh hb kept => ?_⟩
  have same : SameShape u s := ⟨hw, hh, hb⟩
  refine ⟨_, exec_xinvDct_eq (same.hasFullBlock shape), rfl, fun r hr col hc outside => ?_⟩
  have written : u.coef.read (r * s.w.toNat + col) = fltOfByte (s.pix.read (r * s.w.toNat + col)) := by
    rw [kept _ (State.index_lt_len hr hc), State.read_coef_partial hr hc outside]
  rw [← same.w, ← same.h, ← same.blk] at outside
  rw [← same.h] at hr
  rw [← same.w] at hc written ⊢
  rw [State.read_pix_partial hr hc outside, written]
  exact sat8_ofByte machineConfig _ _

section

variable {s u : State} {bi bj : Nat} (same : SameShape u s)
  (kept : ∀ i < s.len, u.coef.read i = s.afterXfwdDct.coef.read i)
  (hi : bi < s.h.toNat / s.blk.toNat) (hj : bj < s.w.toNat / s.blk.toNat)
  (none_below : ∀ x < s.blk.toNat, ∀ y < s.blk.toNat,
    fltLt (fltAbs (s.blockCoefficient bi bj x y)) s.q = false)

include same kept hi hj none_below

/-- With nothing zeroed the second command finds the first kernel's own coefficients. -/
theorem block_coef_eq : u.block u.coef.read bi bj =
    (List.range (s.blk.toNat * s.blk.toNat)).map fun k =>
      s.blockCoefficient bi bj (k / s.blk.toNat) (k % s.blk.toNat) := by
  rw [State.block, same.blk]
  refine List.map_congr_left fun k hk => ?_
  have place := InBlock.of_lt hi hj (List.mem_range.mp hk)
  rw [same.blockIndex, kept _ place.index_lt, place.read_coef]
  exact quant_of_not_suppressed
    (fltLt_abs_iff.not.mp (Bool.eq_false_iff.mp (none_below _ place.row _ place.col)))

/-- The samples that come back are the block put through both kernels. -/
theorem block_pix_eq :
    ((List.range (s.blk.toNat * s.blk.toNat)).map fun k =>
      u.afterXinvDct.pix.read (s.blockIndex bi bj (k / s.blk.toNat) (k % s.blk.toNat))) =
    blockThroughKernels machineConfig s.blk.toNat
      ((List.range (s.blk.toNat * s.blk.toNat)).map fun k =>
        s.pix.read (s.blockIndex bi bj (k / s.blk.toNat) (k % s.blk.toNat)))
      fun k => u.nanSample (s.blockIndex bi bj (k / s.blk.toNat) (k % s.blk.toNat)) := by
  refine List.map_congr_left fun k hk => ?_
  have place := InBlock.of_lt hi hj (List.mem_range.mp hk)
  rw [← same.blockIndex, (same.inBlock place).read_pix,
    block_coef_eq same kept hi hj none_below, same.blockIndex, same.blk, List.map_map]
  rfl

end

/-- Settles O54: block by block, the pairs are those of `K_RT`. -/
theorem blockRoundTripWithinTolerance : Obligations.BlockRoundTripWithinTolerance := by
  intro num den s _ tolerance fits edge_pos edge_le width height n at' block none_below
  have shape : HasFullBlock machineConfig s := ⟨fits, edge_pos, edge_le, width, height⟩
  refine ⟨_, exec_xfwdDct_eq shape, fun u hw hh hb kept => ?_⟩
  have same : SameShape u s := ⟨hw, hh, hb⟩
  refine ⟨_, exec_xinvDct_eq (same.hasFullBlock shape), fun bi hi bj hj => ?_⟩
  have trip := tolerance n edge_pos edge_le
    ((List.range (n * n)).map fun k => s.pix.read (s.blockIndex bi bj (k / n) (k % n))) (by simp)
    fun k => u.nanSample (s.blockIndex bi bj (k / n) (k % n))
  rwa [← block_pix_eq same kept hi hj (none_below bi hi bj hj), List.zip_map'] at trip

end Sys2Proof.Machine
end

section
/-! PROOF. The reference subband kernels on samples (44_wavelet_transform R232): the sums and halves of numbers
with few significant bits are exact in binary64, so the kernels lose nothing. -/

namespace Sys2Proof.Machine

/-! ### The bits of a value and the number it stands for -/

/-- A significand of at most 53 bits, with the exponent that shifts it left, as the bits of a magnitude. -/
theorem fixedMagnitude_of_significand {shift q : Nat} (small : q < 2 ^ 53)
    (leading : shift = 0 ∨ 2 ^ 52 ≤ q) : fixedMagnitude (shift * 2 ^ 52 + q) = q * 2 ^ shift := by
  unfold fixedMagnitude
  by_cases hidden : 2 ^ 52 ≤ q
  · have exponent : (shift * 2 ^ 52 + q) / 2 ^ 52 = shift + 1 := by omega
    have fraction : (shift * 2 ^ 52 + q) % 2 ^ 52 = q - 2 ^ 52 := by omega
    rw [exponent, fraction, if_neg (Nat.succ_ne_zero _), Nat.add_sub_cancel,
      Nat.add_sub_of_le hidden]
  · obtain rfl : shift = 0 := leading.resolve_right hidden
    have exponent : (0 * 2 ^ 52 + q) / 2 ^ 52 = 0 := by omega
    have fraction : (0 * 2 ^ 52 + q) % 2 ^ 52 = q := by omega
    rw [exponent, fraction, if_pos rfl]

section

variable {p : Nat} (fits : p < 2 ^ 63) (negative : Prop) [Decidable negative]

include fits

theorem fltMagnitude_ofNat :
    fltMagnitude (BitVec.ofNat 64 (if negative then 2 ^ 63 + p else p)) = p := by
  simp only [fltMagnitude, BitVec.extractLsb'_toNat, BitVec.toNat_ofNat]
  split <;> omega

theorem fltNegative_ofNat :
    fltNegative (BitVec.ofNat 64 (if negative then 2 ^ 63 + p else p)) = decide negative := by
  simp only [fltNegative, BitVec.getLsbD, BitVec.toNat_ofNat, Nat.testBit_eq_decide_div_mod_eq]
  split <;> simp [*] <;> omega

end

theorem fltIsFinite_of_magnitude_lt {x : Flt} (h : fltMagnitude x < 2047 * 2 ^ 52) :
    fltIsFinite x = true := by
  rw [fltIsFinite, fltExponent_eq, bne_iff_ne]
  omega

/-! ### Exact arithmetic -/

/-- The value `x` is finite and stands for `k` times `2 ^ e` steps of the format. -/
structure IsMultiple (e : Nat) (x : Flt) (k : Int) : Prop where
  finite : fltIsFinite x = true
  value : fltFixed x = k * 2 ^ e

/-- A multiple of a power of two with at most 53 significant bits is a significand with the shift that
rounding gives it. -/
theorem exists_significand {e n m shift : Nat} (small : n < 2 ^ 53) (multiple : m = n * 2 ^ e)
    (rounding : m.log2 - 52 = shift) :
    ∃ q < 2 ^ 53, m = q * 2 ^ shift ∧ (shift = 0 ∨ 2 ^ 52 ≤ q) ∧ shift ≤ e := by
  rcases Nat.eq_zero_or_pos n with rfl | positive
  · obtain rfl : m = 0 := by rw [multiple, Nat.zero_mul]
    obtain rfl : 0 = shift := rounding
    exact ⟨0, by decide, rfl, .inl rfl, Nat.zero_le e⟩
  have nonzero : m ≠ 0 := by
    rw [multiple]
    exact Nat.mul_ne_zero positive.ne' (Nat.two_pow_pos e).ne'
  have above : 2 ^ m.log2 ≤ m := Nat.log2_self_le nonzero
  have below : m < 2 ^ (m.log2 + 1) := Nat.lt_log2_self
  have log_lt : m.log2 < 53 + e := by
    rw [Nat.log2_lt nonzero, multiple, Nat.pow_add]
    exact Nat.mul_lt_mul_of_pos_right small (Nat.two_pow_pos e)
  have shift_le : shift ≤ e := by omega
  obtain ⟨q, rfl⟩ : 2 ^ shift ∣ m := multiple ▸ (Nat.pow_dvd_pow 2 shift_le).mul_left n
  refine ⟨q, ?_, Nat.mul_comm _ _, or_iff_not_imp_left.mpr fun shifted => ?_, shift_le⟩
  · refine Nat.lt_of_mul_lt_mul_left (below.trans_le ?_)
    rw [← Nat.pow_add]
    exact Nat.pow_le_pow_right (by decide) (by omega)
  · have log_eq : shift + 52 = (2 ^ shift * q).log2 := by omega
    refine Nat.le_of_mul_le_mul_left ?_ (Nat.two_pow_pos shift)
    rwa [← Nat.pow_add, log_eq]

/-- Rounding leaves a multiple with at most 53 significant bits as it is. -/
theorem isMultiple_fltOfFixed {e : Nat} (range : e ≤ 2045) {k : Int} (small : k.natAbs < 2 ^ 53) :
    IsMultiple e (fltOfFixed (k * 2 ^ e)) k := by
  have magnitude : (k * 2 ^ e).natAbs = k.natAbs * 2 ^ e := by
    rw [Int.natAbs_mul, Int.natAbs_pow]
    rfl
  generalize hz : k * 2 ^ e = z at magnitude ⊢
  generalize hs : z.natAbs.log2 - 52 = shift
  obtain ⟨q, q_lt, hq, leading, shift_le⟩ := exists_significand small magnitude hs
  have rounded : roundNearestEven z.natAbs (2 ^ shift) = q := by
    rw [hq, roundNearestEven_mul (Nat.two_pow_pos shift)]
  have bits : fltOfFixed z = BitVec.ofNat 64
      (if z < 0 then 2 ^ 63 + (shift * 2 ^ 52 + q) else shift * 2 ^ 52 + q) := by
    rw [fltOfFixed, hs, rounded, Nat.min_eq_left (by omega)]
  have fits : shift * 2 ^ 52 + q < 2 ^ 63 := by omega
  have magnitude_bits := fltMagnitude_ofNat fits (z < 0)
  rw [bits]
  refine ⟨fltIsFinite_of_magnitude_lt (by omega), ?_⟩
  rw [fltFixed_eq, magnitude_bits, fltNegative_ofNat fits,
    fixedMagnitude_of_significand q_lt leading, ← hq, hz]
  simp only [decide_eq_true_eq]
  omega

/-! ### The operations on multiples -/

theorem fltMagnitude_eq_zero_iff {x : Flt} : fltMagnitude x = 0 ↔ fltFixed x = 0 := by
  have lt := @fixedMagnitude_lt_iff 0 (fltMagnitude x)
  have zero : fixedMagnitude 0 = 0 := by decide
  rw [fltFixed_eq]
  split <;> omega

theorem fltMagnitude_neg (x : Flt) : fltMagnitude (fltNeg x) = fltMagnitude x := by
  have sign : (0x8000000000000000 : Flt).extractLsb' 0 63 = 0 := by decide
  rw [fltMagnitude, fltNeg, BitVec.extractLsb'_xor, sign]
  simp [fltMagnitude]

theorem fltMagnitude_and (x y : Flt) : fltMagnitude (x &&& y) = fltMagnitude x &&& fltMagnitude y := by
  rw [fltMagnitude, BitVec.extractLsb'_and, BitVec.toNat_and, fltMagnitude, fltMagnitude]

theorem fltNegative_neg (x : Flt) : fltNegative (fltNeg x) = !fltNegative x := by
  simp [fltNegative, fltNeg]

namespace IsMultiple

variable {e : Nat} {x y : Flt} {j k : Int}

/-- Either zero is the multiple 0. -/
theorem of_zero (zero : fltMagnitude x = 0) (product : k * 2 ^ e = 0) : IsMultiple e x k :=
  ⟨fltIsFinite_of_magnitude_lt (by omega), by rw [fltMagnitude_eq_zero_iff.mp zero, product]⟩

theorem neg (h : IsMultiple e x k) : IsMultiple e (fltNeg x) (-k) := by
  obtain ⟨finite, value⟩ := h
  refine ⟨?_, ?_⟩
  · rw [← finite]
    simp only [fltIsFinite, fltExponent_eq, fltMagnitude_neg]
  · rw [neg_mul, ← value, fltFixed_eq, fltFixed_eq, fltMagnitude_neg, fltNegative_neg]
    cases fltNegative x <;> simp

theorem add (range : e ≤ 2045) (hx : IsMultiple e x j) (hy : IsMultiple e y k)
    (small : (j + k).natAbs < 2 ^ 53) : IsMultiple e (fltAdd x y) (j + k) := by
  obtain ⟨x_number, x_bounded⟩ := finite_iff_not_special.mp hx.finite
  obtain ⟨y_number, y_bounded⟩ := finite_iff_not_special.mp hy.finite
  have sum : fltFixed x + fltFixed y = (j + k) * 2 ^ e := by rw [hx.value, hy.value, add_mul]
  rw [fltAdd, x_number, y_number, x_bounded, y_bounded]
  simp only [Bool.or_self, Bool.false_eq_true, if_false]
  split
  next zeros =>
    obtain ⟨x_zero, y_zero⟩ := zeros
    have zero : fltMagnitude (x &&& y) = 0 := by rw [fltMagnitude_and, x_zero, Nat.zero_and]
    refine of_zero zero ?_
    rw [← sum, fltMagnitude_eq_zero_iff.mp x_zero, fltMagnitude_eq_zero_iff.mp y_zero, add_zero]
  next =>
    rw [sum]
    exact isMultiple_fltOfFixed range small

theorem sub (range : e ≤ 2045) (hx : IsMultiple e x j) (hy : IsMultiple e y k)
    (small : (j - k).natAbs < 2 ^ 53) : IsMultiple e (fltSub x y) (j - k) :=
  sub_eq_add_neg j k ▸ hx.add range hy.neg (sub_eq_add_neg j k ▸ small)

/-- The magnitude of a half is a multiple, so rounding it changes nothing. -/
theorem half_magnitude (range : e ≤ 2045) (value : fltFixed x = 2 * k * 2 ^ e)
    (small : k.natAbs < 2 ^ 53) :
    IsMultiple e (fltOfFixed (roundNearestEven (fltFixed x).natAbs 2)) k.natAbs := by
  have double : (fltFixed x).natAbs = k.natAbs * 2 ^ e * 2 := by
    rw [value, mul_assoc, mul_comm, Int.natAbs_mul, Int.natAbs_mul, Int.natAbs_pow]
    rfl
  rw [double, roundNearestEven_mul (by decide), Nat.cast_mul, Nat.cast_pow]
  exact isMultiple_fltOfFixed range small

theorem half (range : e ≤ 2045) (h : IsMultiple e x (2 * k)) (small : k.natAbs < 2 ^ 53) :
    IsMultiple e (fltHalf x) k := by
  obtain ⟨finite, value⟩ := h
  have magnitude := half_magnitude range value small
  have sign := fltFixed_eq x
  have step : (0 : Int) < 2 ^ e := by positivity
  rw [mul_assoc] at value
  rw [fltHalf]
  split
  next special =>
    have zero : fltMagnitude x = 0 := special.resolve_left (by simp [finite])
    have no_steps := fltMagnitude_eq_zero_iff.mp zero
    exact of_zero zero (by omega)
  next =>
    dsimp only
    by_cases negative : fltNegative x = true
    · rw [if_pos negative] at sign ⊢
      have nonpos : k ≤ 0 := nonpos_of_mul_nonpos_left (by omega : k * 2 ^ e ≤ 0) step
      have opposite : -(k.natAbs : Int) = k := by omega
      exact opposite ▸ magnitude.neg
    · rw [if_neg negative] at sign ⊢
      have nonneg : 0 ≤ k := nonneg_of_mul_nonneg_left (by omega : 0 ≤ k * 2 ^ e) step
      have same : (k.natAbs : Int) = k := by omega
      exact same ▸ magnitude

end IsMultiple

/-! ### The reference subband kernels -/

/-- A multiple of which four may be added with no bit lost. -/
abbrev InRange (k : Int) : Prop := -2 ^ 51 < k ∧ k < 2 ^ 51

section

variable {e : Nat} {a b c d : Flt} {j k l m p q r t : Int}

/-- Each of the reference kernel's four results is half a signed sum, exactly, where that half is a
multiple of the same unit. -/
theorem isMultiple_referenceHaar (range : e ≤ 2045)
    (ha : IsMultiple e a j) (hb : IsMultiple e b k) (hc : IsMultiple e c l) (hd : IsMultiple e d m)
    (hj : InRange j) (hk : InRange k) (hl : InRange l) (hm : InRange m)
    (hp : j + k + l + m = 2 * p) (hq : j + k - l - m = 2 * q) (hr : j - k + l - m = 2 * r)
    (ht : j - k - l + m = 2 * t) :
    IsMultiple e (referenceHaar a b c d).1 p ∧ IsMultiple e (referenceHaar a b c d).2.1 q ∧
    IsMultiple e (referenceHaar a b c d).2.2.1 r ∧ IsMultiple e (referenceHaar a b c d).2.2.2 t := by
  have sum := ha.add range hb (by omega)
  have difference := ha.sub range hb (by omega)
  have twice_p := (sum.add range hc (by omega)).add range hd (by omega)
  have twice_q := (sum.sub range hc (by omega)).sub range hd (by omega)
  have twice_r := (difference.add range hc (by omega)).sub range hd (by omega)
  have twice_t := (difference.sub range hc (by omega)).add range hd (by omega)
  rw [hp] at twice_p
  rw [hq] at twice_q
  rw [hr] at twice_r
  rw [ht] at twice_t
  exact ⟨twice_p.half range (by omega), twice_q.half range (by omega),
    twice_r.half range (by omega), twice_t.half range (by omega)⟩

end

/-- `sat8` of any value that stands for a sample's number is the sample, at any parameters. -/
theorem sat8_of_scaled {c : Config} {x : Flt} {b : Byte} (free : Byte)
    (finite : c.flt.isFinite x = true) (value : c.flt.scaled x = b.toNat * c.flt.unit) :
    sat8 c free x = b := by
  have rounded := toNat_sat8_of_finite free finite
  rw [c.round8_integer x b.toNat finite value] at rounded
  have := b.isLt
  exact BitVec.eq_of_toNat_eq (by omega)

theorem binary64_unit : (binary64.unit : Int) = 2 * 2 ^ 1073 :=
  (Nat.cast_pow 2 1074).trans (pow_succ' 2 1073)

/-- A sample in halves, of which the coefficients of a cell of samples are multiples. -/
theorem isMultiple_ofByte (b : Byte) : IsMultiple 1073 (fltOfByte b) (2 * b.toNat) := by
  obtain ⟨number, bounded, value⟩ := binary64.exact_byte b
  refine ⟨finite_iff_not_special.mpr ⟨number, bounded⟩, value.trans ?_⟩
  rw [binary64_unit, mul_left_comm, mul_assoc]

theorem IsMultiple.sat8_eq {x : Flt} {b : Byte} (h : IsMultiple 1073 x (2 * b.toNat)) (free : Byte) :
    sat8 referenceConfig free x = b := by
  refine sat8_of_scaled free (isFinite_iff.mpr (finite_iff_not_special.mp h.finite)) (h.value.trans ?_)
  rw [mul_assoc, mul_left_comm, ← binary64_unit]
  rfl

/-- Settles O60: in halves, each kernel is exact on a cell of samples, and the second undoes the first. -/
theorem referenceHaarIsExact : Obligations.ReferenceHaarIsExact := by
  intro a b c d free coefficients values
  have ha := a.isLt
  have hb := b.isLt
  have hc := c.isLt
  have hd := d.isLt
  obtain ⟨approximation, horizontal, vertical, diagonal⟩ := isMultiple_referenceHaar (by decide)
    (isMultiple_ofByte a) (isMultiple_ofByte b) (isMultiple_ofByte c) (isMultiple_ofByte d)
    (by omega) (by omega) (by omega) (by omega)
    (p := a.toNat + b.toNat + c.toNat + d.toNat) (q := a.toNat + b.toNat - c.toNat - d.toNat)
    (r := a.toNat - b.toNat + c.toNat - d.toNat) (t := a.toNat - b.toNat - c.toNat + d.toNat)
    (by ring) (by ring) (by ring) (by ring)
  obtain ⟨back_a, back_b, back_c, back_d⟩ := isMultiple_referenceHaar (by decide)
    approximation horizontal vertical diagonal (by omega) (by omega) (by omega) (by omega)
    (p := 2 * a.toNat) (q := 2 * b.toNat) (r := 2 * c.toNat) (t := 2 * d.toNat)
    (by ring) (by ring) (by ring) (by ring)
  obtain ⟨eq_a, eq_b, eq_c, eq_d⟩ : sat8 referenceConfig (free 0) values.1 = a ∧
      sat8 referenceConfig (free 1) values.2.1 = b ∧ sat8 referenceConfig (free 2) values.2.2.1 = c ∧
      sat8 referenceConfig (free 3) values.2.2.2 = d :=
    ⟨back_a.sat8_eq _, back_b.sat8_eq _, back_c.sat8_eq _, back_d.sat8_eq _⟩
  rw [eq_a, eq_b, eq_c, eq_d]
  simp [meanDifferenceAtMost]

end Sys2Proof.Machine
end

section
/-! PROOF. `XFWD.HAAR` and `XINV.HAAR` (44_wavelet_transform R231 to R237): where the samples and the subband
element of a cell stand, what the two commands write there, and what comes back after both. -/

namespace Sys2Proof.Machine

/-! ### The shape of a buffer -/

/-- The sizes are even and at least 2, and the buffer fits `PIX`: what the two commands check
(44_wavelet_transform R233). -/
structure HasCells (c : Config) (s : State) : Prop where
  fits : s.len ≤ c.maxLen
  width : 2 ≤ s.w.toNat
  height : 2 ≤ s.h.toNat
  width_even : s.w.toNat % 2 = 0
  height_even : s.h.toNat % 2 = 0

namespace HasCells

variable {c : Config} {s : State} (shape : HasCells c s)

include shape

theorem badCellShape_eq : badCellShape s = false := by
  obtain ⟨-, width, height, width_even, height_even⟩ := shape
  simp only [badCellShape, Bool.or_eq_false_iff, decide_eq_false_iff_not]
  omega

/-- The shape is that of `W` and `H`. -/
theorem congr {u : State} (hw : u.w = s.w) (hh : u.h = s.h) : HasCells c u := by
  obtain ⟨fits, width, height, width_even, height_even⟩ := shape
  constructor <;> simpa only [State.len, hw, hh]

/-- A subband has half the columns and half the rows (44_wavelet_transform R231). -/
theorem quarter_eq : s.len / 4 = s.h.toNat / 2 * (s.w.toNat / 2) := by
  obtain ⟨m, hm⟩ := Nat.dvd_of_mod_eq_zero shape.width_even
  obtain ⟨n, hn⟩ := Nat.dvd_of_mod_eq_zero shape.height_even
  have product : 2 * m * (2 * n) = 4 * (n * m) := by ring
  rw [State.len, hm, hn, product, Nat.mul_div_cancel_left _ (by decide),
    Nat.mul_div_cancel_left _ (by decide), Nat.mul_div_cancel_left _ (by decide)]

end HasCells

/-! ### The places of a cell -/

/-- The index of sample `(x, y)` of cell `(i, j)` (44_wavelet_transform R231). -/
def State.sampleIndex (s : State) (i j x y : Nat) : Nat :=
  (2 * i + x) * s.w.toNat + (2 * j + y)

/-- The subband element of cell `(i, j)` (44_wavelet_transform R231). -/
def State.subbandIndex (s : State) (i j : Nat) : Nat := i * (s.w.toNat / 2) + j

/-- Cell `(i, j)` is one of the buffer (44_wavelet_transform R231). -/
structure InCells (s : State) (i j : Nat) : Prop where
  row : i < s.h.toNat / 2
  col : j < s.w.toNat / 2

namespace InCells

variable {s : State} {i j : Nat} (cell : InCells s i j)

include cell

theorem congr {u : State} (hw : u.w = s.w) (hh : u.h = s.h) : InCells u i j :=
  ⟨hh ▸ cell.row, hw ▸ cell.col⟩

theorem subbandIndex_lt {c : Config} (shape : HasCells c s) : s.subbandIndex i j < s.len / 4 :=
  shape.quarter_eq ▸ place_lt cell.row cell.col

theorem cellIndex_subbandIndex (x y : Nat) :
    s.cellIndex (s.subbandIndex i j) x y = s.sampleIndex i j x y := by
  obtain ⟨row, col⟩ := mul_add_div_mod cell.col i
  rw [State.cellIndex, State.subbandIndex, row, col, State.sampleIndex]

/-- The coefficients written at a cell's element are those of its samples. -/
theorem forwardCell_eq (c : Config) :
    s.forwardCell c (s.subbandIndex i j) =
      c.haarFwd (c.flt.ofByte (s.pix.read (s.sampleIndex i j 0 0)))
        (c.flt.ofByte (s.pix.read (s.sampleIndex i j 0 1)))
        (c.flt.ofByte (s.pix.read (s.sampleIndex i j 1 0)))
        (c.flt.ofByte (s.pix.read (s.sampleIndex i j 1 1))) := by
  simp only [State.forwardCell, cell.cellIndex_subbandIndex]

variable {x y : Nat} (hx : x < 2) (hy : y < 2)

include hx hy

theorem sampleIndex_lt : s.sampleIndex i j x y < s.len := by
  obtain ⟨row, col⟩ := cell
  exact State.index_lt_len (by omega) (by omega)

/-- The sample written at a place of a cell is that component of the cell's values. -/
theorem inverseHaar_eq (c : Config) : s.inverseHaar c (s.sampleIndex i j x y) =
    sat8 c (s.nanSample (s.sampleIndex i j x y))
      (cellComponent (s.inverseCell c (s.subbandIndex i j)) x y) := by
  obtain ⟨-, col⟩ := cell
  obtain ⟨row_eq, col_eq⟩ := mul_add_div_mod (n := s.w.toNat) (x := 2 * j + y) (by omega) (2 * i + x)
  have place (b z : Nat) (hz : z < 2) : (2 * b + z) / 2 = b ∧ (2 * b + z) % 2 = z := by omega
  obtain ⟨cell_row, x_eq⟩ := place i x hx
  obtain ⟨cell_col, y_eq⟩ := place j y hy
  simp only [State.inverseHaar, State.cellOf, State.subbandIndex, State.sampleIndex, row_eq, col_eq,
    cell_row, x_eq, cell_col, y_eq]

end InCells

/-! ### The two commands -/

/-- The state after an `XFWD.HAAR` that succeeds. -/
def State.afterXfwdHaar (s : State) : State :=
  (s.putSubbands ((List.range (s.len / 4)).map (s.forwardCell machineConfig))).complete

/-- The state after an `XINV.HAAR` that succeeds. -/
def State.afterXinvHaar (s : State) : State :=
  (s.putPix ((List.range s.len).map (s.inverseHaar machineConfig))).tick.complete

section

variable {s : State} (shape : HasCells machineConfig s)

include shape

theorem exec_xfwdHaar_eq : exec .xfwdHaar s = .next s.afterXfwdHaar := by
  rw [exec_xfwdHaar]
  rcases xfwdHaar_cases machineConfig s with ⟨exceeds, -⟩ | ⟨-, bad, -⟩ | ⟨-, -, e⟩
  · exact absurd exceeds (Nat.not_lt.mpr shape.fits)
  · exact absurd bad (Bool.eq_false_iff.mp shape.badCellShape_eq)
  · rw [e, conclude_ok]
    rfl

theorem exec_xinvHaar_eq : exec .xinvHaar s = .next s.afterXinvHaar := by
  rw [exec_xinvHaar]
  rcases xinvHaar_cases machineConfig s with ⟨exceeds, -⟩ | ⟨-, bad, -⟩ | ⟨-, -, e⟩
  · exact absurd exceeds (Nat.not_lt.mpr shape.fits)
  · exact absurd bad (Bool.eq_false_iff.mp shape.badCellShape_eq)
  · rw [e, conclude_ok]
    rfl

end

/-- The elements of the four subbands at an index (10_state R43). -/
def State.subbands (s : State) (k : Nat) : Flt × Flt × Flt × Flt :=
  (s.suba.read k, s.subh.read k, s.subv.read k, s.subd.read k)

theorem State.subbands_afterXfwdHaar {s : State} {k : Nat} (hk : k < s.len / 4) :
    s.afterXfwdHaar.subbands k = s.forwardCell machineConfig k := by
  simp only [State.subbands, State.afterXfwdHaar, State.complete_suba, State.complete_subh,
    State.complete_subv, State.complete_subd, State.putSubbands_suba, State.putSubbands_subh,
    State.putSubbands_subv, State.putSubbands_subd, List.map_map, Space.read_writeFrom_range _ _ hk,
    Function.comp_apply]

theorem State.subbands_afterXfwdHaar_beyond {s : State} {k : Nat} (hk : s.len / 4 ≤ k) :
    s.afterXfwdHaar.subbands k = s.subbands k := by
  simp only [State.subbands, State.afterXfwdHaar, State.complete_suba, State.complete_subh,
    State.complete_subv, State.complete_subd, State.putSubbands_suba, State.putSubbands_subh,
    State.putSubbands_subv, State.putSubbands_subd, List.map_map,
    Space.read_writeFrom_range_beyond _ _ hk]

theorem State.inverseCell_eq (s : State) (k : Nat) : s.inverseCell machineConfig k =
    machineConfig.haarInv (s.subbands k).1 (s.subbands k).2.1 (s.subbands k).2.2.1
      (s.subbands k).2.2.2 := by
  simp only [State.inverseCell, machineConfig_flt, readFlt_of_binary64, State.subbands]

theorem InCells.read_pix {s : State} {i j x y : Nat} (cell : InCells s i j) (hx : x < 2) (hy : y < 2) :
    s.afterXinvHaar.pix.read (s.sampleIndex i j x y) =
      sat8 machineConfig (s.nanSample (s.sampleIndex i j x y))
        (cellComponent (s.inverseCell machineConfig (s.subbandIndex i j)) x y) :=
  (Space.read_writeFrom_range _ _ (cell.sampleIndex_lt hx hy)).trans (cell.inverseHaar_eq hx hy _)

/-- Settles O57: the subbands by the elements of the cells. -/
theorem xfwdHaarWritesTheSubbands : Obligations.XfwdHaarWritesTheSubbands := by
  intro s fits width height width_even height_even
  have shape : HasCells machineConfig s := ⟨fits, width, height, width_even, height_even⟩
  refine ⟨s.afterXfwdHaar.suba, s.afterXfwdHaar.subh, s.afterXfwdHaar.subv, s.afterXfwdHaar.subd,
    exec_xfwdHaar_eq shape, fun i hi j hj => ?_, fun k hk => ?_⟩
  · have cell : InCells s i j := ⟨hi, hj⟩
    exact (State.subbands_afterXfwdHaar (cell.subbandIndex_lt shape)).trans (cell.forwardCell_eq _)
  · simpa only [State.subbands, Prod.mk.injEq] using State.subbands_afterXfwdHaar_beyond hk

/-- Settles O58: `PIX` by the places of the cells. -/
theorem xinvHaarWritesTheSamples : Obligations.XinvHaarWritesTheSamples := by
  intro s fits width height width_even height_even
  refine ⟨s.afterXinvHaar.pix, s.draws + 1, s.nanSample,
    exec_xinvHaar_eq ⟨fits, width, height, width_even, height_even⟩, fun i hi j hj => ?_,
    fun i => Space.read_writeFrom_range_beyond _ _⟩
  have cell : InCells s i j := ⟨hi, hj⟩
  have written {x y : Nat} (hx : x < 2) (hy : y < 2) := cell.read_pix hx hy
  rw [State.inverseCell_eq] at written
  exact ⟨written (by decide) (by decide), written (by decide) (by decide),
    written (by decide) (by decide), written (by decide) (by decide)⟩

/-! ### The round trip -/

/-- The values of a cell put through both kernels (44_wavelet_transform R237). -/
def State.cellThroughKernels (s : State) (i j : Nat) : Flt × Flt × Flt × Flt :=
  let f := s.forwardCell machineConfig (s.subbandIndex i j)
  machineConfig.haarInv f.1 f.2.1 f.2.2.1 f.2.2.2

section

variable {s u : State} (hw : u.w = s.w)

include hw

theorem State.subbandIndex_congr (i j : Nat) : u.subbandIndex i j = s.subbandIndex i j := by
  rw [State.subbandIndex, State.subbandIndex, hw]

theorem State.sampleIndex_congr (i j x y : Nat) : u.sampleIndex i j x y = s.sampleIndex i j x y := by
  rw [State.sampleIndex, State.sampleIndex, hw]

variable (hh : u.h = s.h) (shape : HasCells machineConfig s)
  (kept : ∀ k < s.len / 4, u.suba.read k = s.afterXfwdHaar.suba.read k ∧
    u.subh.read k = s.afterXfwdHaar.subh.read k ∧ u.subv.read k = s.afterXfwdHaar.subv.read k ∧
    u.subd.read k = s.afterXfwdHaar.subd.read k)

include shape kept

/-- The second command finds the first kernel's own coefficients. -/
theorem InCells.inverseCell_of_kept {i j : Nat} (cell : InCells s i j) :
    u.inverseCell machineConfig (u.subbandIndex i j) = s.cellThroughKernels i j := by
  have place := cell.subbandIndex_lt shape
  have found : u.subbands (s.subbandIndex i j) = s.forwardCell machineConfig (s.subbandIndex i j) := by
    obtain ⟨a, h, v, d⟩ := kept _ place
    rw [← State.subbands_afterXfwdHaar place, State.subbands, a, h, v, d, State.subbands]
  rw [State.inverseCell_eq, State.subbandIndex_congr hw, found, State.cellThroughKernels]

include hh

/-- The samples that come back are the cell put through both kernels. -/
theorem InCells.read_pix_of_kept {i j x y : Nat} (cell : InCells s i j) (hx : x < 2) (hy : y < 2) :
    u.afterXinvHaar.pix.read (s.sampleIndex i j x y) =
      sat8 machineConfig (u.nanSample (s.sampleIndex i j x y))
        (cellComponent (s.cellThroughKernels i j) x y) := by
  rw [← State.sampleIndex_congr hw, (cell.congr hw hh).read_pix hx hy,
    cell.inverseCell_of_kept hw shape kept]

/-- The pairs of a cell are those of `H_RT`. -/
theorem InCells.pairs_within_tolerance {i j num den : Nat} (cell : InCells s i j)
    (tolerance : CellRoundTrip machineConfig num den) :
    meanDifferenceAtMost num den ([(0, 0), (0, 1), (1, 0), (1, 1)].map fun p =>
      (s.pix.read (s.sampleIndex i j p.1 p.2),
        u.afterXinvHaar.pix.read (s.sampleIndex i j p.1 p.2))) := by
  have restored {x y : Nat} := cell.read_pix_of_kept (x := x) (y := y) hw hh shape kept
  have trip := tolerance (s.pix.read (s.sampleIndex i j 0 0)) (s.pix.read (s.sampleIndex i j 0 1))
    (s.pix.read (s.sampleIndex i j 1 0)) (s.pix.read (s.sampleIndex i j 1 1))
    fun n => u.nanSample (s.sampleIndex i j (n / 2) (n % 2))
  simp only [List.map_cons, List.map_nil, restored, Nat.zero_lt_two, Nat.one_lt_two,
    State.cellThroughKernels, cell.forwardCell_eq]
  exact trip

end

/-- Settles O59: cell by cell, the pairs are those of `H_RT`. -/
theorem haarRoundTripWithinTolerance : Obligations.HaarRoundTripWithinTolerance := by
  intro num den s _ tolerance fits width height width_even height_even
  have shape : HasCells machineConfig s := ⟨fits, width, height, width_even, height_even⟩
  refine ⟨s.afterXfwdHaar, exec_xfwdHaar_eq shape, fun u (hw : u.w = s.w) (hh : u.h = s.h) kept =>
    ⟨u.afterXinvHaar, exec_xinvHaar_eq (shape.congr hw hh), rfl, fun i hi j hj => ?_⟩⟩
  exact InCells.pairs_within_tolerance hw hh shape kept ⟨hi, hj⟩ tolerance

end Sys2Proof.Machine
end

section
/-! PROOF. Why a command fails (60_exceptions R251 to R253, R255): the causes of every command's failures are
listed once and are complete, and each statement about failures reads off some of them. -/

namespace Sys2Proof.Machine

/-- What a command's checks and writes answer before its step is concluded (30_encoding R96). -/
def commandResult (c : Config) (s : State) : Instr → Except FailureKind State
  | .rleenc => rleenc c s
  | .rledec => rledec c s
  | .hfreq => hfreq c s
  | .htree => htree s
  | .hcodes => hcodes s
  | .henc => henc c s
  | .hdec => hdec c s
  | .xfwdDct => xfwdDct c s
  | .xinvDct => xinvDct c s
  | .xfwdHaar => xfwdHaar c s
  | .xinvHaar => xinvHaar c s

theorem execWith_eq_conclude (c : Config) (i : Instr) (s : State) :
    execWith c i s = conclude i s (commandResult c s i) := by
  cases i <;> rfl

theorem exec_eq_conclude (i : Instr) (s : State) :
    exec i s = conclude i s (commandResult machineConfig s i) := by
  rw [← execWith_machineConfig, execWith_eq_conclude]

/-- Why a command fails, the first check that fails giving the kind (60_exceptions R251 to R253, R255). -/
inductive FailureCause (c : Config) (s : State) : Instr → FailureKind → Prop where
  /-- The buffer has more than `MAXLEN` samples. -/
  | longBuffer {i : Instr} (exceeds : c.maxLen < s.len) (tree : i ≠ .htree := by decide)
      (codes : i ≠ .hcodes := by decide) : FailureCause c s i .capacityExceeded
  | longRunList (exceeds : c.maxLen < s.nruns.toNat) : FailureCause c s .rledec .capacityExceeded
  | longStream (exceeds : c.maxBits < s.bitlen.toNat) : FailureCause c s .hdec .capacityExceeded
  /-- The bitstream that would be written is longer than `MAXBITS`. -/
  | longResult (nonempty : s.len ≠ 0) (fits : s.len ≤ c.maxLen)
      (exceeds : c.maxBits < streamLength (sampleTable s.samples) s.samples) :
      FailureCause c s .henc .capacityExceeded
  | emptyBuffer {i : Instr} (command : i = .rleenc ∨ i = .henc) (empty : s.len = 0) :
      FailureCause c s i .emptyInput
  | emptyTable (empty : presentSymbols s.count = []) : FailureCause c s .htree .emptyInput
  | noTree (none : s.nnodes = 0) : FailureCause c s .hcodes .emptyInput
  /-- The counts of the runs do not sum to the number of samples. -/
  | wrongTotal (fits : s.len ≤ c.maxLen) (runs : s.nruns.toNat ≤ c.maxLen)
      (differ : totalCount s.runList ≠ s.len) : FailureCause c s .rledec .shapeMismatch
  /-- Bits are left that complete no code, or the number of symbols is wrong. -/
  | badStream (fits : s.len ≤ c.maxLen) (bits : s.bitlen.toNat ≤ c.maxBits)
      (bad : (scanBits s.codeTable [] (s.stream s.bitlen.toNat)).2 ≠ [] ∨
        (scanBits s.codeTable [] (s.stream s.bitlen.toNat)).1.length ≠ s.len) :
      FailureCause c s .hdec .invalidBitstream
  | badBlocks {i : Instr} (command : i = .xfwdDct ∨ i = .xinvDct) (fits : s.len ≤ c.maxLen)
      (bad : badBlockShape c s = true) : FailureCause c s i .unsupportedBlockShape
  | badCells {i : Instr} (command : i = .xfwdHaar ∨ i = .xinvHaar) (fits : s.len ≤ c.maxLen)
      (bad : badCellShape s = true) : FailureCause c s i .unsupportedBlockShape

section

variable {c : Config} {s : State} {i : Instr} {kind : FailureKind}

/-- Each cause fails its command with its kind, whatever the later checks would say (60_exceptions R255). -/
theorem FailureCause.error (cause : FailureCause c s i kind) :
    commandResult c s i = .error kind := by
  cases cause with
  | longBuffer exceeds tree codes =>
    cases i with
    | htree => exact absurd rfl tree
    | hcodes => exact absurd rfl codes
    | rledec | hdec => exact if_pos (.inl exceeds)
    | _ => exact if_pos exceeds
  | longRunList exceeds | longStream exceeds => exact if_pos (.inr exceeds)
  | longResult nonempty fits exceeds =>
    exact (if_neg (Nat.not_lt.mpr fits)).trans
      ((if_neg (mt s.presentSymbols_samples_eq_nil_iff.mp nonempty)).trans (if_pos exceeds))
  | emptyBuffer command empty =>
    have fits : ¬ s.len > c.maxLen := by omega
    rcases command with rfl | rfl
    · exact (if_neg fits).trans (if_pos empty)
    · exact (if_neg fits).trans (if_pos (s.presentSymbols_samples_eq_nil_iff.mpr empty))
  | emptyTable empty => exact if_pos empty
  | noTree none => exact if_pos none
  | wrongTotal fits runs differ => exact (if_neg (by omega)).trans (if_pos differ)
  | badStream fits bits bad =>
    refine (if_neg (by omega)).trans ?_
    by_cases pending : (scanBits s.codeTable [] (s.stream s.bitlen.toNat)).2 = []
    · exact (if_neg (not_not.mpr pending)).trans (if_pos (bad.resolve_left (not_not.mpr pending)))
    · exact if_pos pending
  | badBlocks command fits bad | badCells command fits bad =>
    rcases command with rfl | rfl <;> exact (if_neg (Nat.not_lt.mpr fits)).trans (if_pos bad)

theorem FailureCause.exec_eq (cause : FailureCause machineConfig s i kind) :
    exec i s = .next (failureEntry (some i) kind s) := by
  rw [exec_eq_conclude, cause.error, conclude_error]

/-- How a command's checks and writes end: failing for one of the causes, or with the writes of its row. -/
inductive ResultOf (c : Config) (s : State) (i : Instr) : Prop where
  | fails {kind : FailureKind} (cause : FailureCause c s i kind)
  | writes {u : State} (row : CommandWrites s i u) (result : commandResult c s i = .ok u)

theorem henc_resultOf (c : Config) (s : State) : ResultOf c s .henc := by
  by_cases exceeds : c.maxLen < s.len
  · exact .fails (.longBuffer exceeds)
  by_cases empty : s.len = 0
  · exact .fails (.emptyBuffer (.inr rfl) empty)
  by_cases long : c.maxBits < streamLength (sampleTable s.samples) s.samples
  · exact .fails (.longResult empty (Nat.not_lt.mp exceeds) long)
  · exact .writes (.henc _ _) <| (if_neg exceeds).trans <|
      (if_neg (mt s.presentSymbols_samples_eq_nil_iff.mp empty)).trans (if_neg long)

theorem hdec_resultOf (c : Config) (s : State) : ResultOf c s .hdec := by
  by_cases exceeds : c.maxLen < s.len
  · exact .fails (.longBuffer exceeds)
  by_cases long : c.maxBits < s.bitlen.toNat
  · exact .fails (.longStream long)
  by_cases bad : (scanBits s.codeTable [] (s.stream s.bitlen.toNat)).2 ≠ [] ∨
      (scanBits s.codeTable [] (s.stream s.bitlen.toNat)).1.length ≠ s.len
  · exact .fails (.badStream (Nat.not_lt.mp exceeds) (Nat.not_lt.mp long) bad)
  · obtain ⟨complete, number⟩ := not_or.mp bad
    exact .writes (.hdec _) <| (if_neg (not_or.mpr ⟨exceeds, long⟩)).trans <|
      (if_neg complete).trans (if_neg number)

/-- Every command ends in one of the two ways (30_encoding R96, 60_exceptions R255). -/
theorem commandResult_cases (c : Config) (s : State) (i : Instr) : ResultOf c s i := by
  cases i with
  | rleenc =>
    rcases rleenc_cases c s with ⟨exceeds, -⟩ | ⟨-, empty, -⟩ | ⟨-, -, e⟩
    · exact .fails (.longBuffer exceeds)
    · exact .fails (.emptyBuffer (.inl rfl) empty)
    · exact .writes (.rleenc _) e
  | rledec =>
    rcases rledec_cases c s with ⟨exceeds | exceeds, -⟩ | ⟨fits, runs, differ, -⟩ | ⟨-, -, -, e⟩
    · exact .fails (.longBuffer exceeds)
    · exact .fails (.longRunList exceeds)
    · exact .fails (.wrongTotal fits runs differ)
    · exact .writes (.rledec _) e
  | hfreq =>
    rcases hfreq_cases c s with ⟨exceeds, -⟩ | ⟨-, e⟩
    · exact .fails (.longBuffer exceeds)
    · exact .writes (.hfreq _) e
  | htree =>
    rcases htree_cases s with ⟨empty, -⟩ | ⟨present, e⟩
    · exact .fails (.emptyTable empty)
    · exact .writes (.htree present) e
  | hcodes =>
    rcases hcodes_cases s with ⟨none, -⟩ | ⟨-, e⟩
    · exact .fails (.noTree none)
    · exact .writes (.hcodes _) e
  | henc => exact henc_resultOf c s
  | hdec => exact hdec_resultOf c s
  | xfwdDct =>
    rcases xfwdDct_cases c s with ⟨exceeds, -⟩ | ⟨fits, bad, -⟩ | ⟨-, -, e⟩
    · exact .fails (.longBuffer exceeds)
    · exact .fails (.badBlocks (.inl rfl) fits bad)
    · exact .writes (.xfwdDct _) e
  | xinvDct =>
    rcases xinvDct_cases c s with ⟨exceeds, -⟩ | ⟨fits, bad, -⟩ | ⟨-, -, e⟩
    · exact .fails (.longBuffer exceeds)
    · exact .fails (.badBlocks (.inr rfl) fits bad)
    · exact .writes (.xinvDct _) e
  | xfwdHaar =>
    rcases xfwdHaar_cases c s with ⟨exceeds, -⟩ | ⟨fits, bad, -⟩ | ⟨-, -, e⟩
    · exact .fails (.longBuffer exceeds)
    · exact .fails (.badCells (.inl rfl) fits bad)
    · exact .writes (.xfwdHaar _) e
  | xinvHaar =>
    rcases xinvHaar_cases c s with ⟨exceeds, -⟩ | ⟨fits, bad, -⟩ | ⟨-, -, e⟩
    · exact .fails (.longBuffer exceeds)
    · exact .fails (.badCells (.inr rfl) fits bad)
    · exact .writes (.xinvHaar _) e

/-- The causes are complete: no command fails for another. -/
theorem commandResult_eq_error_iff :
    commandResult c s i = .error kind ↔ FailureCause c s i kind := by
  refine ⟨fun failed => ?_, FailureCause.error⟩
  cases commandResult_cases c s i with
  | fails cause =>
    cases cause.error.symm.trans failed
    exact cause
  | writes _ result => cases result.symm.trans failed

/-- A command that leaves another code in `ERRCODE` than it found has failed, with that code's kind. -/
theorem exists_failureCause_of_errcode_ne {t : State} (h : exec i s = .next t)
    (changed : t.errcode ≠ s.errcode) :
    ∃ kind, t.errcode = kind.code ∧ FailureCause machineConfig s i kind := by
  cases commandResult_cases machineConfig s i with
  | fails cause =>
    cases cause.exec_eq.symm.trans h
    exact ⟨_, rfl, cause⟩
  | writes row result =>
    rw [exec_eq_conclude, result, conclude_ok] at h
    cases h
    exact absurd row.errcode_eq changed

end

/-! ### The operands as the statements read them -/

theorem State.presentSymbols_count_eq_nil_iff (s : State) :
    presentSymbols s.count = [] ↔ ∀ sym < 256, s.freq.read sym = 0 := by
  simp [s.presentSymbols_count]

theorem State.totalCount_runList (s : State) : totalCount s.runList =
    ((s.runs.readUpTo s.nruns.toNat).map fun v => (v.extractLsb' 0 32).toNat).sum := by
  rw [totalCount, State.runList, List.map_map]
  rfl

theorem State.streamLength_samples (s : State) (table : CodeTable) : streamLength table s.samples =
    ((List.range s.len).map fun k => (entryOf table (s.pix.read k).toNat).1).sum := by
  rw [streamLength, State.samples, Space.readUpTo, List.map_map]
  rfl

theorem badBlockShape_iff (c : Config) (s : State) : badBlockShape c s = true ↔
    s.blk = 0 ∨ c.blkMax < s.blk.toNat ∨ s.w.toNat < s.blk.toNat ∨ s.h.toNat < s.blk.toNat := by
  simp [badBlockShape, or_assoc, ← BitVec.toNat_inj]

theorem badCellShape_iff (s : State) : badCellShape s = true ↔
    s.w.toNat < 2 ∨ s.h.toNat < 2 ∨ s.w.toNat % 2 = 1 ∨ s.h.toNat % 2 = 1 := by
  simp [badCellShape, or_assoc]

/-! ### The obligations -/

/-- Settles O27: the buffer's length is the first check. -/
theorem capacityFailures : Obligations.CapacityFailures :=
  fun _ _ tree codes exceeds => (FailureCause.longBuffer exceeds tree codes).exec_eq

/-- Settles O28: the causes of `CapacityExceeded`, command by command. -/
theorem capacityFailuresAtAnyParameters : Obligations.CapacityFailuresAtAnyParameters := by
  intro c s
  refine ⟨fun exceeds => ?_, fun exceeds => (FailureCause.longRunList exceeds).error,
    fun exceeds => (FailureCause.longStream exceeds).error, fun nonempty fits => ?_, fun failed => ?_,
    fun failed => ?_⟩
  · have fails (i : Instr) (tree : i ≠ .htree) (codes : i ≠ .hcodes) :
        commandResult c s i = .error .capacityExceeded :=
      (FailureCause.longBuffer exceeds tree codes).error
    exact ⟨fails .rleenc nofun nofun, fails .rledec nofun nofun, fails .hfreq nofun nofun,
      fails .henc nofun nofun, fails .hdec nofun nofun, fails .xfwdDct nofun nofun,
      fails .xinvDct nofun nofun, fails .xfwdHaar nofun nofun, fails .xinvHaar nofun nofun⟩
  · rw [← s.streamLength_samples]
    constructor
    · intro failed
      have cause : FailureCause c s .henc .capacityExceeded := commandResult_eq_error_iff.mp failed
      cases cause with
      | longBuffer exceeds => exact absurd exceeds (Nat.not_lt.mpr fits)
      | longResult _ _ exceeds => exact exceeds
    · exact fun exceeds => (FailureCause.longResult nonempty.ne' fits exceeds).error
  · have cause : FailureCause c s .htree .capacityExceeded := commandResult_eq_error_iff.mp failed
    cases cause with
    | longBuffer _ tree => exact tree rfl
  · have cause : FailureCause c s .hcodes .capacityExceeded := commandResult_eq_error_iff.mp failed
    cases cause with
    | longBuffer _ _ codes => exact codes rfl

theorem FailureKind.eq_emptyInput_of_code (kind : FailureKind) (h : kind.code = 1) :
    kind = .emptyInput := by
  cases kind with
  | emptyInput => rfl
  | _ => exact absurd h (by decide)

/-- Settles O29: the causes of `EmptyInput`, which alone has code 1. -/
theorem emptyInputCauses : Obligations.EmptyInputCauses := by
  intro s
  refine ⟨fun empty => (FailureCause.emptyBuffer (.inl rfl) empty).exec_eq,
    fun empty => (FailureCause.emptyTable (s.presentSymbols_count_eq_nil_iff.mpr empty)).exec_eq,
    fun empty => (FailureCause.emptyBuffer (.inr rfl) empty).exec_eq,
    fun none => (FailureCause.noTree none).exec_eq, fun i t before h after => ?_⟩
  obtain ⟨kind, code, cause⟩ := exists_failureCause_of_errcode_ne h (after ▸ before.symm)
  obtain rfl : kind = .emptyInput := kind.eq_emptyInput_of_code (code.symm.trans after)
  cases cause with
  | emptyBuffer command empty =>
    rcases command with rfl | rfl
    · exact .inl ⟨rfl, empty⟩
    · exact .inr (.inr (.inl ⟨rfl, empty⟩))
  | emptyTable empty => exact .inr (.inl ⟨rfl, s.presentSymbols_count_eq_nil_iff.mp empty⟩)
  | noTree none => exact .inr (.inr (.inr ⟨rfl, none⟩))

/-- Settles O30: at the default capacities `NRUNS` and `BITLEN` never exceed theirs. -/
theorem shapeAndStreamFailures : Obligations.ShapeAndStreamFailures := by
  intro s fits
  refine ⟨fun differ => ?_, fun bad => ?_, fun bad => ?_, fun bad => ?_⟩
  · rw [← s.totalCount_runList] at differ
    exact (FailureCause.wrongTotal fits (Nat.le_sub_one_of_lt s.nruns.isLt) differ).exec_eq
  · exact (FailureCause.badStream fits (Nat.le_sub_one_of_lt s.bitlen.isLt) bad).exec_eq
  · have shape := (badBlockShape_iff machineConfig s).mpr bad
    exact ⟨(FailureCause.badBlocks (.inl rfl) fits shape).exec_eq,
      (FailureCause.badBlocks (.inr rfl) fits shape).exec_eq⟩
  · have shape := (badCellShape_iff s).mpr bad
    exact ⟨(FailureCause.badCells (.inl rfl) fits shape).exec_eq,
      (FailureCause.badCells (.inr rfl) fits shape).exec_eq⟩

end Sys2Proof.Machine
end

section
/-! PROOF. How a failure is recorded and reported: the codes (60_exceptions R250), the failure entry (R254,
R257) and the interrupt line (R262, R263). -/

namespace Sys2Proof.Machine

/-- Settles O25: by the definition of the codes. -/
theorem failureCodes : Obligations.FailureCodes := ⟨rfl, rfl, rfl, rfl, rfl, rfl⟩

/-- The five updates of `HENC`'s row as one (60_exceptions R257; log 12). -/
theorem failureOutputs_henc (s : State) : failureOutputs (some .henc) s = { s with
    bitlen := 0
    nnodes := 0
    root := 0
    clen := Space.fresh s.draws
    cval := Space.fresh (s.draws + 1)
    bits := Space.fresh (s.draws + 2)
    freq := Space.fresh (s.draws + 3)
    tree := Space.fresh (s.draws + 4)
    draws := s.draws + 5 } := by
  simp only [failureOutputs, State.drawCodes, State.drawBits, State.drawFreq, State.drawTree,
    State.dropTree]

/-- Settles O26: each space of the row takes the next draw. -/
theorem failureEntryOfEachCommand : Obligations.FailureEntryOfEachCommand := by
  intro s kind
  refine ⟨rfl, ⟨_, s.draws + 1, rfl⟩, fun i writesPix => ⟨Space.fresh s.draws, s.draws + 1, ?_⟩,
    ⟨_, s.draws + 1, rfl⟩, ⟨_, s.draws + 1, rfl⟩, ⟨_, _, s.draws + 2, rfl⟩,
    ⟨_, _, _, _, _, s.draws + 5, congrArg (State.fail kind) (failureOutputs_henc s)⟩,
    ⟨_, s.draws + 1, rfl⟩, ⟨_, _, _, _, s.draws + 4, rfl⟩⟩
  simp only [List.mem_cons, List.not_mem_nil, or_false] at writesPix
  rcases writesPix with rfl | rfl | rfl | rfl <;> rfl

/-- A word that no command has is illegal (30_encoding R94). -/
theorem exists_decode_eq_error {w : CommandWord} (h : ∀ i, w ≠ encode i) : ∃ e, decode w = .error e := by
  cases hd : decode w with
  | ok i => exact absurd (decode_eq_ok_iff.mp hd) (h i)
  | error e => exact ⟨e, rfl⟩

/-- Settles O4: the failure entry of an illegal word has no outputs. -/
theorem illegalWordFails : Obligations.IllegalWordFails := by
  intro s busy hr hm noCommand
  obtain ⟨e, illegal⟩ := exists_decode_eq_error noCommand
  rw [step_of_no_moves hm, engineStep_of_illegal (s.canStep_of_busy busy hr) illegal]
  rfl

/-- Settles O11: out of reset nothing masks the line. -/
theorem interruptLevel : Obligations.InterruptLevel := by
  intro s hr
  rw [State.irq, hr, Bool.not_false, Bool.and_true]

/-- In the joint move the engine steps from the state the write has left (60_exceptions R263, log 21). -/
theorem step_of_engineWithStatusWrite {s : State} {v : Slot} {rest : List Move}
    (hr : s.inReset = false) (hm : s.moves = .engineWithStatusWrite v :: rest) :
    step s = engineStep exec ({ s with moves := rest }.writeStatus v) := by
  rw [step_of_move hm, runMove, if_neg (by simp [hr])]

/-- Settles O18: the engine's step, which sets `DONE`, comes after the write that clears it. -/
theorem completionWinsOverClear : Obligations.CompletionWinsOverClear := by
  intro s v rest busy hr hm
  rw [step_of_engineWithStatusWrite hr hm]
  have ready : ({ s with moves := rest }.writeStatus v).canStep = true :=
    State.canStep_of_busy busy hr
  obtain ⟨t, ht⟩ := engineStep_answers_next ({ s with moves := rest }.writeStatus v)
  obtain ⟨ended, control⟩ := engineStep_ended ready ht
  exact ⟨t, ht, ended.done, ended.busy, control.haz, control.moves⟩

end Sys2Proof.Machine
end

section
/-! PROOF. The reset input (70_reset_and_hazards R290, R291): what its release gives, what its assertion changes,
and what can happen while it is asserted. -/

namespace Sys2Proof.Machine

theorem step_of_assertReset {s : State} {rest : List Move} (hm : s.moves = .assertReset :: rest) :
    step s = .next { s with moves := rest, inReset := true } := step_of_move hm

theorem step_of_releaseReset {s : State} {rest : List Move} (hr : s.inReset = true)
    (hm : s.moves = .releaseReset :: rest) :
    step s = .next (State.afterReset s.draws s.busData rest) := by
  rw [step_of_move hm, runMove, State.release, if_pos hr]

/-- Settles O6: the release gives `State.afterReset`, whatever state it ends. -/
theorem releaseGivesTheResetState : Obligations.ReleaseGivesTheResetState := by
  intro s rest hr hm
  refine ⟨_, step_of_releaseReset hr hm, ?_⟩
  simp [State.afterReset, State.irq, Space.fresh]

/-- The engine does nothing while reset is asserted (70_reset_and_hazards R290). -/
theorem engineStep_of_inReset (run : Runner) {s : State} (hr : s.inReset = true) :
    engineStep run s = .next s := engineStep_of_idle (by simp [State.canStep, hr])

/-- A bus access that is not one whole aligned element or register slot (93_implementation_defined U9). -/
def Move.IsPartialAccess (c : Config) (m : Move) : Prop :=
  (∃ target offset size, m = .host (.busRead target offset size) ∧
    (size ≠ paddedSize c target ∨ offset % paddedSize c target ≠ 0)) ∨
  ∃ target offset bytes, m = .host (.busWrite target offset bytes) ∧
    (bytes.length ≠ paddedSize c target ∨ offset % paddedSize c target ≠ 0)

theorem exists_busIndex_eq_some {c : Config} {target : BusTarget} {offset size : Nat}
    (whole : ¬(size ≠ paddedSize c target ∨ offset % paddedSize c target ≠ 0)) :
    ∃ i, busIndex c target offset size = some i := by
  rw [not_or, not_not, not_not] at whole
  exact ⟨_, if_pos whole⟩

/-- U9 holds in reset as out of it (70_reset_and_hazards R306). -/
theorem runMove_inReset_of_partial (c : Config) (run : Runner) {s : State} {m : Move}
    (hr : s.inReset = true) (broken : m.IsPartialAccess c) :
    runMove c run s m = .refused .partialBusAccess := by
  rcases broken with ⟨target, offset, size, rfl, broken⟩ | ⟨target, offset, bytes, rfl, broken⟩ <;>
    simp only [runMove, hostMove, if_pos hr, hostActionInReset, busIndex_of_partial broken]

/-- A host action while reset is asserted changes at most what the last read returned and the draws (log 17). -/
theorem hostActionInReset_of_whole {c : Config} (s : State) {action : HostAction}
    (whole : ¬(Move.host action).IsPartialAccess c) : ∃ (answer : Wide) (drawn : Nat),
      hostActionInReset c s action = .next { s with busData := answer, draws := drawn } := by
  cases action with
  | readReg | readSpace => exact ⟨_, _, rfl⟩
  | writeReg | writeSpace => exact ⟨s.busData, s.draws, rfl⟩
  | busRead target offset size =>
    obtain ⟨i, found⟩ := exists_busIndex_eq_some fun broken => whole (.inl ⟨_, _, _, rfl, broken⟩)
    simp only [hostActionInReset, found]
    exact ⟨_, _, rfl⟩
  | busWrite target offset bytes =>
    obtain ⟨i, found⟩ := exists_busIndex_eq_some fun broken => whole (.inr ⟨_, _, _, rfl, broken⟩)
    simp only [hostActionInReset, found]
    exact ⟨s.busData, s.draws, rfl⟩

/-- Every move but the release, while reset is asserted. -/
theorem runMove_inReset_of_whole {c : Config} (run : Runner) {s : State} {m : Move}
    (hr : s.inReset = true) (stays : m ≠ .releaseReset) (whole : ¬m.IsPartialAccess c) :
    ∃ (answer : Wide) (drawn : Nat),
      runMove c run s m = .next { s with busData := answer, draws := drawn } := by
  cases m with
  | engine => exact ⟨s.busData, s.draws, engineStep_of_inReset run hr⟩
  | host action =>
    rw [runMove, hostMove, if_pos hr]
    exact hostActionInReset_of_whole s whole
  | engineWithStatusWrite v =>
    rw [runMove, if_pos hr]
    exact ⟨s.busData, s.draws, engineStep_of_inReset run hr⟩
  | assertReset => exact ⟨s.busData, s.draws, by rw [runMove, ← hr]⟩
  | releaseReset => exact absurd rfl stays

/-- Settles O7: by the moves, partial bus accesses and the others. -/
theorem assertedResetStopsTheMachine : Obligations.AssertedResetStopsTheMachine := by
  refine ⟨fun s rest hm => step_of_assertReset hm, fun s hr => ⟨?_, fun hm => ?_,
    fun m rest hm stays => ⟨fun broken => ?_, fun whole => ?_⟩⟩⟩
  · rw [State.irq, hr, Bool.not_true, Bool.and_false]
  · rw [step_of_no_moves hm, engineStep_of_inReset exec hr]
  · rw [step_of_move hm]
    exact runMove_inReset_of_partial machineConfig exec hr broken
  · rw [step_of_move hm]
    exact runMove_inReset_of_whole (s := { s with moves := rest }) exec hr stays whole

end Sys2Proof.Machine
end

section
/-! PROOF. Hazards (70_reset_and_hazards R299, R300): the host's accesses to what a running command owns, and to
what is not there. -/

namespace Sys2Proof.Machine

theorem isOperandRegister_of_range {index : Nat} (h4 : 4 ≤ index) (h11 : index ≤ 11) :
    isOperandRegister index = true := by simp [isOperandRegister, h4, h11]

/-- While the engine is busy an operand register reads as some value (70_reset_and_hazards R299). -/
theorem hostReadReg_of_owned (c : Config) {s : State} {index : Nat} (busy : s.status.busy = true)
    (h : isOperandRegister index = true) :
    hostReadReg c s index = (s.answerUnspecified (registerWidth c index)).setHaz := by
  rw [hostReadReg, h, busy]
  rfl

theorem hostReadSpace_of_outside {c : Config} (s : State) {sp : SpaceId} {i : Nat}
    (outside : spaceSize c sp ≤ i) : hostReadSpace c s sp i = (s.answer 0).setHaz := if_pos outside

theorem hostWriteSpace_of_refused {c : Config} {s : State} {sp : SpaceId} {i : Nat} (v : Wide)
    (h : spaceSize c sp ≤ i ∨ s.status.busy = true) : hostWriteSpace c s sp i v = s.setHaz := by
  simp [hostWriteSpace, h]

/-- The host cannot write `TREE` (20_memory R62). -/
theorem hostWriteSpace_tree (c : Config) (s : State) (i : Nat) (v : Wide) :
    hostWriteSpace c s .tree i v = s.setHaz := by
  rcases hostWriteSpace_cases c s .tree i v with ⟨-, e⟩ | ⟨-, -, e⟩ <;> exact e

/-- An unspecified answer fits the width it is drawn for. -/
theorem State.toNat_answerUnspecified_lt (s : State) (width : Nat) :
    (s.answerUnspecified width).busData.toNat < 2 ^ width := by
  have drawn := (Config.freeBits width s.draws 0).isLt
  exact ((BitVec.toNat_setWidth 256 _).trans_le (Nat.mod_le _ _)).trans_lt drawn

/-- While the engine is busy a data space reads as some value of the element's width, 0 outside the space
(70_reset_and_hazards R299, R300; log 14). -/
theorem hostReadSpace_of_busy (c : Config) {s : State} (busy : s.status.busy = true) (sp : SpaceId)
    (i : Nat) : ∃ (answer : Wide) (drawn : Nat), answer.toNat < 2 ^ elementWidth c sp ∧
      hostReadSpace c s sp i = { s.setHaz with busData := answer, draws := drawn } := by
  rcases hostReadSpace_cases c s sp i with ⟨-, e⟩ | ⟨-, -, e⟩ | ⟨-, idle, -⟩
  · exact ⟨0, s.draws, Nat.two_pow_pos _, e⟩
  · exact ⟨_, _, s.toNat_answerUnspecified_lt _, e⟩
  · exact absurd (busy.symm.trans idle) (by decide)

/-- Settles O9: the running command owns the operand registers and the data spaces, and not `STATUS`, `ERRCODE`
and `CTRL`. -/
theorem operandAccessWhileBusy : Obligations.OperandAccessWhileBusy := by
  intro s rest hr busy
  refine ⟨fun index v h4 h11 hm => ?_, fun sp index v hm => ?_, fun index h4 h11 hm => ?_,
    fun sp index hm => ?_, fun index h1 h3 hm => ?_, fun v hm => ?_⟩
  all_goals rw [step_of_host hr hm, hostAction]
  · rw [hostWriteReg_of_owned (s := { s with moves := rest }) v busy
      (.inr (isOperandRegister_of_range h4 h11))]
    rfl
  · rw [hostWriteSpace_of_refused (s := { s with moves := rest }) v (.inr busy)]
    rfl
  · rw [hostReadReg_of_owned machineConfig (s := { s with moves := rest }) busy
      (isOperandRegister_of_range h4 h11)]
    exact ⟨_, _, s.toNat_answerUnspecified_lt _, rfl⟩
  · obtain ⟨answer, drawn, fits, e⟩ :=
      hostReadSpace_of_busy machineConfig (s := { s with moves := rest }) busy sp index
    exact ⟨answer, drawn, fits, congrArg _ e⟩
  · have free : isOperandRegister index = false := by simp [isOperandRegister]; omega
    rw [hostReadReg_of_free fun _ => free, BitVec.ofNat_toNat]
    rfl
  · rw [hostWriteReg_of_free v (by decide) rfl]
    rfl

/-- Settles O13: busy or idle, such an access is refused. -/
theorem refusedSpaceAccess : Obligations.RefusedSpaceAccess := by
  refine ⟨rfl, fun s rest hr => ⟨fun index v hm => ?_, fun sp index v outside hm => ?_,
    fun sp index outside hm => ?_⟩⟩
  all_goals rw [step_of_host hr hm, hostAction]
  · rw [hostWriteSpace_tree]
    rfl
  · rw [hostWriteSpace_of_refused v (.inl outside)]
    rfl
  · rw [hostReadSpace_of_outside _ outside]
    rfl

end Sys2Proof.Machine
end

section
/-! PROOF. Every step keeps the free values of the data spaces apart (70_reset_and_hazards R304, log 3): a space
changes its draw only by taking the next one. -/

namespace Sys2Proof.Machine

/-- The laws of `State.drawLaws` for any draws and any counter. -/
def DrawsApart (epochs : List Nat) (draws : Nat) : Prop := epochs.Nodup ∧ ∀ e ∈ epochs, e < draws

/-- A space that takes the next draw. -/
theorem DrawsApart.redraw {epochs : List Nat} {draws : Nat} (h : DrawsApart epochs draws)
    (sp : SpaceId) : DrawsApart (epochs.set sp.ctorIdx draws) (draws + 1) := by
  obtain ⟨apart, below⟩ := h
  refine ⟨apart.set fun old => absurd (below draws old) (Nat.lt_irrefl draws), fun e he => ?_⟩
  rcases List.mem_or_eq_of_mem_set he with old | rfl
  · exact Nat.lt_succ_of_lt (below e old)
  · exact Nat.lt_succ_self _

/-- Draws that are passed over do no harm. -/
theorem State.drawLaws_congr {s t : State} (hs : s.drawLaws) (he : t.epochs = s.epochs)
    (hd : s.draws ≤ t.draws) : t.drawLaws := by
  obtain ⟨apart, below⟩ := hs
  exact ⟨he ▸ apart, fun e h => (below e (he ▸ h)).trans_le hd⟩

section
variable {s : State} (hs : s.drawLaws)
include hs

theorem State.drawLaws_drawPix : s.drawPix.drawLaws := DrawsApart.redraw hs .pix

theorem State.drawLaws_drawRuns : s.drawRuns.drawLaws := DrawsApart.redraw hs .runs

theorem State.drawLaws_drawFreq : s.drawFreq.drawLaws := DrawsApart.redraw hs .freq

theorem State.drawLaws_drawTree : s.drawTree.drawLaws := DrawsApart.redraw hs .tree

theorem State.drawLaws_drawCodes : s.drawCodes.drawLaws :=
  (DrawsApart.redraw hs .clen).redraw .cval

theorem State.drawLaws_drawBits : s.drawBits.drawLaws := DrawsApart.redraw hs .bits

theorem State.drawLaws_drawCoef : s.drawCoef.drawLaws := DrawsApart.redraw hs .coef

theorem State.drawLaws_drawSubbands : s.drawSubbands.drawLaws :=
  (((DrawsApart.redraw hs .suba).redraw .subh).redraw .subv).redraw .subd

/-- Each space of a failed command's row takes a draw of its own (60_exceptions R257, log 11). -/
theorem drawLaws_failureOutputs (command : Option Instr) : (failureOutputs command s).drawLaws := by
  rcases command with _ | i
  · exact hs
  · cases i with
    | rleenc => exact State.drawLaws_drawRuns hs
    | rledec | hdec | xinvDct | xinvHaar => exact State.drawLaws_drawPix hs
    | hfreq => exact State.drawLaws_drawFreq hs
    | htree => exact State.drawLaws_drawTree hs
    | hcodes => exact State.drawLaws_drawCodes hs
    | henc =>
      have codes := State.drawLaws_drawCodes hs
      have freq := State.drawLaws_drawFreq (State.drawLaws_drawBits codes)
      exact State.drawLaws_drawTree freq
    | xfwdDct => exact State.drawLaws_drawCoef hs
    | xfwdHaar => exact State.drawLaws_drawSubbands hs

/-- A value that is written leaves the draw of its space; `HENC` draws `FREQ` and `TREE` (log 12). -/
theorem CommandWrites.drawLaws {u : State} {i : Instr} (h : CommandWrites s i u) : u.drawLaws := by
  cases h with
  | henc table stream =>
    have written : ((s.putCodes table).putBits stream).dropTree.drawLaws :=
      State.drawLaws_congr hs (by simp [State.epochs]) (by simp)
    exact State.drawLaws_drawTree (State.drawLaws_drawFreq written)
  | _ => exact State.drawLaws_congr hs (by simp [State.epochs]) (by simp)

theorem State.drawLaws_writeSlot (c : Config) (v : Slot) (index : Nat) :
    (s.writeSlot c v index).drawLaws := by
  unfold State.writeSlot
  split <;> exact hs

theorem State.drawLaws_poke (c : Config) (sp : SpaceId) (i : Nat) (v : Wide) :
    (s.poke c sp i v).drawLaws := by
  cases sp with
  | bits => exact State.drawLaws_congr hs (by simp [State.epochs, State.poke]) le_rfl
  | _ => exact hs

end

theorem drawLaws_invariant : StepInvariant State.drawLaws where
  moves _ _ hs := hs
  assertReset _ hs := hs
  afterReset := drawLaws_afterReset
  answer _ _ hs := hs
  tick s hs := State.drawLaws_congr hs rfl (Nat.le_succ s.draws)
  setHaz _ hs := hs
  writeSlot _ v index hs := State.drawLaws_writeSlot hs machineConfig v index
  poke _ sp i v _ hs := State.drawLaws_poke hs machineConfig sp i v
  complete _ _ _ _ hw hs := hw.drawLaws hs
  failureEntry _ command _ _ hs := drawLaws_failureOutputs hs command

/-- Settles O23: each part of a step keeps the laws. -/
theorem stepKeepsDrawLaws : Obligations.StepKeepsDrawLaws :=
  fun _ _ hs h => drawLaws_invariant.step hs h

end Sys2Proof.Machine
end
